-- ==== Sys2Proof/Word.lean ====
section
/-! DEFINITION. The word types of the block (00_scope.md R8): characters and buffer elements are bytes,
a command word is 16 bits, no register is wider than 32 bits. -/

namespace Sys2Proof

/-- One wire character, one buffer element: 8 bits, the ASCII code is its value (R8). -/
abbrev Byte := BitVec 8

/-- A 16-bit register or a command word (R100). -/
abbrev Word16 := BitVec 16

/-- A 24-bit register: the capacities (R53). -/
abbrev Word24 := BitVec 24

/-- A 32-bit register: STATUS (R40). -/
abbrev Word32 := BitVec 32

end Sys2Proof
end

