-- ==== Sys2Proof/Config.lean ====
section
/-! DEFINITION. The configuration: the eight CommandKinds, the parameters of 00_scope.md R7 that the block itself
reads, as plain data, and the conditions 70_reset_and_hazards.md R363 puts on them. The parameters' default values are
in Machine/Parameters.lean. Two host-side parameters (SP_CLASS, RTN_TEXT) are arguments of the functions that use
them (Machine/Interpret.lean) and no part of this record. -/

namespace Sys2Proof

/-- The eight CommandKinds, in the order of R106. -/
inductive Kind where
  | serialNumber
  | manufacturerInfo
  | protocolVersion
  | softwareVersion
  | systemParameters
  | alarmInfo
  | chargeManagementInfo
  | analogValue
  deriving DecidableEq, Repr

/-- A table with one entry for each CommandKind. -/
structure PerKind (α : Type) where
  serialNumber : α
  manufacturerInfo : α
  protocolVersion : α
  softwareVersion : α
  systemParameters : α
  alarmInfo : α
  chargeManagementInfo : α
  analogValue : α
  deriving DecidableEq, Repr

/-- The entry of kind `k`. -/
def PerKind.get {α : Type} (t : PerKind α) (k : Kind) : α :=
  match k with
  | .serialNumber => t.serialNumber
  | .manufacturerInfo => t.manufacturerInfo
  | .protocolVersion => t.protocolVersion
  | .softwareVersion => t.softwareVersion
  | .systemParameters => t.systemParameters
  | .alarmInfo => t.alarmInfo
  | .chargeManagementInfo => t.chargeManagementInfo
  | .analogValue => t.analogValue

/-- The (CID1, CID2) byte pair of a request (R107). -/
structure CidPair where
  cid1 : Byte
  cid2 : Byte
  deriving DecidableEq, Repr

/-- A return code: the two characters at offsets 7 and 8 of a response (R103, R183), in that order. -/
structure ReturnCode where
  first : Byte
  second : Byte
  deriving DecidableEq, Repr

/-- The return code "00", success (R184). -/
def ReturnCode.normal : ReturnCode := ⟨0x30#8, 0x30#8⟩

/-- The return code "91", which RTN_KNOWN must contain (R7, R363). -/
def ReturnCode.slaveCommunication : ReturnCode := ⟨0x39#8, 0x31#8⟩

/-- The parameters of R7 that the block reads. They are fixed before the first command and cannot change while the
block runs (R363); no instruction writes them. The model carries them in `State.params`, so that what is proved holds
for every choice of them (log entry 1). -/
structure Params where
  /-- RX_MAX: capacity of RXBUF in bytes. -/
  rxMax : Word16
  /-- ADDR_MIN: the least supported BatteryAddress. -/
  addrMin : Byte
  /-- ADDR_MAX: the greatest supported BatteryAddress. -/
  addrMax : Byte
  /-- CID_TABLE: the (CID1, CID2) pair of each kind. -/
  cidTable : PerKind CidPair
  /-- MINLEN: the minimum valid response length of each kind, at most 65535 (R363). -/
  minLen : PerKind Word16
  /-- RTN_KNOWN: the return codes other than "00" that count as known. -/
  rtnKnown : List ReturnCode
  /-- SN_CHARS: the character width of the serial-number field. -/
  snChars : Nat
  /-- TEMP_BASE: the offset of the first AnalogValue temperature field. -/
  tempBase : Nat
  deriving DecidableEq, Repr

/-- What the parameters must satisfy: the four conditions R363 lists, the two CID pairs the source fixes (R107), the two
readings of SN_CHARS (R7), and that every temperature offset fits STATUS.AUX (log entry 4). -/
structure Params.Legal (p : Params) : Prop where
  addrMin_pos : 1 ≤ p.addrMin.toNat
  addrMin_le_addrMax : p.addrMin.toNat ≤ p.addrMax.toNat
  addrMax_le : p.addrMax.toNat ≤ 254
  rxMax_pos : 1 ≤ p.rxMax.toNat
  normal_not_known : ReturnCode.normal ∉ p.rtnKnown
  slave_known : ReturnCode.slaveCommunication ∈ p.rtnKnown
  cid_serialNumber : p.cidTable.serialNumber = ⟨0x46#8, 0x93#8⟩
  cid_alarmInfo : p.cidTable.alarmInfo = ⟨0x46#8, 0x44#8⟩
  snChars_reading : p.snChars = 32 ∨ p.snChars = 64
  tempBase_fits : p.tempBase + 20 ≤ 65536

namespace Config

/-- A quotient the source leaves open: a derived value whose divisor is zero (R336, 93_implementation_defined.md I26).
A free value: nothing in the model constrains it (log entry 9). -/
opaque quotientByZero : Rat → Rat

end Config

end Sys2Proof
end

