-- ==== Sys2Proof/Machine/Chars.lean ====
section
/-! DEFINITION. Characters: the protocol alphabet (30_encoding.md R112), hex digits and hexadecimal spelling
(00_scope.md R10, R113), slices of character strings (R9). -/

namespace Sys2Proof

/-- SOI, the character `~`. -/
def soi : Byte := 0x7E#8

/-- EOI, the character CR. -/
def cr : Byte := 0x0D#8

/-- The character `0`. -/
def zeroChar : Byte := 0x30#8

/-- `0`–`9`. -/
def isDecimalDigit (b : Byte) : Bool :=
  0x30 ≤ b.toNat && b.toNat ≤ 0x39

/-- `A`–`Z`. -/
def isCapital (b : Byte) : Bool :=
  0x41 ≤ b.toNat && b.toNat ≤ 0x5A

/-- `~`, `A`–`Z` and `0`–`9`: what the shape check accepts at every position but the last (R112, R181). -/
def isShapeChar (b : Byte) : Bool :=
  b == soi || isCapital b || isDecimalDigit b

/-- The 38 byte values of the protocol alphabet, which the receive filter accepts (R112, R282). -/
def inAlphabet (b : Byte) : Bool :=
  isShapeChar b || b == cr

/-- `hexdig(c)`: the value of an uppercase hex digit, undefined (none) for any other byte (R10, R113). -/
def hexdig (b : Byte) : Option Nat :=
  if isDecimalDigit b then some (b.toNat - 0x30)
  else if 0x41 ≤ b.toNat && b.toNat ≤ 0x46 then some (b.toNat - 0x37)
  else none

/-- The value of a string of hex digits read on after a value `acc`, most significant digit first. -/
def hexvalFrom (acc : Nat) : List Byte → Option Nat
  | [] => some acc
  | c :: cs =>
    match hexdig c with
    | some d => hexvalFrom (acc * 16 + d) cs
    | none => none

/-- `hexval(s)`: the unsigned big-endian value of a string of hex digits (R10, R82), none if a character is no digit. -/
def hexval (s : List Byte) : Option Nat :=
  hexvalFrom 0 s

/-- The uppercase hex digit that spells `v`. -/
def hexChar (v : BitVec 4) : Byte :=
  if v.toNat < 10 then BitVec.ofNat 8 (0x30 + v.toNat) else BitVec.ofNat 8 (0x37 + v.toNat)

/-- `hex2(v)`: the 2-character uppercase zero-padded spelling (R10). -/
def hex2 (v : Byte) : List Byte :=
  [hexChar (v.extractLsb' 4 4), hexChar (v.extractLsb' 0 4)]

/-- `fmt4(v)`: the 4-character uppercase zero-padded spelling, most significant digit first (R10, R142). -/
def fmt4 (v : Word16) : List Byte :=
  [hexChar (v.extractLsb' 12 4), hexChar (v.extractLsb' 8 4), hexChar (v.extractLsb' 4 4), hexChar (v.extractLsb' 0 4)]

/-- `s[a+:w]`: the `w` characters of `s` starting at position `a` (R9). -/
def slice (s : List Byte) (a w : Nat) : List Byte :=
  (s.drop a).take w

end Sys2Proof
end

