-- ==== Sys2Proof/Machine/Checksum.lean ====
section
/-! DEFINITION. ChecksumEngine (40_checksum.md): the pure arithmetic that BUILD and VALIDATE use. -/

namespace Sys2Proof

/-- The sum of the byte values of a string, exact. -/
def byteSum (s : List Byte) : Nat :=
  (s.map BitVec.toNat).sum

/-- `checksum(s)`: complement of the sum mod 65536, plus 1, mod 65536 (R140, R141; conflict C7: two's complement). -/
def checksum (s : List Byte) : Word16 :=
  ~~~(BitVec.ofNat 16 (byteSum s)) + 1#16

/-- `lchksum(lenid)`: negation mod 16 of the sum of the three nibbles of LENID (R144; conflicts C1, C2). -/
def lchksum (lenid : BitVec 12) : BitVec 4 :=
  let s := (lenid.extractLsb' 8 4).toNat + (lenid.extractLsb' 4 4).toNat + (lenid.extractLsb' 0 4).toNat
  ~~~(BitVec.ofNat 4 s) + 1#4

/-- LENGTH: LCHKSUM in the top nibble, LENID in the low 12 bits (R105, R144). -/
def lengthField (lenid : BitVec 12) : Word16 :=
  lchksum lenid ++ lenid

end Sys2Proof
end

