-- ==== Sys2Proof/Machine/Frame.lean ====
section
/-! DEFINITION. The request frame (30_encoding.md R104–R110, 41_build.md R160). -/

namespace Sys2Proof

/-- VER of a request: "00" for ProtocolVersion and "20" for every other kind (R108). -/
def requestVer (k : Kind) : List Byte :=
  match k with
  | .protocolVersion => [0x30#8, 0x30#8]
  | .serialNumber => [0x32#8, 0x30#8]
  | .manufacturerInfo => [0x32#8, 0x30#8]
  | .softwareVersion => [0x32#8, 0x30#8]
  | .systemParameters => [0x32#8, 0x30#8]
  | .alarmInfo => [0x32#8, 0x30#8]
  | .chargeManagementInfo => [0x32#8, 0x30#8]
  | .analogValue => [0x32#8, 0x30#8]

/-- ADR of a request for BatteryAddress `a`: the byte 0x02 + a - 1 (R109). -/
def adrOf (a : Byte) : Byte :=
  0x02#8 + a - 1#8

/-- The CID characters of a request. -/
def cidChars (c : CidPair) : List Byte :=
  hex2 c.cid1 ++ hex2 c.cid2

/-- LENGTH of a frame whose INFO is `info` (R144, R160). -/
def lengthChars (info : List Byte) : List Byte :=
  fmt4 (lengthField (BitVec.ofNat 12 info.length))

/-- The 14 characters from VER through INFO (R104, R160); INFO is the ADR byte repeated (R110). -/
def requestBody (cids : PerKind CidPair) (k : Kind) (a : Byte) : List Byte :=
  let info := hex2 (adrOf a)
  requestVer k ++ hex2 (adrOf a) ++ cidChars (cids.get k) ++ lengthChars info ++ info

/-- The CHECKSUM value of the request (R143, R160). -/
def requestChecksum (cids : PerKind CidPair) (k : Kind) (a : Byte) : Word16 :=
  checksum (requestBody cids k a)

/-- The 20 characters of the request frame (R104, R160). -/
def requestFrame (cids : PerKind CidPair) (k : Kind) (a : Byte) : List Byte :=
  [soi] ++ requestBody cids k a ++ fmt4 (requestChecksum cids k a) ++ [cr]

end Sys2Proof
end

