-- ==== Sys2Proof/Syntax.lean ====
section
/-! DEFINITION. The instructions: one constructor for each row of spec/opcode_table.json. The first fourteen are the
legal command words (30_encoding.md R101, R102; DECODE has a row for each kind), `illegal` is the row "any word matching
no row above" (45_control.md R301), and the eight `request` constructors are the table's WIRE_REQUEST rows, the frames
BUILD produces (R104, R163; log entry 2). -/

namespace Sys2Proof

inductive Instr where
  /-- BUILD k, a: build the request frame of kind `k` for BatteryAddress `a` (R160). -/
  | build (k : Kind) (a : Byte)
  /-- RX_RESET: empty the accumulator (R280). -/
  | rxReset
  /-- RX_BYTE b: offer one byte read from the stream (R281). -/
  | rxByte (b : Byte)
  /-- RX_TIMEOUT: the stream reported a timeout (R285). -/
  | rxTimeout
  /-- VALIDATE k: validate the accumulated response for kind `k` (R180). -/
  | validate (k : Kind)
  /-- DECODE SerialNumber (R220). -/
  | decodeSerialNumber
  /-- DECODE ManufacturerInfo (R221). -/
  | decodeManufacturerInfo
  /-- DECODE ProtocolVersion (R222). -/
  | decodeProtocolVersion
  /-- DECODE SoftwareVersion (R223). -/
  | decodeSoftwareVersion
  /-- DECODE SystemParameters (R224). -/
  | decodeSystemParameters
  /-- DECODE AlarmInfo (R225). -/
  | decodeAlarmInfo
  /-- DECODE ChargeManagementInfo (R226). -/
  | decodeChargeManagementInfo
  /-- DECODE AnalogValue (R227). -/
  | decodeAnalogValue
  /-- SOFT_RESET: return the block to its reset state (R300). -/
  | softReset
  /-- A word that R102 refuses (R301). -/
  | illegal (w : Word16)
  /-- The wire request of kind SerialNumber for BatteryAddress `a`. -/
  | requestSerialNumber (a : Byte)
  /-- The wire request of kind ManufacturerInfo for BatteryAddress `a`. -/
  | requestManufacturerInfo (a : Byte)
  /-- The wire request of kind ProtocolVersion for BatteryAddress `a`. -/
  | requestProtocolVersion (a : Byte)
  /-- The wire request of kind SoftwareVersion for BatteryAddress `a`. -/
  | requestSoftwareVersion (a : Byte)
  /-- The wire request of kind SystemParameters for BatteryAddress `a`. -/
  | requestSystemParameters (a : Byte)
  /-- The wire request of kind AlarmInfo for BatteryAddress `a`. -/
  | requestAlarmInfo (a : Byte)
  /-- The wire request of kind ChargeManagementInfo for BatteryAddress `a`. -/
  | requestChargeManagementInfo (a : Byte)
  /-- The wire request of kind AnalogValue for BatteryAddress `a`. -/
  | requestAnalogValue (a : Byte)
  deriving DecidableEq, Repr

end Sys2Proof
end

