-- ==== Sys2Proof/WellFormed.lean ====
section
/-! DEFINITION. Well-formed instructions. Operands are typed, so two checks remain: `illegal w` stands only for a word
that R102 refuses, and a wire request only for an address whose ADR byte 0x02 + a - 1 exists (R109). -/

namespace Sys2Proof

/-- R102's three conditions, in its words: a known OP; KIND at most 7 where the OP takes one and 0 elsewhere; ARG 0
unless the OP is BUILD or RX_BYTE. (The decoder is written from R102's mask and match table instead.) -/
def legalWord (w : Word16) : Bool :=
  let op := w.extractLsb' 0 4
  let kind := w.extractLsb' 4 4
  let arg := w.extractLsb' 8 8
  (op == 0x1#4 || op == 0x2#4 || op == 0x3#4 || op == 0x4#4 || op == 0x5#4 || op == 0x6#4 || op == 0xF#4) &&
  (if op == 0x1#4 || op == 0x5#4 || op == 0x6#4 then kind.toNat ≤ 7 else kind == 0#4) &&
  (op == 0x1#4 || op == 0x3#4 || arg == 0#8)

/-- A BatteryAddress that some chain position can have: the bounds on ADDR_MIN and ADDR_MAX (R7, R109). -/
def encodableAddress (a : Byte) : Bool :=
  1 ≤ a.toNat && a.toNat ≤ 254

/-- The instruction is one that the encodings can carry. -/
def Instr.wellFormed : Instr → Bool
  | .build _ _ => true
  | .rxReset => true
  | .rxByte _ => true
  | .rxTimeout => true
  | .validate _ => true
  | .decodeSerialNumber => true
  | .decodeManufacturerInfo => true
  | .decodeProtocolVersion => true
  | .decodeSoftwareVersion => true
  | .decodeSystemParameters => true
  | .decodeAlarmInfo => true
  | .decodeChargeManagementInfo => true
  | .decodeAnalogValue => true
  | .softReset => true
  | .illegal w => !legalWord w
  | .requestSerialNumber a => encodableAddress a
  | .requestManufacturerInfo a => encodableAddress a
  | .requestProtocolVersion a => encodableAddress a
  | .requestSoftwareVersion a => encodableAddress a
  | .requestSystemParameters a => encodableAddress a
  | .requestAlarmInfo a => encodableAddress a
  | .requestChargeManagementInfo a => encodableAddress a
  | .requestAnalogValue a => encodableAddress a

end Sys2Proof
end

