-- ==== Sys2Proof/Decode.lean ====
section
/-! DEFINITION. Decoding and encoding. The spec has two encodings (30_encoding.md): the 16-bit command word, which the
host writes, and the 20-character wire request, which the block builds. `Encoded` holds either; `decode` is total on both
and rejects by name; `encode` is written from the same tables. -/

namespace Sys2Proof

/-- All eight kinds, in the order of R106. -/
def Kind.all : List Kind :=
  [.serialNumber, .manufacturerInfo, .protocolVersion, .softwareVersion, .systemParameters, .alarmInfo,
    .chargeManagementInfo, .analogValue]

/-- The KIND number of a CommandKind (R106). -/
def Kind.number (k : Kind) : BitVec 3 :=
  match k with
  | .serialNumber => 0
  | .manufacturerInfo => 1
  | .protocolVersion => 2
  | .softwareVersion => 3
  | .systemParameters => 4
  | .alarmInfo => 5
  | .chargeManagementInfo => 6
  | .analogValue => 7

/-- The CommandKind of a KIND number (R106). -/
def kindOfNumber (n : BitVec 3) : Kind :=
  if n = 0 then .serialNumber
  else if n = 1 then .manufacturerInfo
  else if n = 2 then .protocolVersion
  else if n = 3 then .softwareVersion
  else if n = 4 then .systemParameters
  else if n = 5 then .alarmInfo
  else if n = 6 then .chargeManagementInfo
  else .analogValue

/-- KIND of a legal word: bits 7:4, of which bit 7 is 0 (R100, R102). -/
def kindField (w : Word16) : Kind :=
  kindOfNumber (w.extractLsb' 4 3)

/-- ARG: bits 15:8 (R100). -/
def argField (w : Word16) : Byte :=
  w.extractLsb' 8 8

/-- The DECODE row of a kind. -/
def decodeInstr (k : Kind) : Instr :=
  match k with
  | .serialNumber => .decodeSerialNumber
  | .manufacturerInfo => .decodeManufacturerInfo
  | .protocolVersion => .decodeProtocolVersion
  | .softwareVersion => .decodeSoftwareVersion
  | .systemParameters => .decodeSystemParameters
  | .alarmInfo => .decodeAlarmInfo
  | .chargeManagementInfo => .decodeChargeManagementInfo
  | .analogValue => .decodeAnalogValue

/-- The WIRE_REQUEST row of a kind, for BatteryAddress `a`. -/
def requestInstr (k : Kind) (a : Byte) : Instr :=
  match k with
  | .serialNumber => .requestSerialNumber a
  | .manufacturerInfo => .requestManufacturerInfo a
  | .protocolVersion => .requestProtocolVersion a
  | .softwareVersion => .requestSoftwareVersion a
  | .systemParameters => .requestSystemParameters a
  | .alarmInfo => .requestAlarmInfo a
  | .chargeManagementInfo => .requestChargeManagementInfo a
  | .analogValue => .requestAnalogValue a

/-- The command a 16-bit word stands for, by the mask and match rows of R102; a word that no row matches is the
`illegal` row, which is an instruction with an effect (R301). -/
def decodeWord (w : Word16) : Instr :=
  if w &&& 0x008F#16 = 0x0001#16 then .build (kindField w) (argField w)
  else if w &&& 0xFFFF#16 = 0x0002#16 then .rxReset
  else if w &&& 0x00FF#16 = 0x0003#16 then .rxByte (argField w)
  else if w &&& 0xFFFF#16 = 0x0004#16 then .rxTimeout
  else if w &&& 0xFF8F#16 = 0x0005#16 then .validate (kindField w)
  else if w &&& 0xFF8F#16 = 0x0006#16 then decodeInstr (kindField w)
  else if w &&& 0xFFFF#16 = 0x000F#16 then .softReset
  else .illegal w

/-- The reasons a string of characters is no wire request, one for each part of the table's pattern. -/
inductive DecodeError where
  /-- The string has not 20 characters. -/
  | frameLength (n : Nat)
  /-- Offset 0 is not `~`. -/
  | soi
  /-- Offset 19 is not CR. -/
  | eoi
  /-- VER, CID1 and CID2 are those of no CommandKind. -/
  | command
  /-- LENGTH is not "E002". -/
  | lengthField
  /-- ADR is not two hex digits of a byte from 0x02 up. -/
  | adr
  /-- INFO does not repeat ADR. -/
  | info
  /-- CHECKSUM is not the checksum of offsets 1 to 14. -/
  | checksum
  deriving DecidableEq, Repr

/-- The byte that two hex digits spell. -/
def hexByte (s : List Byte) : Option Byte :=
  (hexval s).map (BitVec.ofNat 8)

/-- The kind whose requests carry this VER and these CID characters (R107, R108). -/
def kindOfHeader (cids : PerKind CidPair) (ver cid : List Byte) : Option Kind :=
  Kind.all.find? fun k => requestVer k == ver && cidChars (cids.get k) == cid

/-- No two kinds share VER, CID1 and CID2, so that a request says which kind it is of. -/
def cidsDistinct (cids : PerKind CidPair) : Bool :=
  Kind.all.all fun j => Kind.all.all fun k =>
    j == k || requestVer j != requestVer k || cids.get j != cids.get k

/-- The wire request that a string of characters is (the table's WIRE_REQUEST rows; R104–R110), field by field. -/
def decodeWire (cids : PerKind CidPair) (f : List Byte) : Except DecodeError Instr :=
  if f.length ≠ 20 then .error (.frameLength f.length)
  else if slice f 0 1 ≠ [soi] then .error .soi
  else if slice f 19 1 ≠ [cr] then .error .eoi
  else if slice f 9 4 ≠ [0x45#8, 0x30#8, 0x30#8, 0x32#8] then .error .lengthField
  else if slice f 13 2 ≠ slice f 3 2 then .error .info
  else if slice f 15 4 ≠ fmt4 (checksum (slice f 1 14)) then .error .checksum
  else
    match kindOfHeader cids (slice f 1 2) (slice f 5 4), hexByte (slice f 3 2) with
    | none, _ => .error .command
    | some _, none => .error .adr
    | some k, some adr => if adr.toNat < 2 then .error .adr else .ok (requestInstr k (adr - 1#8))

/-- What an instruction is encoded as. -/
inductive Encoded where
  /-- A command word (R100). -/
  | command (w : Word16)
  /-- A string of wire characters (R104). -/
  | wire (f : List Byte)
  deriving DecidableEq, Repr

/-- The instruction that an encoding stands for. -/
def decode (cids : PerKind CidPair) (e : Encoded) : Except DecodeError Instr :=
  match e with
  | .command w => .ok (decodeWord w)
  | .wire f => decodeWire cids f

/-- OP, KIND and ARG laid out as R100 lays them out. -/
def commandWord (op : BitVec 4) (kind : BitVec 3) (arg : Byte) : Word16 :=
  arg ++ (0#1 ++ (kind ++ op))

/-- The BUILD word of kind `k` and address `a` (R117). -/
def buildWord (k : Kind) (a : Byte) : Word16 :=
  commandWord 0x1 k.number a

/-- The words of an instruction (R100, R101, R117), or the characters of a wire request (R104). -/
def encode (cids : PerKind CidPair) (i : Instr) : Encoded :=
  match i with
  | .build k a => .command (buildWord k a)
  | .rxReset => .command (commandWord 0x2 0 0)
  | .rxByte b => .command (commandWord 0x3 0 b)
  | .rxTimeout => .command (commandWord 0x4 0 0)
  | .validate k => .command (commandWord 0x5 k.number 0)
  | .decodeSerialNumber => .command (commandWord 0x6 0 0)
  | .decodeManufacturerInfo => .command (commandWord 0x6 1 0)
  | .decodeProtocolVersion => .command (commandWord 0x6 2 0)
  | .decodeSoftwareVersion => .command (commandWord 0x6 3 0)
  | .decodeSystemParameters => .command (commandWord 0x6 4 0)
  | .decodeAlarmInfo => .command (commandWord 0x6 5 0)
  | .decodeChargeManagementInfo => .command (commandWord 0x6 6 0)
  | .decodeAnalogValue => .command (commandWord 0x6 7 0)
  | .softReset => .command (commandWord 0xF 0 0)
  | .illegal w => .command w
  | .requestSerialNumber a => .wire (requestFrame cids .serialNumber a)
  | .requestManufacturerInfo a => .wire (requestFrame cids .manufacturerInfo a)
  | .requestProtocolVersion a => .wire (requestFrame cids .protocolVersion a)
  | .requestSoftwareVersion a => .wire (requestFrame cids .softwareVersion a)
  | .requestSystemParameters a => .wire (requestFrame cids .systemParameters a)
  | .requestAlarmInfo a => .wire (requestFrame cids .alarmInfo a)
  | .requestChargeManagementInfo a => .wire (requestFrame cids .chargeManagementInfo a)
  | .requestAnalogValue a => .wire (requestFrame cids .analogValue a)

/-- The command word by which an instruction reaches the block. A wire request reaches it only as the BUILD command
that produces it ("produced by BUILD with KIND = k", spec/opcode_table.json; log entry 2). -/
def wordOf (i : Instr) : Word16 :=
  match i with
  | .build k a => buildWord k a
  | .rxReset => 0x0002#16
  | .rxByte b => commandWord 0x3 0 b
  | .rxTimeout => 0x0004#16
  | .validate k => commandWord 0x5 k.number 0
  | .decodeSerialNumber => 0x0006#16
  | .decodeManufacturerInfo => 0x0016#16
  | .decodeProtocolVersion => 0x0026#16
  | .decodeSoftwareVersion => 0x0036#16
  | .decodeSystemParameters => 0x0046#16
  | .decodeAlarmInfo => 0x0056#16
  | .decodeChargeManagementInfo => 0x0066#16
  | .decodeAnalogValue => 0x0076#16
  | .softReset => 0x000F#16
  | .illegal w => w
  | .requestSerialNumber a => buildWord .serialNumber a
  | .requestManufacturerInfo a => buildWord .manufacturerInfo a
  | .requestProtocolVersion a => buildWord .protocolVersion a
  | .requestSoftwareVersion a => buildWord .softwareVersion a
  | .requestSystemParameters a => buildWord .systemParameters a
  | .requestAlarmInfo a => buildWord .alarmInfo a
  | .requestChargeManagementInfo a => buildWord .chargeManagementInfo a
  | .requestAnalogValue a => buildWord .analogValue a

/-- The CID table that spec/opcode_table.json's WIRE_REQUEST rows spell out: SerialNumber and AlarmInfo from the source,
the other six rows the spec's general-knowledge defaults (R107, D7; log entry 3). -/
def cidTableDefault : PerKind CidPair where
  serialNumber := ⟨0x46#8, 0x93#8⟩
  manufacturerInfo := ⟨0x46#8, 0x51#8⟩
  protocolVersion := ⟨0x46#8, 0x4F#8⟩
  softwareVersion := ⟨0x46#8, 0x96#8⟩
  systemParameters := ⟨0x46#8, 0x47#8⟩
  alarmInfo := ⟨0x46#8, 0x44#8⟩
  chargeManagementInfo := ⟨0x46#8, 0x92#8⟩
  analogValue := ⟨0x46#8, 0x42#8⟩

/-- The 20 characters of a 160-bit number, the first character in the least significant byte. -/
def wireChars (w : Nat) : List Byte :=
  (List.range 20).map fun i => BitVec.ofNat 8 (w >>> (8 * i))

/-- The instruction the decoder reads from an instruction's bits, numbered as spec/opcode_table.json numbers them:
16 bits are a command word, 160 bits the 20 characters of a wire request. -/
def decodeTableWord (nbits w : Nat) : Option Instr :=
  if nbits ≤ 16 then
    if w < 2 ^ 16 then some (decodeWord (BitVec.ofNat 16 w)) else none
  else if nbits ≤ 160 ∧ w < 2 ^ 160 then
    match decode cidTableDefault (.wire (wireChars w)) with
    | .ok i => some i
    | .error _ => none
  else none

end Sys2Proof
end

