-- ==== Sys2Proof/Machine/Parameters.lean ====
section
/-! DEFINITION. The default values of the parameters (00_scope.md R7; 92_eei_decisions.md D6–D11, D21, D24). The spec calls
most of them OPEN; log entry 3 says which. Nothing but `State.reset` uses them: every meaning reads `State.params`. -/

namespace Sys2Proof

/-- MINLEN: the values the spec's test vectors use (D8). -/
def minLenDefault : PerKind Word16 where
  serialNumber := 52
  manufacturerInfo := 82
  protocolVersion := 18
  softwareVersion := 30
  systemParameters := 64
  alarmInfo := 82
  chargeManagementInfo := 38
  analogValue := 124

/-- RTN_KNOWN: "01" to "06", "90" and "91" (D9). -/
def rtnKnownDefault : List ReturnCode :=
  [⟨0x30#8, 0x31#8⟩, ⟨0x30#8, 0x32#8⟩, ⟨0x30#8, 0x33#8⟩, ⟨0x30#8, 0x34#8⟩, ⟨0x30#8, 0x35#8⟩, ⟨0x30#8, 0x36#8⟩,
    ⟨0x39#8, 0x30#8⟩, ⟨0x39#8, 0x31#8⟩]

/-- The parameters at their defaults (R7). -/
def paramsDefault : Params where
  rxMax := 256
  addrMin := 1
  addrMax := 6
  cidTable := cidTableDefault
  minLen := minLenDefault
  rtnKnown := rtnKnownDefault
  snChars := 32
  tempBase := 81

end Sys2Proof
end

