-- ==== Sys2Proof/Machine/State.lean ====
section
/-! DEFINITION. The state of the block (10_state.md R32–R53), with the parameters it was built with (R7, R363) and the
command words the host has yet to have executed (R3, R89), and its value at reset (70_reset_and_hazards.md R360). -/

namespace Sys2Proof.Machine

/-- One of the two addressable spaces (20_memory.md R80): the bytes of a buffer by index, listed where they are not
0x00, the reset contents (R32). Canonical form: `Memory.wf`. -/
abbrev Memory := List Host.Cell

/-- The canonical form: indices strictly rising and no listed byte 0x00, which is what an unlisted index reads as. -/
abbrev Memory.wf (m : Memory) : Prop :=
  m.Pairwise (fun c d => c.1 < d.1) ∧ ∀ c ∈ m, c.2 ≠ 0#8

/-- The SerialNumber registers (R46): `SN_BYTE[0..SN_CHARS/2-1]`. -/
structure SerialNumberGroup where
  snByte : List Byte
  deriving DecidableEq, Repr

/-- The ManufacturerInfo registers (R47). -/
structure ManufacturerInfoGroup where
  miType : Vector Byte 10
  miFwMajor : Byte
  miFwMinor : Byte
  miManuf : Vector Byte 20
  deriving DecidableEq, Repr

/-- The ProtocolVersion registers (R48). -/
structure ProtocolVersionGroup where
  pvMajor : BitVec 4
  pvMinor : BitVec 4
  deriving DecidableEq, Repr

/-- The SoftwareVersion registers (R49). -/
structure SoftwareVersionGroup where
  swMfgA : Byte
  swMfgB : Byte
  swMlA : Byte
  swMlB : Byte
  swMlC : Byte
  deriving DecidableEq, Repr

/-- The SystemParameters registers (R50). -/
structure SystemParametersGroup where
  spRaw : Vector Word16 11
  deriving DecidableEq, Repr

/-- The AlarmInfo registers (R51); AL_OK is one bit, true for 1. -/
structure AlarmInfoGroup where
  alCellCount : Byte
  alOk : Bool
  deriving DecidableEq, Repr

/-- The ChargeManagementInfo registers (R52). -/
structure ChargeManagementInfoGroup where
  cmVlim1 : Word16
  cmVlim2 : Word16
  cmIchg : Word16
  cmIdis : Word16
  cmStatus : Byte
  deriving DecidableEq, Repr

/-- The AnalogValue registers (R53). -/
structure AnalogValueGroup where
  avCellCount : Byte
  avNCells : BitVec 4
  avCell : Vector Word16 15
  avTemp : Vector Word16 5
  avCurrent : Word16
  avPackV : Word16
  avUdi : Byte
  avRemCap : Word24
  avTotCap : Word24
  deriving DecidableEq, Repr

/-- The whole state. All of it but the first two fields is the table of R32. -/
structure State where
  /-- The parameters of R7; no instruction writes them (R363). -/
  params : Params
  /-- The command words the host has written and the block has not executed, oldest first (R3, R89; log entry 5). -/
  cmdIn : List Word16
  /-- `TXBUF[0..19]` (R33). -/
  txbuf : Memory
  /-- `TX_LEN` (R34). -/
  txLen : Byte
  /-- `TX_CHK` (R35). -/
  txChk : Word16
  /-- `RXBUF[0..RX_MAX-1]` (R36). -/
  rxbuf : Memory
  /-- `RX_LEN` (R37). -/
  rxLen : Word16
  /-- `RXSTAT`: DONE, TIMEOUT, OVERFLOW (R38). -/
  rxstat : Byte
  /-- `STATUS`: CODE and AUX (R40). -/
  status : Word32
  /-- `RTN` (R42). -/
  rtn : Word16
  /-- `VALSTAT`: OK, CHK_VALID, CHK_MATCH, KIND (R43). -/
  valstat : Byte
  /-- `RX_CHK` (R44). -/
  rxChk : Word16
  /-- `DEC_VALID`: one bit per CommandKind (R45). -/
  decValid : Byte
  /-- The field registers of SerialNumber (R46). -/
  serialNumber : SerialNumberGroup
  /-- The field registers of ManufacturerInfo (R47). -/
  manufacturerInfo : ManufacturerInfoGroup
  /-- The field registers of ProtocolVersion (R48). -/
  protocolVersion : ProtocolVersionGroup
  /-- The field registers of SoftwareVersion (R49). -/
  softwareVersion : SoftwareVersionGroup
  /-- The field registers of SystemParameters (R50). -/
  systemParameters : SystemParametersGroup
  /-- The field registers of AlarmInfo (R51). -/
  alarmInfo : AlarmInfoGroup
  /-- The field registers of ChargeManagementInfo (R52). -/
  chargeManagementInfo : ChargeManagementInfoGroup
  /-- The field registers of AnalogValue (R53). -/
  analogValue : AnalogValueGroup
  deriving DecidableEq, Repr

/-- The reasons a step stops with a fault. -/
inductive Fault where
  /-- `RXBUF[index]` does not exist, since RX_MAX ≤ index (R80). Raised by RX_BYTE, VALIDATE and DECODE only in a state
  with RX_LEN > RX_MAX, which no run reaches (R37). Safe: the model stops where the spec describes no such access. -/
  | rxbufElement (index : Nat)
  deriving DecidableEq, Repr

/-- The reasons a step is refused. -/
inductive Refusal where
  /-- The instruction has no meaning in the model. Raised by no arm of `exec`: every instruction has its meaning. Safe. -/
  | notModelled (mnemonic : String)
  deriving DecidableEq, Repr

/-- Every register and buffer element at its reset value, for the parameters `p` (R32, R360). -/
def State.resetWith (p : Params) : State where
  params := p
  cmdIn := []
  txbuf := []
  txLen := 0
  txChk := 0
  rxbuf := []
  rxLen := 0
  rxstat := 0
  status := 0
  rtn := 0
  valstat := 0
  rxChk := 0
  decValid := 0
  serialNumber := { snByte := List.replicate (p.snChars / 2) 0 }
  manufacturerInfo := { miType := Vector.replicate 10 0, miFwMajor := 0, miFwMinor := 0, miManuf := Vector.replicate 20 0 }
  protocolVersion := { pvMajor := 0, pvMinor := 0 }
  softwareVersion := { swMfgA := 0, swMfgB := 0, swMlA := 0, swMlB := 0, swMlC := 0 }
  systemParameters := { spRaw := Vector.replicate 11 0 }
  alarmInfo := { alCellCount := 0, alOk := false }
  chargeManagementInfo := { cmVlim1 := 0, cmVlim2 := 0, cmIchg := 0, cmIdis := 0, cmStatus := 0 }
  analogValue :=
    { avCellCount := 0, avNCells := 0, avCell := Vector.replicate 15 0, avTemp := Vector.replicate 5 0,
      avCurrent := 0, avPackV := 0, avUdi := 0, avRemCap := 0, avTotCap := 0 }

/-- The block right after power-on reset (R360), at the default parameters (log entry 3), no command pending. -/
def State.reset : State :=
  State.resetWith paramsDefault

end Sys2Proof.Machine
end

