-- ==== Sys2Proof/Machine/Flags.lean ====
section
/-! DEFINITION. The fields of RXSTAT, STATUS, VALSTAT and DEC_VALID (10_state.md R38, R40, R41, R43, R45): reading them and
writing them. -/

namespace Sys2Proof.Machine

/-- The values of STATUS.CODE (R41). 0xE and 0xF are reserved and never written. -/
inductive StatusCode where
  | none
  | ok
  | malformed
  | tooShort
  | deviceReported
  | unknownData
  | readTimeout
  | unsupportedVariant
  | invalidAddress
  | rxOverflow
  | decodeOverrun
  | badHexDigit
  | notValidated
  | illegalCommand
  deriving DecidableEq, Repr

/-- The number of a status code (R41). -/
def codeBits (c : StatusCode) : BitVec 4 :=
  match c with
  | .none => 0x0
  | .ok => 0x1
  | .malformed => 0x2
  | .tooShort => 0x3
  | .deviceReported => 0x4
  | .unknownData => 0x5
  | .readTimeout => 0x6
  | .unsupportedVariant => 0x7
  | .invalidAddress => 0x8
  | .rxOverflow => 0x9
  | .decodeOverrun => 0xA
  | .badHexDigit => 0xB
  | .notValidated => 0xC
  | .illegalCommand => 0xD

/-- STATUS with AUX in bits 31:16, CODE in bits 3:0 and the reserved bits 15:4 at 0 (R40). -/
def statusWord (c : StatusCode) (aux : Word16) : Word32 :=
  aux ++ (0#12 ++ codeBits c)

/-- STATUS.CODE (R40). -/
def State.code (s : State) : BitVec 4 :=
  s.status.extractLsb' 0 4

/-- STATUS.AUX (R40). -/
def State.aux (s : State) : Word16 :=
  s.status.extractLsb' 16 16

/-- RXSTAT.DONE (R38). -/
def State.rxDone (s : State) : Bool :=
  s.rxstat.getLsbD 0

/-- RXSTAT.TIMEOUT (R38). -/
def State.rxTimedOut (s : State) : Bool :=
  s.rxstat.getLsbD 1

/-- RXSTAT.OVERFLOW (R38). -/
def State.rxOverflowed (s : State) : Bool :=
  s.rxstat.getLsbD 2

/-- The accumulator is frozen: one of DONE, TIMEOUT and OVERFLOW is 1 (R286). -/
def State.frozen (s : State) : Bool :=
  s.rxDone || s.rxTimedOut || s.rxOverflowed

/-- RXSTAT with DONE set (R38). -/
def setDone (v : Byte) : Byte :=
  v ||| 0x01#8

/-- RXSTAT with TIMEOUT set (R38). -/
def setTimeout (v : Byte) : Byte :=
  v ||| 0x02#8

/-- RXSTAT with OVERFLOW set (R38). -/
def setOverflow (v : Byte) : Byte :=
  v ||| 0x04#8

/-- VALSTAT.OK (R43). -/
def State.valOk (s : State) : Bool :=
  s.valstat.getLsbD 0

/-- VALSTAT.CHK_VALID (R43). -/
def State.chkValid (s : State) : Bool :=
  s.valstat.getLsbD 1

/-- VALSTAT.CHK_MATCH (R43). -/
def State.chkMatch (s : State) : Bool :=
  s.valstat.getLsbD 2

/-- VALSTAT.KIND (R43). -/
def State.valKind (s : State) : BitVec 3 :=
  s.valstat.extractLsb' 4 3

/-- VALSTAT from its four fields, the reserved bits 3 and 7 at 0 (R43). -/
def valstatWord (ok chkValid chkMatch : Bool) (kind : BitVec 3) : Byte :=
  0#1 ++ (kind ++ (0#1 ++ (BitVec.ofBool chkMatch ++ (BitVec.ofBool chkValid ++ BitVec.ofBool ok))))

/-- DEC_VALID[k] (R45). -/
def State.decoded (s : State) (k : Kind) : Bool :=
  s.decValid.getLsbD k.number.toNat

/-- The mask of kind `k` in DEC_VALID (R45). -/
def kindBit (k : Kind) : Byte :=
  1#8 <<< k.number.toNat

/-- DEC_VALID with the bit of kind `k` set, the others unchanged (R45). -/
def setDecoded (v : Byte) (k : Kind) : Byte :=
  v ||| kindBit k

/-- DEC_VALID with the bit of kind `k` cleared, the others unchanged (R45). -/
def clearDecoded (v : Byte) (k : Kind) : Byte :=
  v &&& ~~~(kindBit k)

end Sys2Proof.Machine
end

