-- ==== Sys2Proof/Machine/Ops.lean ====
section
/-! DEFINITION. The operations the meanings share: the two buffers (20_memory.md R80, R81), ending a command with `ok` or
`raise` (00_scope.md R10, 60_exceptions.md R310), and taking the next command word (R3, R89). -/

namespace Sys2Proof.Machine

/-- A step's outcome on this machine. -/
abbrev Outcome := Host.Outcome State Fault Refusal

/-- The byte at an index; an unlisted one reads 0x00 (R32, R360). -/
def Memory.read : Memory → Nat → Byte
  | [], _ => 0#8
  | (j, v) :: m, i => if i = j then v else Memory.read m i

/-- The buffer with one byte written, in canonical form again. -/
def Memory.write : Memory → Nat → Byte → Memory
  | [], i, b => if b = 0#8 then [] else [(i, b)]
  | (j, v) :: m, i, b =>
    if i < j then (if b = 0#8 then (j, v) :: m else (i, b) :: (j, v) :: m)
    else if i = j then (if b = 0#8 then m else (i, b) :: m)
    else (j, v) :: Memory.write m i b

/-- The buffer with the characters of a string written from an index up (R82, R83: index order). -/
def Memory.writeString (m : Memory) (i : Nat) : List Byte → Memory
  | [] => m
  | b :: bs => Memory.writeString (m.write i b) (i + 1) bs

/-- The `w` characters from an index up. -/
def Memory.readString (m : Memory) (i w : Nat) : List Byte :=
  (List.range w).map fun j => m.read (i + j)

/-- The accumulated response `RXBUF[0..RX_LEN-1]`, which is `raw` of R180. -/
def State.rxFrame (s : State) : List Byte :=
  s.rxbuf.readString 0 s.rxLen.toNat

/-- `TXBUF[0..19]` (R33). -/
def State.txFrame (s : State) : List Byte :=
  s.txbuf.readString 0 20

/-- The first element of `RXBUF[0..RX_LEN-1]` that does not exist, if there is one (R80). -/
def State.missingElement (s : State) : Option Nat :=
  if s.rxLen.toNat ≤ s.params.rxMax.toNat then none else some s.params.rxMax.toNat

/-- Go on with `k` if every element of `RXBUF[0..RX_LEN-1]` exists, as it does in every state a run reaches (R37);
fault otherwise. -/
def withRxFrame (s : State) (k : Outcome) : Outcome :=
  match s.missingElement with
  | none => k
  | some i => .fault (.rxbufElement i)

/-- `raise CODE(aux)`: the command ends, STATUS records the failure, and nothing else is written (R10, R310, R315). There
is no vector, no saved register and no return (R315, R316). -/
def raise (c : StatusCode) (aux : Word16) (s : State) : Outcome :=
  .next { s with status := statusWord c aux }

/-- `ok`: the command ends with STATUS.CODE = OK and STATUS.AUX = 0 (R10). -/
def ok (s : State) : Outcome :=
  .next { s with status := statusWord .ok 0 }

/-- The next command word, in the order the host issued them, and the state with that word taken (R3, R89). -/
def fetch (s : State) : Option (Word16 × State) :=
  match s.cmdIn with
  | [] => none
  | w :: ws => some (w, { s with cmdIn := ws })

/-- The state with a command word placed where the block takes its next command. -/
def placeCommand (s : State) (w : Word16) : State :=
  { s with cmdIn := w :: s.cmdIn }

end Sys2Proof.Machine
end

