-- ==== Sys2Proof/Machine/Build.lean ====
section
/-! DEFINITION. Request framing: BUILD (41_build.md R160–R163). -/

namespace Sys2Proof.Machine

/-- The addresses BUILD supports (R109, R160). -/
def addressSupported (p : Params) (a : Byte) : Bool :=
  p.addrMin.toNat ≤ a.toNat && a.toNat ≤ p.addrMax.toNat

/-- Build the request frame of kind `k` for address `a` into TXBUF (R160). -/
def buildRequest (k : Kind) (a : Byte) (s : State) : Outcome :=
  if addressSupported s.params a then
    ok { s with
      txbuf := s.txbuf.writeString 0 (requestFrame s.params.cidTable k a)
      txLen := 20
      txChk := requestChecksum s.params.cidTable k a }
  else raise .invalidAddress (a.setWidth 16) { s with txLen := 0 }

/-- BUILD k, a (R160). -/
def execBuild (k : Kind) (a : Byte) (s : State) : Outcome :=
  buildRequest k a s

end Sys2Proof.Machine
end

