-- ==== Sys2Proof/Machine/Control.lean ====
section
/-! DEFINITION. Control commands: SOFT_RESET and illegal words (45_control.md R300, R301). -/

namespace Sys2Proof.Machine

/-- SOFT_RESET: every register and buffer element of R32 takes its reset value; the parameters are not state and do not
change, and words the host has yet to issue are not the block's (R300, R360). -/
def execSoftReset (s : State) : Outcome :=
  .next { State.resetWith s.params with cmdIn := s.cmdIn }

/-- An illegal word: ILLEGAL_COMMAND(w) is raised and STATUS is the only write (R301). -/
def execIllegal (w : Word16) (s : State) : Outcome :=
  raise .illegalCommand w s

end Sys2Proof.Machine
end

