-- ==== Sys2Proof/Machine/Operands.lean ====
section
/-! DEFINITION. Operand assembly for payload fields (30_encoding.md R111, 43_decode.md R212–R215): hex integers, byte
strings and zero runs at fixed offsets of RXBUF, each with the failures the spec gives it. -/

namespace Sys2Proof.Machine

/-- A failure on its way to STATUS: CODE and AUX (R10). -/
structure Raised where
  code : StatusCode
  aux : Word16
  deriving DecidableEq, Repr

/-- `MemRead(RXBUF, off, w)`: defined only when off + w ≤ RX_LEN (R10, R81). -/
def memRead (s : State) (off w : Nat) : Option (List Byte) :=
  if off + w ≤ s.rxLen.toNat then some (s.rxbuf.readString off w) else none

/-- The value of the `w` hex digits at `off`, none if the field is not all there or holds another character. -/
def hexField (s : State) (off w : Nat) : Option Nat :=
  (memRead s off w).bind hexval

/-- DECODE_OVERRUN with the field's start offset (R212–R214). -/
def overrun (off : Nat) : Raised :=
  ⟨.decodeOverrun, BitVec.ofNat 16 off⟩

/-- The digits of a hex field, at ascending offsets from `off`, after a value `acc`; the first character that is no hex
digit raises BAD_HEX_DIGIT with its offset (R212, R215). -/
def readDigits (off : Nat) (acc : Nat) : List Byte → Except Raised Nat
  | [] => .ok acc
  | c :: cs =>
    match hexdig c with
    | some d => readDigits (off + 1) (acc * 16 + d) cs
    | none => .error ⟨.badHexDigit, BitVec.ofNat 16 off⟩

/-- `readHex(off, w)` (R212). -/
def readHex (s : State) (off w : Nat) : Except Raised Nat :=
  match memRead s off w with
  | none => .error (overrun off)
  | some t => readDigits off 0 t

/-- A hex field zero-extended to a register of `n` bits (R111). -/
def readReg (n : Nat) (s : State) (off w : Nat) : Except Raised (BitVec n) :=
  (readHex s off w).map (BitVec.ofNat n)

/-- The elements 0 to n-1 read in ascending order; the first failure is the result (R215). -/
def readVec {α : Type} : (n : Nat) → (Nat → Except Raised α) → Except Raised (Vector α n)
  | 0, _ => .ok #v[]
  | n + 1, r =>
    match readVec n r with
    | .error e => .error e
    | .ok v =>
      match r n with
      | .error e => .error e
      | .ok x => .ok (v.push x)

/-- `readBytes(off, n)`: the whole field is checked first, then each byte is read (R213). -/
def readBytes (s : State) (off n : Nat) : Except Raised (Vector Byte n) :=
  match memRead s off (2 * n) with
  | none => .error (overrun off)
  | some _ => readVec n fun j => readReg 8 s (off + 2 * j) 2

/-- `zeroRun(off, w)`: whether every character is `0`; a character that is no hex digit only makes it false (R214). -/
def zeroRun (s : State) (off w : Nat) : Except Raised Bool :=
  match memRead s off w with
  | none => .error (overrun off)
  | some t => .ok (t.all (· == zeroChar))

end Sys2Proof.Machine
end

