-- ==== Sys2Proof/Machine/DecodeFields.lean ====
section
/-! DEFINITION. Payload field decoding: DECODE of the eight kinds (43_decode.md R210–R227). Each `read…` is the rows of
R211's offset table for one kind, in evaluation order (R215), into a temporary copy of the kind's registers. -/

namespace Sys2Proof.Machine

/-- DECODE of kind `k` (R210): NOT_VALIDATED unless an OK validation of that kind stands; then the fields are read; a
failure clears DEC_VALID[k] and keeps every field register; success writes the group and sets DEC_VALID[k]. -/
def decodeGroup {α : Type} (k : Kind) (read : State → Except Raised α) (commit : α → State → State) (s : State) : Outcome :=
  let failed := { s with decValid := clearDecoded s.decValid k }
  if !s.valOk || s.valKind != k.number then raise .notValidated 0 failed
  else
    withRxFrame s
      (match read s with
      | .error e => raise e.code e.aux failed
      | .ok t => ok { commit t s with decValid := setDecoded s.decValid k })

/-- SerialNumber: SN_CHARS/2 bytes at 15 (R220). -/
def readSerialNumber (s : State) : Except Raised SerialNumberGroup := do
  let b ← readBytes s 15 (s.params.snChars / 2)
  return { snByte := b.toList }

/-- ManufacturerInfo (R221). -/
def readManufacturerInfo (s : State) : Except Raised ManufacturerInfoGroup := do
  let miType ← readBytes s 13 10
  let miFwMajor ← readReg 8 s 33 2
  let miFwMinor ← readReg 8 s 35 2
  let miManuf ← readBytes s 37 20
  return { miType, miFwMajor, miFwMinor, miManuf }

/-- ProtocolVersion: the two characters of VER (R222). -/
def readProtocolVersion (s : State) : Except Raised ProtocolVersionGroup := do
  let pvMajor ← readReg 4 s 1 1
  let pvMinor ← readReg 4 s 2 1
  return { pvMajor, pvMinor }

/-- SoftwareVersion (R223). -/
def readSoftwareVersion (s : State) : Except Raised SoftwareVersionGroup := do
  let swMfgA ← readReg 8 s 15 2
  let swMfgB ← readReg 8 s 17 2
  let swMlA ← readReg 8 s 19 2
  let swMlB ← readReg 8 s 21 2
  let swMlC ← readReg 8 s 23 2
  return { swMfgA, swMfgB, swMlA, swMlB, swMlC }

/-- SystemParameters: eleven 4-digit fields from 15 at stride 4 (R224). -/
def readSystemParameters (s : State) : Except Raised SystemParametersGroup := do
  let spRaw ← readVec 11 fun i => readReg 16 s (15 + 4 * i) 4
  return { spRaw }

/-- AlarmInfo: the cell count, and whether all four ranges are zero runs (R225; conflict C4). -/
def readAlarmInfo (s : State) : Except Raised AlarmInfoGroup := do
  let alCellCount ← readReg 8 s 17 2
  let z1 ← zeroRun s 19 30
  let z2 ← zeroRun s 51 10
  let z3 ← zeroRun s 67 2
  let z4 ← zeroRun s 73 4
  return { alCellCount, alOk := z1 && z2 && z3 && z4 }

/-- ChargeManagementInfo (R226). -/
def readChargeManagementInfo (s : State) : Except Raised ChargeManagementInfoGroup := do
  let cmVlim1 ← readReg 16 s 15 4
  let cmVlim2 ← readReg 16 s 19 4
  let cmIchg ← readReg 16 s 23 4
  let cmIdis ← readReg 16 s 27 4
  let cmStatus ← readReg 8 s 31 2
  return { cmVlim1, cmVlim2, cmIchg, cmIdis, cmStatus }

/-- AV_NCELLS: min(AV_CELLCOUNT, 15) (R53, R227). -/
def cellsDecoded (cellCount : Byte) : Nat :=
  min cellCount.toNat 15

/-- Cell `i` of an AnalogValue response of `n` cells: 4 digits at 19 + 4i, or 0 from the n-th on (R227, D23). -/
def readCell (s : State) (n i : Nat) : Except Raised Word16 :=
  if i < n then readReg 16 s (19 + 4 * i) 4 else .ok 0

/-- The two capacities that discriminator `udi` selects: 4 digits at 109 and 115, or 6 digits at 123 and 129; any other
value raises UNSUPPORTED_VARIANT (R115, R227). -/
def readCapacities (s : State) (udi : Byte) : Except Raised (Word24 × Word24) :=
  if udi = 2 then do
    let rem ← readReg 24 s 109 4
    let tot ← readReg 24 s 115 4
    return (rem, tot)
  else if udi = 4 then do
    let rem ← readReg 24 s 123 6
    let tot ← readReg 24 s 129 6
    return (rem, tot)
  else .error ⟨.unsupportedVariant, udi.setWidth 16⟩

/-- AnalogValue (R227). -/
def readAnalogValue (s : State) : Except Raised AnalogValueGroup := do
  let avCellCount ← readReg 8 s 17 2
  let n := cellsDecoded avCellCount
  let avCell ← readVec 15 (readCell s n)
  let avTemp ← readVec 5 fun j => readReg 16 s (s.params.tempBase + 4 * j) 4
  let avCurrent ← readReg 16 s 101 4
  let avPackV ← readReg 16 s 105 4
  let avUdi ← readReg 8 s 113 2
  let caps ← readCapacities s avUdi
  return { avCellCount, avNCells := BitVec.ofNat 4 n, avCell, avTemp, avCurrent, avPackV, avUdi,
           avRemCap := caps.1, avTotCap := caps.2 }

/-- DECODE SerialNumber (R220). -/
def execDecodeSerialNumber (s : State) : Outcome :=
  decodeGroup .serialNumber readSerialNumber (fun t s => { s with serialNumber := t }) s

/-- DECODE ManufacturerInfo (R221). -/
def execDecodeManufacturerInfo (s : State) : Outcome :=
  decodeGroup .manufacturerInfo readManufacturerInfo (fun t s => { s with manufacturerInfo := t }) s

/-- DECODE ProtocolVersion (R222). -/
def execDecodeProtocolVersion (s : State) : Outcome :=
  decodeGroup .protocolVersion readProtocolVersion (fun t s => { s with protocolVersion := t }) s

/-- DECODE SoftwareVersion (R223). -/
def execDecodeSoftwareVersion (s : State) : Outcome :=
  decodeGroup .softwareVersion readSoftwareVersion (fun t s => { s with softwareVersion := t }) s

/-- DECODE SystemParameters (R224). -/
def execDecodeSystemParameters (s : State) : Outcome :=
  decodeGroup .systemParameters readSystemParameters (fun t s => { s with systemParameters := t }) s

/-- DECODE AlarmInfo (R225). -/
def execDecodeAlarmInfo (s : State) : Outcome :=
  decodeGroup .alarmInfo readAlarmInfo (fun t s => { s with alarmInfo := t }) s

/-- DECODE ChargeManagementInfo (R226). -/
def execDecodeChargeManagementInfo (s : State) : Outcome :=
  decodeGroup .chargeManagementInfo readChargeManagementInfo (fun t s => { s with chargeManagementInfo := t }) s

/-- DECODE AnalogValue (R227). -/
def execDecodeAnalogValue (s : State) : Outcome :=
  decodeGroup .analogValue readAnalogValue (fun t s => { s with analogValue := t }) s

end Sys2Proof.Machine
end

