-- ==== Sys2Proof/Machine/Receive.lean ====
section
/-! DEFINITION. Response reception: RX_RESET, RX_BYTE and RX_TIMEOUT (44_receive.md R280–R287). -/

namespace Sys2Proof.Machine

/-- RX_RESET: the accumulator is emptied, RXBUF's elements keep their values, STATUS.CODE becomes NONE (R280). -/
def execRxReset (s : State) : Outcome :=
  .next { s with rxLen := 0, rxstat := 0, valstat := 0, status := statusWord .none 0 }

/-- `RXBUF[RX_LEN] <- b`, RX_LEN one more, and DONE if `b` is CR (R281, R283). An index from RX_MAX up is no element of
RXBUF (R80). -/
def appendByte (b : Byte) (s : State) : Outcome :=
  if s.rxLen.toNat < s.params.rxMax.toNat then
    .next { s with
      rxbuf := s.rxbuf.write s.rxLen.toNat b
      rxLen := s.rxLen + 1
      rxstat := if b = cr then setDone s.rxstat else s.rxstat }
  else .fault (.rxbufElement s.rxLen.toNat)

/-- RX_BYTE b: ignored while frozen, discarded outside the alphabet, RX_OVERFLOW when the accumulator is full, appended
otherwise; STATUS is written on overflow only (R281–R284, R286). -/
def execRxByte (b : Byte) (s : State) : Outcome :=
  if s.frozen then .next s
  else if !inAlphabet b then .next s
  else if s.rxLen = s.params.rxMax then
    raise .rxOverflow (b.setWidth 16) { s with rxstat := setOverflow s.rxstat }
  else appendByte b s

/-- RX_TIMEOUT: TIMEOUT is set and READ_TIMEOUT raised, unless the read is already over (R285, R286). -/
def execRxTimeout (s : State) : Outcome :=
  if s.frozen then .next s
  else raise .readTimeout 0 { s with rxstat := setTimeout s.rxstat }

end Sys2Proof.Machine
end

