-- ==== Sys2Proof/Machine/Request.lean ====
section
/-! DEFINITION. The WIRE_REQUEST rows of spec/opcode_table.json: frames "produced by BUILD with KIND = k", with R160 as
their rule. Each one's meaning is the block producing that frame, which is R160's effect at that kind (log entry 2). -/

namespace Sys2Proof.Machine

/-- The SerialNumber request for address `a` is produced (R160, R163). -/
def execRequestSerialNumber (a : Byte) (s : State) : Outcome :=
  buildRequest .serialNumber a s

/-- The ManufacturerInfo request for address `a` is produced (R160, R163). -/
def execRequestManufacturerInfo (a : Byte) (s : State) : Outcome :=
  buildRequest .manufacturerInfo a s

/-- The ProtocolVersion request for address `a` is produced (R160, R163). -/
def execRequestProtocolVersion (a : Byte) (s : State) : Outcome :=
  buildRequest .protocolVersion a s

/-- The SoftwareVersion request for address `a` is produced (R160, R163). -/
def execRequestSoftwareVersion (a : Byte) (s : State) : Outcome :=
  buildRequest .softwareVersion a s

/-- The SystemParameters request for address `a` is produced (R160, R163). -/
def execRequestSystemParameters (a : Byte) (s : State) : Outcome :=
  buildRequest .systemParameters a s

/-- The AlarmInfo request for address `a` is produced (R160, R163). -/
def execRequestAlarmInfo (a : Byte) (s : State) : Outcome :=
  buildRequest .alarmInfo a s

/-- The ChargeManagementInfo request for address `a` is produced (R160, R163). -/
def execRequestChargeManagementInfo (a : Byte) (s : State) : Outcome :=
  buildRequest .chargeManagementInfo a s

/-- The AnalogValue request for address `a` is produced (R160, R163). -/
def execRequestAnalogValue (a : Byte) (s : State) : Outcome :=
  buildRequest .analogValue a s

end Sys2Proof.Machine
end

