-- ==== Sys2Proof/Machine/Validate.lean ====
section
/-! DEFINITION. Response validation: VALIDATE (42_validate.md R180–R187). `f` is the accumulated response, so that
`f.length` is the L of the rules. -/

namespace Sys2Proof.Machine

/-- `shape_ok`: starts with `~`, ends with CR, and holds only `~`, A–Z and 0–9 before the end (R181). -/
def shapeOk (f : List Byte) : Bool :=
  2 ≤ f.length && slice f 0 1 == [soi] && slice f (f.length - 1) 1 == [cr] && (f.take (f.length - 1)).all isShapeChar

/-- The input of the response checksum: `RXBUF[1..L-6]` (R143, R185). -/
def checkedChars (f : List Byte) : List Byte :=
  slice f 1 (f.length - 6)

/-- The CHECKSUM characters of the response: `RXBUF[L-5..L-2]` (R103, R185). -/
def checksumChars (f : List Byte) : List Byte :=
  slice f (f.length - 5) 4

/-- Whether the received CHECKSUM characters spell the computed checksum (R185). -/
def checksumMatches (f : List Byte) : Bool :=
  fmt4 (checksum (checkedChars f)) == checksumChars f

/-- The return code: the characters at offsets 7 and 8, there when L ≥ 10 (R183). -/
def returnCode (f : List Byte) : Option ReturnCode :=
  match slice f 7 2 with
  | [r0, r1] => if 10 ≤ f.length then some ⟨r0, r1⟩ else none
  | _ => none

/-- RTN as the register holds a return code: offset 7 in the high byte (R42, R183). -/
def rtnWord (r : ReturnCode) : Word16 :=
  r.first ++ r.second

/-- What every VALIDATE does first: VALSTAT, RTN and RX_CHK become 0 (R180). -/
def clearResults (s : State) : State :=
  { s with valstat := 0, rtn := 0, rxChk := 0 }

/-- The informational checksum, recorded when L ≥ 6 (R180, R185). -/
def recordChecksum (f : List Byte) (s : State) : State :=
  if 6 ≤ f.length then
    { s with rxChk := checksum (checkedChars f), valstat := valstatWord false true (checksumMatches f) 0 }
  else s

/-- Step 3: the return code is stored and classified (R180, R183, R184). OK and KIND join the fields of VALSTAT that the
checksum step left. -/
def classify (k : Kind) (r : ReturnCode) (s : State) : Outcome :=
  let s := { s with rtn := rtnWord r }
  if r = ReturnCode.normal then ok { s with valstat := valstatWord true s.chkValid s.chkMatch k.number }
  else if r ∈ s.params.rtnKnown then raise .deviceReported 0 s
  else raise .unknownData 0 s

/-- Steps 1 to 3, in that order (R180, R186). -/
def validateFrame (k : Kind) (f : List Byte) (s : State) : Outcome :=
  if !shapeOk f then raise .malformed 0 s
  else
    let s := recordChecksum f s
    if f.length < (s.params.minLen.get k).toNat then raise .tooShort (s.params.minLen.get k) s
    else
      match returnCode f with
      | none => raise .unknownData 0 s
      | some r => classify k r s

/-- VALIDATE k: the RX flags, then shape, length and return code (R180, R186). -/
def execValidate (k : Kind) (s : State) : Outcome :=
  let s := clearResults s
  if s.rxOverflowed then raise .rxOverflow 0 s
  else if s.rxTimedOut then raise .readTimeout 0 s
  else withRxFrame s (validateFrame k s.rxFrame s)

end Sys2Proof.Machine
end

