-- ==== Sys2Proof/Machine/Dispatch.lean ====
section
/-! DEFINITION. The meaning of every instruction, one arm each. -/

namespace Sys2Proof.Machine

def exec (i : Instr) (s : State) : Host.Outcome State Fault Refusal :=
  match i with
  | .build k a => Sys2Proof.Machine.execBuild k a s
  | .rxReset => Sys2Proof.Machine.execRxReset s
  | .rxByte b => Sys2Proof.Machine.execRxByte b s
  | .rxTimeout => Sys2Proof.Machine.execRxTimeout s
  | .validate k => Sys2Proof.Machine.execValidate k s
  | .decodeSerialNumber => Sys2Proof.Machine.execDecodeSerialNumber s
  | .decodeManufacturerInfo => Sys2Proof.Machine.execDecodeManufacturerInfo s
  | .decodeProtocolVersion => Sys2Proof.Machine.execDecodeProtocolVersion s
  | .decodeSoftwareVersion => Sys2Proof.Machine.execDecodeSoftwareVersion s
  | .decodeSystemParameters => Sys2Proof.Machine.execDecodeSystemParameters s
  | .decodeAlarmInfo => Sys2Proof.Machine.execDecodeAlarmInfo s
  | .decodeChargeManagementInfo => Sys2Proof.Machine.execDecodeChargeManagementInfo s
  | .decodeAnalogValue => Sys2Proof.Machine.execDecodeAnalogValue s
  | .softReset => Sys2Proof.Machine.execSoftReset s
  | .illegal w => Sys2Proof.Machine.execIllegal w s
  | .requestSerialNumber a => Sys2Proof.Machine.execRequestSerialNumber a s
  | .requestManufacturerInfo a => Sys2Proof.Machine.execRequestManufacturerInfo a s
  | .requestProtocolVersion a => Sys2Proof.Machine.execRequestProtocolVersion a s
  | .requestSoftwareVersion a => Sys2Proof.Machine.execRequestSoftwareVersion a s
  | .requestSystemParameters a => Sys2Proof.Machine.execRequestSystemParameters a s
  | .requestAlarmInfo a => Sys2Proof.Machine.execRequestAlarmInfo a s
  | .requestChargeManagementInfo a => Sys2Proof.Machine.execRequestChargeManagementInfo a s
  | .requestAnalogValue a => Sys2Proof.Machine.execRequestAnalogValue a s

end Sys2Proof.Machine
end

