-- ==== Sys2Proof/Machine/Step.lean ====
section
/-! DEFINITION. One step of the block: it takes the next command word the host wrote, decodes it and executes it, all at
once (00_scope.md R3, 20_memory.md R89); with none pending it is idle and holds its state (60_exceptions.md R323). -/

namespace Sys2Proof.Machine

/-- One step. -/
def step (s : State) : Host.Outcome State Fault Refusal :=
  match fetch s with
  | none => .next s
  | some (w, t) => exec (decodeWord w) t

/-- `s` with the instruction of opcode-table bits `w` placed where `step` takes its next command: a command word as it
is, a wire request as the BUILD command that produces it (log entries 2 and 5). -/
def State.withFetchWord (s : State) (nbits w : Nat) : State :=
  match decodeTableWord nbits w with
  | some i => placeCommand s (wordOf i)
  | none => s

end Sys2Proof.Machine
end

