-- ==== Sys2Proof/Machine/Interpret.lean ====
section
/-! DEFINITION. Interpretation of the raw field registers (43_decode.md R240–R253, R263): exact rationals (00_scope.md R11)
and their decimal rendering. Pure functions of registers; no instruction uses them. -/

namespace Sys2Proof.Machine

/-- `sext_16(v)`: a 16-bit value as two's complement (R10). -/
def sext16 (v : Word16) : Int :=
  if v.getLsbD 15 then (v.toNat : Int) - 65536 else (v.toNat : Int)

/-- Voltage in volts, 3 decimals (R240). -/
def volt (raw : Word16) : Rat :=
  (raw.toNat : Rat) / 1000

/-- Temperature in °C, 1 decimal; the subtraction is signed (R241). -/
def temperature (raw : Word16) : Rat :=
  (((raw.toNat : Int) - 2731 : Int) : Rat) / 10

/-- SystemParameters current in A, 3 decimals (R242). -/
def spCurrent (raw : Word16) : Rat :=
  (raw.toNat : Rat) * 100 / 1000

/-- SystemParameters discharge current limit in A, 3 decimals; the constant is 65535 (R243, conflict C6). -/
def spDischargeCurrent (raw : Word16) : Rat :=
  ((65535 - (raw.toNat : Int) : Int) : Rat) * 100 / 1000

/-- The scaling classes of SystemParameters fields (R244). -/
inductive SpClass where
  | volt
  | temp
  | curr
  | dcurr
  deriving DecidableEq, Repr

/-- The value of a SystemParameters raw of a class (R240–R244). -/
def spValue (c : SpClass) (raw : Word16) : Rat :=
  match c with
  | .volt => volt raw
  | .temp => temperature raw
  | .curr => spCurrent raw
  | .dcurr => spDischargeCurrent raw

/-- The decimals a class is rendered with (R240–R243). -/
def spDecimals (c : SpClass) : Nat :=
  match c with
  | .volt => 3
  | .temp => 1
  | .curr => 3
  | .dcurr => 3

/-- The values of the eleven SystemParameters fields under an assignment of classes. SP_CLASS is OPEN: it is an argument,
and no assignment is assumed (R244, D26). -/
def spValues (spClass : Fin 11 → SpClass) (g : SystemParametersGroup) : List Rat :=
  (List.finRange 11).map fun i => spValue (spClass i) g.spRaw[i]

/-- ChargeManagementInfo charge-current limit in A, 1 decimal (R245). -/
def cmChargeCurrent (raw : Word16) : Rat :=
  (raw.toNat : Rat) / 10

/-- ChargeManagementInfo discharge-current limit in A, 1 decimal; the constant is 65536 (R246, conflict C6). -/
def cmDischargeCurrent (raw : Word16) : Rat :=
  ((65536 - (raw.toNat : Int) : Int) : Rat) / 10

/-- CM_STATUS[7] (R52, R247). -/
def chargeEnable (g : ChargeManagementInfoGroup) : Bool :=
  g.cmStatus.getLsbD 7

/-- CM_STATUS[6] (R52, R247). -/
def dischargeEnable (g : ChargeManagementInfoGroup) : Bool :=
  g.cmStatus.getLsbD 6

/-- CM_STATUS[5] (R52, R247). -/
def chargeImmediateSOC5to9 (g : ChargeManagementInfoGroup) : Bool :=
  g.cmStatus.getLsbD 5

/-- CM_STATUS[4] (R52, R247). -/
def chargeImmediateSOC9to13 (g : ChargeManagementInfoGroup) : Bool :=
  g.cmStatus.getLsbD 4

/-- CM_STATUS[3] (R52, R247). -/
def chargeFullRequest (g : ChargeManagementInfoGroup) : Bool :=
  g.cmStatus.getLsbD 3

/-- Pack current in A, 1 decimal (R248). -/
def packCurrent (raw : Word16) : Rat :=
  (sext16 raw : Rat) / 10

/-- Remaining or total capacity, 3 decimals, for either layout (R249). -/
def capacity (raw : Word24) : Rat :=
  (raw.toNat : Rat) / 1000

/-- packVolt: AV_PACKV in volts (R240). -/
def packVolt (g : AnalogValueGroup) : Rat :=
  volt g.avPackV

/-- CM_VLIM1 in volts (R240). The source does not say which of the two limits is the charge limit (R52). -/
def voltageLimit1 (g : ChargeManagementInfoGroup) : Rat :=
  volt g.cmVlim1

/-- CM_VLIM2 in volts (R240). -/
def voltageLimit2 (g : ChargeManagementInfoGroup) : Rat :=
  volt g.cmVlim2

/-- The charge-current limit in A (R245). -/
def chargeCurrentLimit (g : ChargeManagementInfoGroup) : Rat :=
  cmChargeCurrent g.cmIchg

/-- The discharge-current limit in A (R246). -/
def dischargeCurrentLimit (g : ChargeManagementInfoGroup) : Rat :=
  cmDischargeCurrent g.cmIdis

/-- packCurrent: AV_CURRENT in A (R248). -/
def signedPackCurrent (g : AnalogValueGroup) : Rat :=
  packCurrent g.avCurrent

/-- The remaining capacity (R249). -/
def remainingCapacity (g : AnalogValueGroup) : Rat :=
  capacity g.avRemCap

/-- The total capacity (R249). -/
def totalCapacity (g : AnalogValueGroup) : Rat :=
  capacity g.avTotCap

/-- The voltages of the cells that are meaningful: `AV_CELL[i]` for i < AV_NCELLS (R240, hazard H5). -/
def cellVolts (g : AnalogValueGroup) : List Rat :=
  (g.avCell.toList.take g.avNCells.toNat).map volt

/-- The five temperatures: BMS, then groups 1 to 4 (R53, R241). -/
def temperatures (g : AnalogValueGroup) : List Rat :=
  g.avTemp.toList.map temperature

/-- `dec`: decimal spelling without leading zeros (R250). -/
def dec (n : Nat) : String :=
  toString n

/-- "V{major}.{minor}" (R250). -/
def versionText (major minor : Nat) : String :=
  "V" ++ dec major ++ "." ++ dec minor

/-- ProtocolVersion as text (R250). -/
def protocolVersionText (g : ProtocolVersionGroup) : String :=
  versionText g.pvMajor.toNat g.pvMinor.toNat

/-- Manufacture version as text (R250). -/
def manufactureVersionText (g : SoftwareVersionGroup) : String :=
  versionText g.swMfgA.toNat g.swMfgB.toNat

/-- Mainline version as text (R250). -/
def mainlineVersionText (g : SoftwareVersionGroup) : String :=
  versionText g.swMlA.toNat g.swMlB.toNat ++ "." ++ dec g.swMlC.toNat

/-- Firmware version as text (R250). -/
def firmwareVersionText (g : ManufacturerInfoGroup) : String :=
  versionText g.miFwMajor.toNat g.miFwMinor.toNat

/-- The serial number as text: the byte sequence itself (R251). -/
def serialNumberText (g : SerialNumberGroup) : List Byte :=
  g.snByte

/-- The device type as text: the byte sequence itself (R251). -/
def deviceTypeText (g : ManufacturerInfoGroup) : List Byte :=
  g.miType.toList

/-- The manufacturer as text: the byte sequence itself (R251). -/
def manufacturerText (g : ManufacturerInfoGroup) : List Byte :=
  g.miManuf.toList

/-- Alarm status text (R252). -/
def alarmStatusText (g : AlarmInfoGroup) : String :=
  if g.alOk then "ok" else "failure"

/-- Cell count as a plain unsigned integer (R253). -/
def cellCount (raw : Byte) : Nat :=
  raw.toNat

/-- `d` decimal digits of `n`, zero-padded, the least significant ones. -/
def paddedDigits : Nat → Nat → String
  | 0, _ => ""
  | d + 1, n => paddedDigits d (n / 10) ++ dec (n % 10)

/-- The decimal expansion of `q` with `d` decimals, exact when q·10^d is an integer; a leading "-" for a negative value
(R11, R263). -/
def render (d : Nat) (q : Rat) : String :=
  let n := (q * (10 ^ d : Nat)).num
  (if n < 0 then "-" else "") ++ dec (n.natAbs / 10 ^ d) ++ "." ++ paddedDigits d (n.natAbs % 10 ^ d)

/-- RTN_TEXT: the descriptions of the known return codes other than "91" (R7, D9), a host-side parameter. -/
abbrev RtnTexts := List (ReturnCode × String)

/-- The default RTN_TEXT, from general knowledge (R184, D9, G4; log entry 12). -/
def rtnTextsDefault : RtnTexts :=
  [(⟨0x30#8, 0x31#8⟩, "VER error"), (⟨0x30#8, 0x32#8⟩, "CHKSUM error"), (⟨0x30#8, 0x33#8⟩, "LCHKSUM error"),
    (⟨0x30#8, 0x34#8⟩, "CID2 invalid"), (⟨0x30#8, 0x35#8⟩, "Command format error"), (⟨0x30#8, 0x36#8⟩, "Invalid data"),
    (⟨0x39#8, 0x30#8⟩, "ADR error")]

/-- `RTN_TEXT(c)`: the source's text for "91", the parameter's for the others, none where it has none (R7, R184). -/
def rtnText (texts : RtnTexts) (c : ReturnCode) : Option String :=
  if c = ReturnCode.slaveCommunication then some "Communication error between Master and Slave Pack"
  else (texts.find? fun e => e.1 == c).map (·.2)

/-- The two characters that RTN holds (R42). -/
def State.returnCode (s : State) : ReturnCode :=
  ⟨s.rtn.extractLsb' 8 8, s.rtn.extractLsb' 0 8⟩

/-- The description the host reports for DEVICE_REPORTED: `RTN_TEXT(RTN)` (R184, R339). -/
def deviceReportText (texts : RtnTexts) (s : State) : Option String :=
  if s.code = codeBits .deviceReported then rtnText texts s.returnCode else none

end Sys2Proof.Machine
end

