-- ==== Sys2Proof/Safety.lean ====
section
/-! DEFINITION. What a state of the block must satisfy whatever has been run (the whole-machine rules of the spec's prose),
as one invariant, and which instructions write which registers. -/

namespace Sys2Proof.Machine

/-- The transmit state: the buffer's canonical form and size (R80), TX_LEN (R34), and the frame while TX_LEN = 20 (R33,
R35). -/
structure State.TxInv (s : State) : Prop where
  txbuf_wf : s.txbuf.wf
  txbuf_space : ∀ c ∈ s.txbuf, c.1 < 20
  txLen_values : s.txLen = 0 ∨ s.txLen = 20
  frame_soi : s.txLen = 20 → s.txbuf.read 0 = soi
  frame_checksum : s.txLen = 20 → s.txbuf.readString 15 4 = fmt4 s.txChk
  frame_eoi : s.txLen = 20 → s.txbuf.read 19 = cr

/-- The receive state: the accumulator's canonical form and size (R80), RX_LEN (R37), RXSTAT (R38, R39), and the accepted
bytes (R39). -/
structure State.RxInv (s : State) : Prop where
  rxbuf_wf : s.rxbuf.wf
  rxbuf_space : ∀ c ∈ s.rxbuf, c.1 < s.params.rxMax.toNat
  rxLen_le : s.rxLen.toNat ≤ s.params.rxMax.toNat
  one_flag : s.rxstat = 0x00#8 ∨ s.rxstat = 0x01#8 ∨ s.rxstat = 0x02#8 ∨ s.rxstat = 0x04#8
  done_cr : s.rxDone = true → 1 ≤ s.rxLen.toNat ∧ s.rxbuf.read (s.rxLen.toNat - 1) = cr
  overflow_full : s.rxOverflowed = true → s.rxLen = s.params.rxMax
  alphabet : ∀ i < s.rxLen.toNat, inAlphabet (s.rxbuf.read i) = true
  cr_last : ∀ i < s.rxLen.toNat, s.rxbuf.read i = cr → s.rxDone = true ∧ i + 1 = s.rxLen.toNat

/-- The result state: reserved bits read 0 and STATUS.CODE is no reserved code (R40, R41, R43, R54); VALSTAT.OK only with
RXSTAT.DONE (R187) and with at least 10 characters (R180, R222); CHK_MATCH only with CHK_VALID (R43). -/
structure State.ResultInv (s : State) : Prop where
  status_reserved : s.status.extractLsb' 4 12 = 0#12
  status_code : s.code.toNat ≤ 0xD
  valstat_reserved : s.valstat.getLsbD 3 = false ∧ s.valstat.getLsbD 7 = false
  valOk_done : s.valOk = true → s.rxDone = true
  valOk_length : s.valOk = true → 10 ≤ s.rxLen.toNat
  match_valid : s.chkMatch = true → s.chkValid = true

/-- The field registers: the serial number's width (R46), AV_NCELLS and the cells above it (R53, R227), and the two
discriminators a decoded AnalogValue can have (R53). -/
structure State.FieldInv (s : State) : Prop where
  serial_width : s.serialNumber.snByte.length = s.params.snChars / 2
  ncells : s.analogValue.avNCells.toNat = min s.analogValue.avCellCount.toNat 15
  cells_above : ∀ i : Fin 15, s.analogValue.avNCells.toNat ≤ i.val → s.analogValue.avCell[i] = 0
  udi : s.decoded .analogValue = true → s.analogValue.avUdi = 2 ∨ s.analogValue.avUdi = 4

/-- The invariant of the block. -/
structure State.Inv (s : State) : Prop where
  params_legal : s.params.Legal
  tx : s.TxInv
  rx : s.RxInv
  result : s.ResultInv
  fields : s.FieldInv

/-- The instructions that may change the transmit state: TXBUF, TX_LEN and TX_CHK (R32 "written by", R80). -/
def writesTransmit (i : Instr) : Bool :=
  match i with
  | .build _ _ => true
  | .softReset => true
  | .requestSerialNumber _ => true
  | .requestManufacturerInfo _ => true
  | .requestProtocolVersion _ => true
  | .requestSoftwareVersion _ => true
  | .requestSystemParameters _ => true
  | .requestAlarmInfo _ => true
  | .requestChargeManagementInfo _ => true
  | .requestAnalogValue _ => true
  | .rxReset => false
  | .rxByte _ => false
  | .rxTimeout => false
  | .validate _ => false
  | .decodeSerialNumber => false
  | .decodeManufacturerInfo => false
  | .decodeProtocolVersion => false
  | .decodeSoftwareVersion => false
  | .decodeSystemParameters => false
  | .decodeAlarmInfo => false
  | .decodeChargeManagementInfo => false
  | .decodeAnalogValue => false
  | .illegal _ => false

/-- The kind whose field registers an instruction may change, for the DECODE instructions (R32, R46–R53). -/
def decodedKind (i : Instr) : Option Kind :=
  match i with
  | .decodeSerialNumber => some .serialNumber
  | .decodeManufacturerInfo => some .manufacturerInfo
  | .decodeProtocolVersion => some .protocolVersion
  | .decodeSoftwareVersion => some .softwareVersion
  | .decodeSystemParameters => some .systemParameters
  | .decodeAlarmInfo => some .alarmInfo
  | .decodeChargeManagementInfo => some .chargeManagementInfo
  | .decodeAnalogValue => some .analogValue
  | .build _ _ => none
  | .rxReset => none
  | .rxByte _ => none
  | .rxTimeout => none
  | .validate _ => none
  | .softReset => none
  | .illegal _ => none
  | .requestSerialNumber _ => none
  | .requestManufacturerInfo _ => none
  | .requestProtocolVersion _ => none
  | .requestSoftwareVersion _ => none
  | .requestSystemParameters _ => none
  | .requestAlarmInfo _ => none
  | .requestChargeManagementInfo _ => none
  | .requestAnalogValue _ => none

end Sys2Proof.Machine
end

