-- ==== Sys2Proof/Machine/Exchange.lean ====
section
/-! DEFINITION. The host's side, as far as the spec transcribes it (30_encoding.md R117, 60_exceptions.md R330–R338): the
pseudo-instructions, the per-command exchange, the abort on first failure and the derived values. It is built on `exec` and
no instruction uses it. -/

namespace Sys2Proof.Machine

/-- A line of R117's assembly syntax: an instruction or one of the three pseudo-instructions. -/
inductive AsmLine where
  | instr (i : Instr)
  | rxStr (s : List Byte)
  | rxFrame (s : List Byte)
  | exchange (k : Kind) (a : Byte) (s : List Byte)
  deriving DecidableEq, Repr

/-- `RX_STR`: one RX_BYTE per byte, in order (R117). -/
def rxString (s : List Byte) : List Instr :=
  s.map .rxByte

/-- `RX_FRAME`: RX_RESET, then RX_STR (R117). -/
def rxFrameInstrs (s : List Byte) : List Instr :=
  .rxReset :: rxString s

/-- The instructions a line expands to (R117; conflict C10: EXCHANGE has no DECODE). -/
def expand (l : AsmLine) : List Instr :=
  match l with
  | .instr i => [i]
  | .rxStr s => rxString s
  | .rxFrame s => rxFrameInstrs s
  | .exchange k a s => .build k a :: (rxFrameInstrs s ++ [.validate k])

/-- The command words a line assembles to (R117). -/
def assemble (l : AsmLine) : List Word16 :=
  (expand l).map wordOf

/-- Go on with the next state; a fault or refusal ends the run. -/
def andThen (o : Outcome) (k : State → Outcome) : Outcome :=
  match o with
  | .next s => k s
  | .fault f => .fault f
  | .refused r => .refused r

/-- Execute instructions one after the other. -/
def execAll : List Instr → State → Outcome
  | [], s => .next s
  | i :: is, s => andThen (exec i s) (execAll is)

/-- The bytes of a stream that a reception accumulates: those in the alphabet, up to and including the first CR
(R114, R282, R283). -/
def acceptedBytes (bs : List Byte) : List Byte :=
  let a := bs.filter inAlphabet
  a.takeWhile (· != cr) ++ (if cr ∈ a then [cr] else [])

/-- What one read of the stream gives the host: a byte, or zero bytes with a timeout or would-block (R338 step 4). -/
inductive StreamEvent where
  | byte (b : Byte)
  | timeout
  deriving DecidableEq, Repr

/-- EOF_POLICY: what the host does when the stream ends without a CR or a timeout. The block has no command for it, "so a host
must map EOF to RX_TIMEOUT or end the exchange itself" (D33, R340); a host-side parameter (log entry 14). -/
inductive EofPolicy where
  | timeout
  | endExchange
  deriving DecidableEq, Repr

/-- A reception is over (R341). -/
def receptionOver (s : State) : Bool :=
  s.rxstat != 0

/-- The host's move at the end of the stream, if the reception is still open (D33). -/
def endOfStream (p : EofPolicy) (s : State) : Outcome :=
  match p with
  | .timeout => exec .rxTimeout s
  | .endExchange => .next s

/-- The command the host writes for a read (R338 step 4). -/
def eventInstr (e : StreamEvent) : Instr :=
  match e with
  | .byte b => .rxByte b
  | .timeout => .rxTimeout

/-- R338 step 4: read and pass on until RXSTAT ≠ 0. The list is all that the stream will give: where it ends with the
reception still open, the host follows EOF_POLICY (D33). -/
def receive (p : EofPolicy) : List StreamEvent → State → Outcome
  | [], s => if receptionOver s then .next s else endOfStream p s
  | e :: es, s => if receptionOver s then .next s else andThen (exec (eventInstr e) s) (receive p es)

/-- Go on only once the reception is over (R338 step 4); a host that ended the exchange itself writes nothing more (D33). -/
def ifReceived (k : State → Outcome) (s : State) : Outcome :=
  if receptionOver s then k s else .next s

/-- Go on only after STATUS.CODE = OK (R338 steps 1, 5, 6). -/
def ifOk (k : State → Outcome) (s : State) : Outcome :=
  if s.code = codeBits .ok then k s else .next s

/-- The per-command exchange for kind `k` and address `a`, the stream giving `es` (R338 steps 1 to 6). -/
def exchange (p : EofPolicy) (k : Kind) (a : Byte) (es : List StreamEvent) (s : State) : Outcome :=
  andThen (exec (.build k a) s) <| ifOk fun s =>
    andThen (exec .rxReset s) fun s =>
      andThen (receive p es s) <| ifReceived fun s =>
        andThen (exec (.validate k) s) <| ifOk fun s => exec (decodeInstr k) s

/-- STATUS.CODE is one of the failure codes of R311. -/
def failed (s : State) : Bool :=
  2 ≤ s.code.toNat && s.code.toNat ≤ 0xD

/-- The exchange ends with the command `i` that left `s`: a failure code stands, or a DECODE ended OK (R341). -/
def exchangeEnds (i : Instr) (s : State) : Bool :=
  failed s || ((decodedKind i).isSome && s.code == codeBits .ok)

/-- The command order of a poll cycle (R330). -/
def pollOrder : List Kind := Kind.all

/-- The static commands, which a cycle may skip while they are fresh (R106, R331). -/
def isStatic (k : Kind) : Bool :=
  match k with
  | .serialNumber => true
  | .manufacturerInfo => true
  | .protocolVersion => true
  | .softwareVersion => true
  | .systemParameters => true
  | .alarmInfo => false
  | .chargeManagementInfo => false
  | .analogValue => false

/-- Whether the cached SerialNumber is fresh: set, and younger than the threshold. The source gives the threshold 60 without
a unit, so it is an argument (R331). -/
def staticsFresh (threshold : Nat) (age : Option Nat) : Bool :=
  match age with
  | none => false
  | some n => n < threshold

/-- The commands of one cycle in order, statics left out when fresh (R330, R331). -/
def cycleKinds (staticsFresh : Bool) : List Kind :=
  pollOrder.filter fun k => !(staticsFresh && isStatic k)

/-- Exchanges one after the other, the first failure ending the cycle (R332). -/
def pollKinds (p : EofPolicy) (a : Byte) (stream : Kind → List StreamEvent) : List Kind → State → Outcome
  | [], s => .next s
  | k :: ks, s => andThen (exchange p k a (stream k) s) (ifOk (pollKinds p a stream ks))

/-- A quotient of derived values; with divisor zero it is open (R336). -/
def quotient (n d : Rat) : Rat :=
  if d = 0 then Config.quotientByZero n else n / d

/-- averageCellVolt = packVolt / cellCount (R336). -/
def averageCellVolt (g : AnalogValueGroup) : Rat :=
  quotient (packVolt g) (cellCount g.avCellCount)

/-- State of charge in % (R336). -/
def stateOfCharge (g : AnalogValueGroup) : Rat :=
  quotient (remainingCapacity g) (totalCapacity g) * 100

/-- power = current × voltage; the source does not say which voltage, so it is an argument (R336). -/
def power (g : AnalogValueGroup) (voltage : Rat) : Rat :=
  signedPackCurrent g * voltage

/-- imbalance in % = 100 × (max cell voltage − min cell voltage) / average cell voltage; none without a cell (R336). -/
def imbalance (g : AnalogValueGroup) : Option Rat :=
  match (cellVolts g).max?, (cellVolts g).min? with
  | some hi, some lo => some (quotient (100 * (hi - lo)) (averageCellVolt g))
  | _, _ => none

/-- The pack states of R336. -/
inductive PackState where
  | discharging
  | charging
  | idle
  deriving DecidableEq, Repr

/-- packState: by the sign of the pack current (R336). -/
def packState (g : AnalogValueGroup) : PackState :=
  if signedPackCurrent g < 0 then .discharging
  else if signedPackCurrent g > 0 then .charging
  else .idle

end Sys2Proof.Machine
end

