-- ==== Sys2Proof/Machine/OffsetTable.lean ====
section
/-! DEFINITION. The offset table of 43_decode.md R211 as data, and the failure of a row (R212–R214). The DECODE meanings are
written from the pseudocode of R220–R227; the statements hold them to this table. -/

namespace Sys2Proof.Machine

/-- A row of R211, by the way it is read. -/
inductive FieldRow where
  /-- A hex integer of `w` digits, or binary digits, at `off` (R212). -/
  | hex (off w : Nat)
  /-- A byte string of `n` bytes at `off` (R213). -/
  | bytes (off n : Nat)
  /-- A zero run of `w` characters at `off` (R214). -/
  | zeros (off w : Nat)
  /-- No layout for the discriminator `d`: the last branch of R227. -/
  | noLayout (d : Nat)
  deriving DecidableEq, Repr

/-- The first of `w` characters at `off` that is no hex digit raises BAD_HEX_DIGIT with its offset (R212). -/
def firstBadDigit (s : State) (off w : Nat) : Option Raised :=
  ((List.range w).find? fun i => (hexdig (s.rxbuf.read (off + i))).isNone).map
    fun i => ⟨.badHexDigit, BitVec.ofNat 16 (off + i)⟩

/-- What reading a row raises, none if it succeeds (R212–R214, R227). A byte string's characters are looked at after the
whole field is known to be there, in ascending order, as those of a hex field are. -/
def FieldRow.failure (s : State) (r : FieldRow) : Option Raised :=
  match r with
  | .hex off w => if s.rxLen.toNat < off + w then some (overrun off) else firstBadDigit s off w
  | .bytes off n => if s.rxLen.toNat < off + 2 * n then some (overrun off) else firstBadDigit s off (2 * n)
  | .zeros off w => if s.rxLen.toNat < off + w then some (overrun off) else none
  | .noLayout d => some ⟨.unsupportedVariant, BitVec.ofNat 16 d⟩

/-- The value of a hex field; 0 where it has none, which only a row after a failing one depends on. -/
def fieldValue (s : State) (off w : Nat) : Nat :=
  (hexField s off w).getD 0

/-- Rows 7 and 8 of AnalogValue for the discriminator `d` (R115, R211). -/
def capacityRows (d : Nat) : List FieldRow :=
  if d = 2 then [.hex 109 4, .hex 115 4]
  else if d = 4 then [.hex 123 6, .hex 129 6]
  else [.noLayout d]

/-- The rows of R211 for kind `k`, in evaluation order. -/
def offsetTable (s : State) (k : Kind) : List FieldRow :=
  match k with
  | .serialNumber => [.bytes 15 (s.params.snChars / 2)]
  | .manufacturerInfo => [.bytes 13 10, .hex 33 2, .hex 35 2, .bytes 37 20]
  | .protocolVersion => [.hex 1 1, .hex 2 1]
  | .softwareVersion => [.hex 15 2, .hex 17 2, .hex 19 2, .hex 21 2, .hex 23 2]
  | .systemParameters => (List.range 11).map fun i => .hex (15 + 4 * i) 4
  | .alarmInfo => [.hex 17 2, .zeros 19 30, .zeros 51 10, .zeros 67 2, .zeros 73 4]
  | .chargeManagementInfo => [.hex 15 4, .hex 19 4, .hex 23 4, .hex 27 4, .hex 31 2]
  | .analogValue =>
    [.hex 17 2] ++ (List.range (min (fieldValue s 17 2) 15)).map (fun i => .hex (19 + 4 * i) 4) ++
    (List.range 5).map (fun j => .hex (s.params.tempBase + 4 * j) 4) ++ [.hex 101 4, .hex 105 4, .hex 113 2] ++
    capacityRows (fieldValue s 113 2)

/-- The failure that a DECODE of kind `k` reports: that of the first row that fails (R215). -/
def firstFailure (s : State) (k : Kind) : Option Raised :=
  (offsetTable s k).findSome? (·.failure s)

end Sys2Proof.Machine
end

