-- ==== Sys2Proof/Certificates/Slice0/Obligations.lean ====
section
/-! DEFINITION. The statements for the provers: the rules of spec/ that say what the block does, as propositions about
`exec`, `step`, the decoder and the encoder. Where a statement says `exec i s = .next { s with … }`, everything not named
after `with` is unchanged: that equation is the instruction's result, its frame and its completion in one. -/

namespace Sys2Proof.Machine

/-- R102's mask and match rows. -/
def commandRows : List (Word16 × Word16) :=
  [(0x008F#16, 0x0001#16), (0xFFFF#16, 0x0002#16), (0x00FF#16, 0x0003#16), (0xFFFF#16, 0x0004#16),
    (0xFF8F#16, 0x0005#16), (0xFF8F#16, 0x0006#16), (0xFFFF#16, 0x000F#16)]

/-- The bytes of an ASCII string. -/
def ascii (s : String) : List Byte :=
  s.toList.map fun c => BitVec.ofNat 8 c.toNat

/-- The frames of R163's table for one kind, addresses 1 to 6, without the final CR. -/
def frameTable (k : Kind) : List String :=
  match k with
  | .serialNumber =>
    ["~20024693E00202FD2D", "~20034693E00203FD2B", "~20044693E00204FD29", "~20054693E00205FD27", "~20064693E00206FD25",
      "~20074693E00207FD23"]
  | .manufacturerInfo =>
    ["~20024651E00202FD33", "~20034651E00203FD31", "~20044651E00204FD2F", "~20054651E00205FD2D", "~20064651E00206FD2B",
      "~20074651E00207FD29"]
  | .protocolVersion =>
    ["~0002464FE00202FD21", "~0003464FE00203FD1F", "~0004464FE00204FD1D", "~0005464FE00205FD1B", "~0006464FE00206FD19",
      "~0007464FE00207FD17"]
  | .softwareVersion =>
    ["~20024696E00202FD2A", "~20034696E00203FD28", "~20044696E00204FD26", "~20054696E00205FD24", "~20064696E00206FD22",
      "~20074696E00207FD20"]
  | .systemParameters =>
    ["~20024647E00202FD2E", "~20034647E00203FD2C", "~20044647E00204FD2A", "~20054647E00205FD28", "~20064647E00206FD26",
      "~20074647E00207FD24"]
  | .alarmInfo =>
    ["~20024644E00202FD31", "~20034644E00203FD2F", "~20044644E00204FD2D", "~20054644E00205FD2B", "~20064644E00206FD29",
      "~20074644E00207FD27"]
  | .chargeManagementInfo =>
    ["~20024692E00202FD2E", "~20034692E00203FD2C", "~20044692E00204FD2A", "~20054692E00205FD28", "~20064692E00206FD26",
      "~20074692E00207FD24"]
  | .analogValue =>
    ["~20024642E00202FD33", "~20034642E00203FD31", "~20044642E00204FD2F", "~20054642E00205FD2D", "~20064642E00206FD2B",
      "~20074642E00207FD29"]

/-- The BatteryAddress `a` is one BUILD supports: ADDR_MIN ≤ a ≤ ADDR_MAX (R109). -/
abbrev Supported (s : State) (a : Byte) : Prop :=
  s.params.addrMin.toNat ≤ a.toNat ∧ a.toNat ≤ s.params.addrMax.toNat

/-- The byte is one of the 38 of the protocol alphabet, as R112 lists them. -/
abbrev ProtocolByte (b : Byte) : Prop :=
  b = 0x7E#8 ∨ (0x41 ≤ b.toNat ∧ b.toNat ≤ 0x5A) ∨ (0x30 ≤ b.toNat ∧ b.toNat ≤ 0x39) ∨ b = 0x0D#8

/-- `shape_ok` of the accumulated response, condition by condition (R181). -/
abbrev ResponseShape (s : State) : Prop :=
  2 ≤ s.rxLen.toNat ∧ s.rxbuf.read 0 = 0x7E#8 ∧ s.rxbuf.read (s.rxLen.toNat - 1) = 0x0D#8 ∧
    ∀ i < s.rxLen.toNat - 1,
      s.rxbuf.read i = 0x7E#8 ∨ (0x41 ≤ (s.rxbuf.read i).toNat ∧ (s.rxbuf.read i).toNat ≤ 0x5A) ∨
        (0x30 ≤ (s.rxbuf.read i).toNat ∧ (s.rxbuf.read i).toNat ≤ 0x39)

/-- VALIDATE k reaches its step 3: no RX flag, the shape holds, the length is at least MINLEN[k] and at least 10 (R183). -/
abbrev ReachesReturnCode (k : Kind) (s : State) : Prop :=
  s.rxLen.toNat ≤ s.params.rxMax.toNat ∧ s.rxOverflowed = false ∧ s.rxTimedOut = false ∧ ResponseShape s ∧
    (s.params.minLen.get k).toNat ≤ s.rxLen.toNat ∧ 10 ≤ s.rxLen.toNat

/-- An OK validation of kind k stands, and the accumulator is no longer than RX_MAX (R210, R37). -/
abbrev DecodeReady (k : Kind) (s : State) : Prop :=
  s.valOk = true ∧ s.valKind = k.number ∧ s.rxLen.toNat ≤ s.params.rxMax.toNat

/-- The four AlarmInfo ranges hold nothing but `0` (R211, R225). -/
abbrev AlarmRangesZero (s : State) : Prop :=
  (∀ i < 30, s.rxbuf.read (19 + i) = 0x30#8) ∧ (∀ i < 10, s.rxbuf.read (51 + i) = 0x30#8) ∧
    (∀ i < 2, s.rxbuf.read (67 + i) = 0x30#8) ∧ (∀ i < 4, s.rxbuf.read (73 + i) = 0x30#8)

/-- The AnalogValue fields before the capacities hold hex digits: the cell count `c`, its min(c,15) cells, the five
temperatures, the current, the pack voltage and the discriminator (R211 rows 1 to 6). -/
abbrev AnalogFields (s : State) (c : Nat) (cell temp : Nat → Nat) (current packV udi : Nat) : Prop :=
  hexField s 17 2 = some c ∧ (∀ i < min c 15, hexField s (19 + 4 * i) 4 = some (cell i)) ∧
    (∀ j < 5, hexField s (s.params.tempBase + 4 * j) 4 = some (temp j)) ∧ hexField s 101 4 = some current ∧
    hexField s 105 4 = some packV ∧ hexField s 113 2 = some udi

/-- The capacities of the layout that the discriminator selects (R115, R211 rows 7 and 8). -/
abbrev AnalogCapacities (s : State) (udi rem tot : Nat) : Prop :=
  (udi = 2 ∧ hexField s 109 4 = some rem ∧ hexField s 115 4 = some tot) ∨
    (udi = 4 ∧ hexField s 123 6 = some rem ∧ hexField s 129 6 = some tot)

/-- What DECODE k may write to STATUS: OK or NOT_VALIDATED with AUX 0, or one of `failures` with the AUX that its first failing
row of R211 gives: the start offset of the field for DECODE_OVERRUN, the offset of the bad character for BAD_HEX_DIGIT, the
discriminator for UNSUPPORTED_VARIANT (R41, R211–R215). -/
def DecodeMayWriteStatus (k : Kind) (failures : List StatusCode) (s : State) (c : StatusCode) (aux : Word16) : Prop :=
  (c ∈ [.ok, .notValidated] ∧ aux = 0) ∨ (c ∈ failures ∧ firstFailure s k = some ⟨c, aux⟩)

/-- The (CODE, AUX) pairs an instruction may write to STATUS (R41, read by command). -/
def MayWriteStatus (i : Instr) (s : State) (c : StatusCode) (aux : Word16) : Prop :=
  match i with
  | .build _ a => (c = .ok ∧ aux = 0) ∨ (c = .invalidAddress ∧ aux = a.setWidth 16)
  | .rxReset => c = .none ∧ aux = 0
  | .rxByte b => c = .rxOverflow ∧ aux = b.setWidth 16
  | .rxTimeout => c = .readTimeout ∧ aux = 0
  | .validate k =>
    (c ∈ [.ok, .malformed, .deviceReported, .unknownData, .readTimeout, .rxOverflow] ∧ aux = 0) ∨
      (c = .tooShort ∧ aux = s.params.minLen.get k)
  | .decodeSerialNumber => DecodeMayWriteStatus .serialNumber [.decodeOverrun, .badHexDigit] s c aux
  | .decodeManufacturerInfo => DecodeMayWriteStatus .manufacturerInfo [.decodeOverrun, .badHexDigit] s c aux
  | .decodeProtocolVersion => DecodeMayWriteStatus .protocolVersion [.decodeOverrun, .badHexDigit] s c aux
  | .decodeSoftwareVersion => DecodeMayWriteStatus .softwareVersion [.decodeOverrun, .badHexDigit] s c aux
  | .decodeSystemParameters => DecodeMayWriteStatus .systemParameters [.decodeOverrun, .badHexDigit] s c aux
  | .decodeAlarmInfo => DecodeMayWriteStatus .alarmInfo [.decodeOverrun, .badHexDigit] s c aux
  | .decodeChargeManagementInfo => DecodeMayWriteStatus .chargeManagementInfo [.decodeOverrun, .badHexDigit] s c aux
  | .decodeAnalogValue => DecodeMayWriteStatus .analogValue [.decodeOverrun, .badHexDigit, .unsupportedVariant] s c aux
  | .softReset => c = .none ∧ aux = 0
  | .illegal w => c = .illegalCommand ∧ aux = w
  | .requestSerialNumber a => (c = .ok ∧ aux = 0) ∨ (c = .invalidAddress ∧ aux = a.setWidth 16)
  | .requestManufacturerInfo a => (c = .ok ∧ aux = 0) ∨ (c = .invalidAddress ∧ aux = a.setWidth 16)
  | .requestProtocolVersion a => (c = .ok ∧ aux = 0) ∨ (c = .invalidAddress ∧ aux = a.setWidth 16)
  | .requestSoftwareVersion a => (c = .ok ∧ aux = 0) ∨ (c = .invalidAddress ∧ aux = a.setWidth 16)
  | .requestSystemParameters a => (c = .ok ∧ aux = 0) ∨ (c = .invalidAddress ∧ aux = a.setWidth 16)
  | .requestAlarmInfo a => (c = .ok ∧ aux = 0) ∨ (c = .invalidAddress ∧ aux = a.setWidth 16)
  | .requestChargeManagementInfo a => (c = .ok ∧ aux = 0) ∨ (c = .invalidAddress ∧ aux = a.setWidth 16)
  | .requestAnalogValue a => (c = .ok ∧ aux = 0) ∨ (c = .invalidAddress ∧ aux = a.setWidth 16)

end Sys2Proof.Machine

section

open Sys2Proof Sys2Proof.Machine

/-! ### Encoding -/

/-- Words written out from R101 and R117 decode to the commands they stand for. -/
def Obligations.CommandWordsDecode : Prop :=
  decodeWord 0x0101#16 = .build .serialNumber 1 ∧ decodeWord 0x0251#16 = .build .alarmInfo 2 ∧
  decodeWord 0x0002#16 = .rxReset ∧ decodeWord 0x7E03#16 = .rxByte 0x7E ∧ decodeWord 0x0004#16 = .rxTimeout ∧
  decodeWord 0x0075#16 = .validate .analogValue ∧ decodeWord 0x0006#16 = .decodeSerialNumber ∧
  decodeWord 0x0076#16 = .decodeAnalogValue ∧ decodeWord 0x000F#16 = .softReset ∧
  decodeWord 0x0085#16 = .illegal 0x0085#16

/-- R102: exactly one row matches each legal word and none an illegal one; the decoder answers `illegal w` for exactly the
words that R102's three conditions refuse. -/
def Obligations.ExactlyOneRowMatchesEachLegalWord : Prop :=
  ∀ w : Word16,
    (commandRows.filter fun r => w &&& r.1 == r.2).length = (if legalWord w then 1 else 0) ∧
    (decodeWord w = .illegal w ↔ legalWord w = false)

/-- Decoding an encoded well-formed instruction gives it back, command words and wire requests alike, for every CID table
whose kinds can be told apart. -/
def Obligations.DecodeOfEncodeIsTheInstruction : Prop :=
  ∀ (cids : PerKind CidPair), cidsDistinct cids = true →
    ∀ i : Instr, i.wellFormed = true → decode cids (encode cids i) = .ok i

/-- Every encoding has one meaning: whatever the decoder reads from a word or a string of characters encodes to it. -/
def Obligations.EncodeOfDecodeIsTheEncoding : Prop :=
  ∀ (cids : PerKind CidPair) (e : Encoded) (i : Instr), decode cids e = .ok i → encode cids i = e ∧ i.wellFormed = true

/-! ### Request framing -/

/-- R160: the words of BUILD (mask 0x008F, match 0x0001). BUILD of a supported address writes the 20 characters of R104 and leaves everything outside TXBUF, TX_LEN, TX_CHK
and STATUS as it was; BUILD of any other address sets TX_LEN to 0 and raises INVALID_ADDRESS with it. -/
def Obligations.BuildWritesTheRequestFrame : Prop :=
  (∀ w : Word16, w &&& 0x008F#16 = 0x0001#16 → decodeWord w = .build (kindField w) (argField w)) ∧
  ∀ (k : Kind) (a : Byte) (s : State),
    (Supported s a →
      ∃ t, exec (.build k a) s = .next t ∧
        t = { s with txbuf := t.txbuf, txLen := 20, txChk := t.txChk, status := 0x00000001#32 } ∧
        t.txChk = checksum ((t.txFrame.drop 1).take 14) ∧
        t.txFrame =
          [0x7E#8] ++ (if k = .protocolVersion then [0x30#8, 0x30#8] else [0x32#8, 0x30#8]) ++ hex2 (0x02#8 + a - 1#8) ++
          hex2 (s.params.cidTable.get k).cid1 ++ hex2 (s.params.cidTable.get k).cid2 ++ [0x45#8, 0x30#8, 0x30#8, 0x32#8] ++
          hex2 (0x02#8 + a - 1#8) ++ fmt4 t.txChk ++ [0x0D#8] ∧
        ∀ i, 20 ≤ i → t.txbuf.read i = s.txbuf.read i) ∧
    (¬ Supported s a →
      exec (.build k a) s = .next { s with txLen := 0, status := a.setWidth 16 ++ 0x0008#16 })

/-- R163, which the spec marks as derived: the complete list of the frames for addresses 1 to 6 at the default CID table (48
frames); six of the CID pairs are the spec's general-knowledge defaults (log entry 3). -/
def Obligations.BuildProducesTheFrameTable : Prop :=
  ∀ (s : State), s.params.cidTable = cidTableDefault → s.params.addrMin = 1 → s.params.addrMax = 6 →
    ∀ (k : Kind) (n : Fin 6),
      ∃ t, exec (.build k (BitVec.ofNat 8 (n.val + 1))) s = .next t ∧
        (frameTable k)[n.val]?.map (fun f => ascii f ++ [0x0D#8]) = some t.txFrame

/-- R161: what BUILD leaves in TXBUF, TX_LEN, TX_CHK and STATUS depends on its operands and the parameters alone. -/
def Obligations.BuildDependsOnItsOperandsAlone : Prop :=
  ∀ (k : Kind) (a : Byte) (s s' : State), s'.params = s.params → Supported s a →
    ∃ t t', exec (.build k a) s = .next t ∧ exec (.build k a) s' = .next t' ∧
      t'.txFrame = t.txFrame ∧ t'.txLen = t.txLen ∧ t'.txChk = t.txChk ∧ t'.status = t.status

/-- R162, which the spec marks as derived: the frames BUILD produces depend on the kind through VER and the CID pair only, and on the address through the
two ADR spellings and the checksum only. While ADR stays at or below 0x09, the next address adds 1 to the last digit of both
spellings, adds 2 to the byte sum and takes 2 from the checksum. -/
def Obligations.FramesDependOnKindAndAddressOnlySo : Prop :=
  (∀ (j k : Kind) (a : Byte) (s s' : State), Supported s a → Supported s' a → requestVer j = requestVer k →
    s.params.cidTable.get j = s'.params.cidTable.get k →
    ∃ t t', exec (.build j a) s = .next t ∧ exec (.build k a) s' = .next t' ∧ t'.txFrame = t.txFrame) ∧
  (∀ (k : Kind) (a b : Byte) (s : State), Supported s a → Supported s b →
    ∃ t t', exec (.build k a) s = .next t ∧ exec (.build k b) s = .next t' ∧
      ∀ i, i ∉ [3, 4, 13, 14, 15, 16, 17, 18] → t'.txbuf.read i = t.txbuf.read i) ∧
  (∀ (k : Kind) (a : Byte) (s : State), Supported s a → Supported s (a + 1) → (adrOf a).toNat + 1 ≤ 0x09 →
    ∃ t t', exec (.build k a) s = .next t ∧ exec (.build k (a + 1)) s = .next t' ∧
      (∀ i, i ∉ [4, 14, 15, 16, 17, 18] → t'.txbuf.read i = t.txbuf.read i) ∧
      t'.txbuf.read 4 = t.txbuf.read 4 + 1 ∧ t'.txbuf.read 14 = t.txbuf.read 14 + 1 ∧
      byteSum ((t'.txFrame.drop 1).take 14) = byteSum ((t.txFrame.drop 1).take 14) + 2 ∧ t'.txChk = t.txChk - 2)

/-- A wire request row (the eight `request` constructors, through `requestInstr`) for a supported address produces its own
encoding in TXBUF and nothing else but TX_LEN, TX_CHK and STATUS; for any other address it sets TX_LEN to 0 and raises
INVALID_ADDRESS with it. That it runs as an instruction is the model's choice (log entry 2). -/
def Obligations.RequestRowsProduceTheirFrames : Prop :=
  ∀ (k : Kind) (a : Byte) (s : State),
    (Supported s a →
      ∃ t, exec (requestInstr k a) s = .next t ∧
        t = { s with txbuf := t.txbuf, txLen := 20, txChk := t.txChk, status := 0x00000001#32 } ∧
        encode s.params.cidTable (requestInstr k a) = .wire t.txFrame ∧
        t.txChk = checksum ((t.txFrame.drop 1).take 14) ∧
        ∀ i, 20 ≤ i → t.txbuf.read i = s.txbuf.read i) ∧
    (¬ Supported s a →
      exec (requestInstr k a) s = .next { s with txLen := 0, status := a.setWidth 16 ++ 0x0008#16 })

/-- The frame BUILD leaves is read back by the wire decoder as the request row of that kind and address. -/
def Obligations.BuiltFrameDecodesAsItsRequest : Prop :=
  ∀ (k : Kind) (a : Byte) (s : State), s.params.Legal → cidsDistinct s.params.cidTable = true → Supported s a →
    ∃ t, exec (.build k a) s = .next t ∧
      decode s.params.cidTable (.wire t.txFrame) = .ok (requestInstr k a)

/-! ### Checksums -/

/-- R140, R141: the checksum is (65536 − sum) mod 65536, so 0 and not 0x10000 when the sum is a multiple of 65536. -/
def Obligations.ChecksumNegatesTheSum : Prop :=
  ∀ s : List Byte,
    (checksum s).toNat = (65536 - byteSum s % 65536) % 65536 ∧
    (byteSum s % 65536 = 0 → checksum s = 0x0000#16)

/-- R147, which the spec marks as derived: the four properties of the checksum; the fourth for the 14 characters of every request, whatever the CID table. -/
def Obligations.ChecksumProperties : Prop :=
  (∀ s t : List Byte, s.Perm t → checksum s = checksum t) ∧
  (∀ s : List Byte, ((checksum s).toNat + byteSum s) % 65536 = 0) ∧
  (∀ s : List Byte, s.length < 516 → (∀ b ∈ s, b.toNat ≤ 0x7E) → byteSum s < 65536) ∧
  (∀ (cids : PerKind CidPair) (k : Kind) (a : Byte),
    (requestBody cids k a).length = 14 ∧
    (∀ b ∈ requestBody cids k a, (hexdig b).isSome = true ∧ 0x30 ≤ b.toNat ∧ b.toNat ≤ 0x46) ∧
    0x2A0 ≤ byteSum (requestBody cids k a) ∧ byteSum (requestBody cids k a) ≤ 0x3D4 ∧
    0xFC2C ≤ (requestChecksum cids k a).toNat ∧ (requestChecksum cids k a).toNat ≤ 0xFD60 ∧
    ((fmt4 (requestChecksum cids k a)).take 2 = ascii "FC" ∨ (fmt4 (requestChecksum cids k a)).take 2 = ascii "FD"))

/-- R144, which the spec marks as general knowledge (log entry 8): LCHKSUM is the negated nibble sum mod 16 and LENGTH
carries it above LENID; LENID 2 is spelled "E002" (R145). -/
def Obligations.LengthFieldPacking : Prop :=
  (∀ lenid : BitVec 12,
    (lchksum lenid).toNat =
      (16 - ((lenid.toNat / 256 + lenid.toNat / 16 % 16 + lenid.toNat % 16) % 16)) % 16 ∧
    (lengthField lenid).toNat = (lchksum lenid).toNat * 4096 + lenid.toNat) ∧
  fmt4 (lengthField 2) = ascii "E002"

/-! ### Reception -/

/-- R280: RX_RESET is the word 0x0002; it writes RX_LEN, RXSTAT, VALSTAT and STATUS (CODE NONE, AUX 0) and nothing else. -/
def Obligations.RxResetEmptiesTheAccumulator : Prop :=
  decodeWord 0x0002#16 = .rxReset ∧
  ∀ s : State, exec .rxReset s = .next { s with rxLen := 0, rxstat := 0, valstat := 0, status := 0 }

/-- R281: the words of RX_BYTE (mask 0x00FF, match 0x0003). RX_BYTE writes nothing while frozen or for a byte outside the alphabet; on a full accumulator it sets OVERFLOW
and raises RX_OVERFLOW with the byte; otherwise it appends the byte, and a CR sets DONE, with STATUS unchanged. -/
def Obligations.RxByteAcceptsOneByte : Prop :=
  (∀ w : Word16, w &&& 0x00FF#16 = 0x0003#16 → decodeWord w = .rxByte (argField w)) ∧
  ∀ (b : Byte) (s : State),
    (s.frozen = true → exec (.rxByte b) s = .next s) ∧
    (¬ ProtocolByte b → exec (.rxByte b) s = .next s) ∧
    (s.frozen = false → ProtocolByte b → s.rxLen = s.params.rxMax →
      exec (.rxByte b) s = .next { s with rxstat := s.rxstat ||| 0x04#8, status := b.setWidth 16 ++ 0x0009#16 }) ∧
    (s.frozen = false → ProtocolByte b → s.rxLen.toNat < s.params.rxMax.toNat →
      ∃ t, exec (.rxByte b) s = .next t ∧
        t = { s with
          rxbuf := t.rxbuf, rxLen := s.rxLen + 1,
          rxstat := if b = 0x0D#8 then s.rxstat ||| 0x01#8 else s.rxstat } ∧
        t.rxbuf.read s.rxLen.toNat = b ∧
        ∀ i, i ≠ s.rxLen.toNat → t.rxbuf.read i = s.rxbuf.read i)

/-- R285: RX_TIMEOUT is the word 0x0004; it sets TIMEOUT and raises READ_TIMEOUT with AUX 0, and writes nothing when the read is already over. -/
def Obligations.RxTimeoutEndsTheRead : Prop :=
  decodeWord 0x0004#16 = .rxTimeout ∧
  ∀ s : State,
    (s.frozen = false → exec .rxTimeout s = .next { s with rxstat := s.rxstat ||| 0x02#8, status := 0x00000006#32 }) ∧
    (s.frozen = true → exec .rxTimeout s = .next s)

/-- R286: while frozen, RX_BYTE and RX_TIMEOUT write nothing, and only RX_RESET or SOFT_RESET unfreezes the accumulator or
changes what it holds. -/
def Obligations.FrozenAccumulatorStays : Prop :=
  ∀ (i : Instr) (s t : State), s.frozen = true → exec i s = .next t →
    ((∃ b, i = .rxByte b) ∨ i = .rxTimeout → t = s) ∧
    (i ≠ .rxReset → i ≠ .softReset →
      t.frozen = true ∧ t.rxstat = s.rxstat ∧ t.rxLen = s.rxLen ∧ t.rxbuf = s.rxbuf)

/-- R114, R282, R283: a stream of bytes offered to an open, empty accumulator leaves exactly its alphabet bytes up to and
including the first CR, noise discarded and later bytes ignored, DONE set iff there was a CR. -/
def Obligations.StreamLeavesItsAcceptedBytes : Prop :=
  ∀ (bs : List Byte) (s : State), s.rxstat = 0 → s.rxLen = 0 → (acceptedBytes bs).length ≤ s.params.rxMax.toNat →
    ∃ t, execAll (rxString bs) s = .next t ∧
      t = { s with rxbuf := t.rxbuf, rxLen := BitVec.ofNat 16 (acceptedBytes bs).length,
                   rxstat := if cr ∈ bs then 0x01#8 else 0x00#8 } ∧
      t.rxFrame = acceptedBytes bs ∧
      ∀ i, (acceptedBytes bs).length ≤ i → t.rxbuf.read i = s.rxbuf.read i

/-- An access to an element of RXBUF that R80 says does not exist faults: the model's choice, in states that no run
reaches (RX_LEN > RX_MAX; log entry 6). -/
def Obligations.MissingElementFaults : Prop :=
  ∀ s : State, s.params.rxMax.toNat < s.rxLen.toNat →
    (∀ b, s.frozen = false → ProtocolByte b → exec (.rxByte b) s = .fault (.rxbufElement s.rxLen.toNat)) ∧
    (∀ k, s.rxOverflowed = false → s.rxTimedOut = false →
      exec (.validate k) s = .fault (.rxbufElement s.params.rxMax.toNat)) ∧
    (∀ k, s.valOk = true → s.valKind = k.number →
      exec (decodeInstr k) s = .fault (.rxbufElement s.params.rxMax.toNat))

/-! ### Validation -/

/-- R180, R186: the RX flags come before everything else, OVERFLOW before TIMEOUT, then the shape (R181); a response that
fails there leaves VALSTAT, RTN and RX_CHK at 0 and everything but those and STATUS unchanged. -/
def Obligations.ValidateChecksFlagsThenShape : Prop :=
  ∀ (k : Kind) (s : State),
    (s.rxOverflowed = true →
      exec (.validate k) s = .next { s with valstat := 0, rtn := 0, rxChk := 0, status := 0x00000009#32 }) ∧
    (s.rxOverflowed = false → s.rxTimedOut = true →
      exec (.validate k) s = .next { s with valstat := 0, rtn := 0, rxChk := 0, status := 0x00000006#32 }) ∧
    (s.rxOverflowed = false → s.rxTimedOut = false → s.rxLen.toNat ≤ s.params.rxMax.toNat → ¬ ResponseShape s →
      exec (.validate k) s = .next { s with valstat := 0, rtn := 0, rxChk := 0, status := 0x00000002#32 })

/-- R182 and decision D10: a well-shaped response shorter than MINLEN[k] is TOO_SHORT with MINLEN[k] in AUX, before any look
at its return code; one that is long enough but below 10 characters is UNKNOWN_DATA. Either way RTN is 0 and OK is 0. -/
def Obligations.ValidateChecksLengthBeforeReturnCode : Prop :=
  ∀ (k : Kind) (s : State), s.rxOverflowed = false → s.rxTimedOut = false → s.rxLen.toNat ≤ s.params.rxMax.toNat →
    ResponseShape s →
    (s.rxLen.toNat < (s.params.minLen.get k).toNat →
      ∃ t, exec (.validate k) s = .next t ∧
        t = { s with valstat := t.valstat, rtn := 0, rxChk := t.rxChk, status := s.params.minLen.get k ++ 0x0003#16 } ∧
        t.valOk = false) ∧
    ((s.params.minLen.get k).toNat ≤ s.rxLen.toNat → s.rxLen.toNat < 10 →
      ∃ t, exec (.validate k) s = .next t ∧
        t = { s with valstat := t.valstat, rtn := 0, rxChk := t.rxChk, status := 0x00000005#32 } ∧
        t.valOk = false)

/-- R180, R183: VALIDATE of a response with return code "00" ends OK, with VALSTAT.OK = 1, KIND = k, RTN = "00" and STATUS
= OK; nothing but STATUS, VALSTAT, RTN and RX_CHK changes. -/
def Obligations.ValidateAcceptsNormalReturnCode : Prop :=
  ∀ (k : Kind) (s : State), ReachesReturnCode k s → s.rxbuf.read 7 = 0x30#8 → s.rxbuf.read 8 = 0x30#8 →
    ∃ t, exec (.validate k) s = .next t ∧
      t = { s with valstat := t.valstat, rtn := 0x3030#16, rxChk := t.rxChk, status := 0x00000001#32 } ∧
      t.valOk = true ∧ t.valKind = k.number ∧ t.valstat.getLsbD 3 = false ∧ t.valstat.getLsbD 7 = false

/-- R184: a known code other than "00" is reported to the host with `RTN_TEXT(RTN)`, the text of the two characters received,
whatever the texts; that of "91" is the source's, and the default texts (general knowledge, log entry 12) cover the default
RTN_KNOWN. -/
def Obligations.KnownReturnCodeIsReportedWithItsText : Prop :=
  (∀ (texts : RtnTexts) (k : Kind) (s : State), ReachesReturnCode k s →
    ⟨s.rxbuf.read 7, s.rxbuf.read 8⟩ ∈ s.params.rtnKnown → ¬ (s.rxbuf.read 7 = 0x30#8 ∧ s.rxbuf.read 8 = 0x30#8) →
    ∃ t, exec (.validate k) s = .next t ∧ t.code = 0x4#4 ∧
      deviceReportText texts t = rtnText texts ⟨s.rxbuf.read 7, s.rxbuf.read 8⟩ ∧
      (s.rxbuf.read 7 = 0x39#8 → s.rxbuf.read 8 = 0x31#8 →
        deviceReportText texts t = some "Communication error between Master and Slave Pack")) ∧
  (∀ (texts : RtnTexts) (s : State), s.code ≠ 0x4#4 → deviceReportText texts s = none) ∧
  rtnKnownDefault.map (rtnText rtnTextsDefault) =
    ["VER error", "CHKSUM error", "LCHKSUM error", "CID2 invalid", "Command format error", "Invalid data", "ADR error",
      "Communication error between Master and Slave Pack"].map some

/-- R184: a code other than "00" is DEVICE_REPORTED if it is in RTN_KNOWN and UNKNOWN_DATA otherwise; RTN holds its raw
characters and VALSTAT.OK is 0. -/
def Obligations.ValidateClassifiesOtherReturnCodes : Prop :=
  ∀ (k : Kind) (s : State), ReachesReturnCode k s → ¬ (s.rxbuf.read 7 = 0x30#8 ∧ s.rxbuf.read 8 = 0x30#8) →
    ∃ t, exec (.validate k) s = .next t ∧
      t = { s with
        valstat := t.valstat, rtn := s.rxbuf.read 7 ++ s.rxbuf.read 8, rxChk := t.rxChk,
        status := if ⟨s.rxbuf.read 7, s.rxbuf.read 8⟩ ∈ s.params.rtnKnown then 0x00000004#32 else 0x00000005#32 } ∧
      t.valOk = false

/-- R44, R185: with the shape right and RX_LEN ≥ 6, VALIDATE computes RX_CHK over RXBUF[1..RX_LEN-6], sets CHK_VALID, and
sets CHK_MATCH iff RXBUF[RX_LEN-5..RX_LEN-2] spells it; every other VALIDATE writes 0 to all three.
At reset RX_CHK is 0. -/
def Obligations.ValidateComputesTheResponseChecksum : Prop :=
  (∀ p : Params, (State.resetWith p).rxChk = 0) ∧
  ∀ (k : Kind) (s t : State), exec (.validate k) s = .next t →
    (s.rxOverflowed = false ∧ s.rxTimedOut = false ∧ ResponseShape s ∧ 6 ≤ s.rxLen.toNat →
      t.rxChk = checksum (s.rxbuf.readString 1 (s.rxLen.toNat - 6)) ∧ t.chkValid = true ∧
      (t.chkMatch = true ↔ fmt4 t.rxChk = s.rxbuf.readString (s.rxLen.toNat - 5) 4)) ∧
    (¬ (s.rxOverflowed = false ∧ s.rxTimedOut = false ∧ ResponseShape s ∧ 6 ≤ s.rxLen.toNat) →
      t.rxChk = 0 ∧ t.chkValid = false ∧ t.chkMatch = false)

/-- R185, D15: the received CHECKSUM characters change no verdict. Two responses that differ in them only get the same
STATUS, RTN, RX_CHK, OK and KIND. -/
def Obligations.ChecksumNeverGatesTheVerdict : Prop :=
  ∀ (k : Kind) (s : State) (m : Memory), 14 ≤ s.rxLen.toNat → s.rxLen.toNat ≤ s.params.rxMax.toNat →
    (∀ i < s.rxLen.toNat, i + 5 < s.rxLen.toNat ∨ i + 1 = s.rxLen.toNat → m.read i = s.rxbuf.read i) →
    (∀ i, s.rxLen.toNat ≤ i + 5 → i + 2 ≤ s.rxLen.toNat →
      isShapeChar (m.read i) = true ∧ isShapeChar (s.rxbuf.read i) = true) →
    ∃ t t', exec (.validate k) s = .next t ∧ exec (.validate k) { s with rxbuf := m } = .next t' ∧
      t'.status = t.status ∧ t'.rtn = t.rtn ∧ t'.rxChk = t.rxChk ∧ t'.valOk = t.valOk ∧ t'.valKind = t.valKind

/-- R187, which the spec marks as derived: VALSTAT.OK = 1 is possible only when RXSTAT.DONE = 1, whatever command ran. -/
def Obligations.OkOnlyWhenDone : Prop :=
  ∀ (i : Instr) (s t : State), s.RxInv → (s.valOk = true → s.rxDone = true) → exec i s = .next t →
    t.valOk = true → t.rxDone = true

/-! ### Decoding -/

/-- R212: `readHex` refuses a field that passes RX_LEN with its start offset, then reports the first character that is no
hex digit with its offset, and otherwise answers the digits' big-endian value Σ d·16^(w-1-i). -/
def Obligations.ReadHexChecksThenReads : Prop :=
  ∀ (s : State) (off w : Nat),
    (s.rxLen.toNat < off + w → readHex s off w = .error ⟨.decodeOverrun, BitVec.ofNat 16 off⟩) ∧
    (∀ i < w, off + w ≤ s.rxLen.toNat → (∀ j < i, (hexdig (s.rxbuf.read (off + j))).isSome = true) →
      hexdig (s.rxbuf.read (off + i)) = none →
      readHex s off w = .error ⟨.badHexDigit, BitVec.ofNat 16 (off + i)⟩) ∧
    (∀ d : Nat → Nat, off + w ≤ s.rxLen.toNat → (∀ i < w, hexdig (s.rxbuf.read (off + i)) = some (d i)) →
      readHex s off w = .ok (∑ i ∈ Finset.range w, d i * 16 ^ (w - 1 - i)))

/-- R210: DECODE without an OK validation of its own kind raises NOT_VALIDATED, clears its DEC_VALID bit and changes
nothing else (all eight DECODE instructions, through `decodeInstr`). -/
def Obligations.DecodeNeedsItsValidation : Prop :=
  ∀ (k : Kind) (s : State), ¬ (s.valOk = true ∧ s.valKind = k.number) →
    exec (decodeInstr k) s =
      .next { s with decValid := s.decValid &&& ~~~(1#8 <<< k.number.toNat), status := 0x0000000C#32 }

/-- R45: a successful DECODE(k) sets bit k of DEC_VALID, a failed one clears it, and the other bits are unchanged;
at reset all are 0. -/
def Obligations.DecodeSetsOrClearsItsValidBit : Prop :=
  (∀ p : Params, (State.resetWith p).decValid = 0) ∧
  ∀ (k : Kind) (s t : State), exec (decodeInstr k) s = .next t →
    (t.decoded k = true ↔ t.code = 0x1#4) ∧ ∀ j, j ≠ k → t.decoded j = s.decoded j

/-- R210: a DECODE that fails is all-or-nothing: it clears its DEC_VALID bit, writes STATUS and changes nothing else, and
STATUS holds one of the four failures of DECODE, UNSUPPORTED_VARIANT for AnalogValue only. -/
def Obligations.FailedDecodeKeepsEveryField : Prop :=
  ∀ (k : Kind) (s t : State), exec (decodeInstr k) s = .next t → t.code ≠ 0x1#4 →
    t = { s with decValid := s.decValid &&& ~~~(1#8 <<< k.number.toNat), status := t.status } ∧
    (t.code = 0x7#4 ∨ t.code = 0xA#4 ∨ t.code = 0xB#4 ∨ t.code = 0xC#4) ∧
    (t.code = 0x7#4 → k = .analogValue)

/-- R220: DECODE SerialNumber stores the SN_CHARS/2 bytes from offset 15. -/
def Obligations.DecodeSerialNumberFields : Prop :=
  ∀ (s : State) (v : Nat → Nat), DecodeReady .serialNumber s → 15 + s.params.snChars ≤ s.rxLen.toNat →
    (∀ j < s.params.snChars / 2, hexField s (15 + 2 * j) 2 = some (v j)) →
    exec .decodeSerialNumber s =
      .next { s with
        serialNumber := { snByte := (List.range (s.params.snChars / 2)).map fun j => BitVec.ofNat 8 (v j) }
        decValid := s.decValid ||| 0x01#8, status := 0x00000001#32 }

/-- R220: DECODE SerialNumber raises DECODE_OVERRUN(15) if RX_LEN < 15 + SN_CHARS, before it looks at any character. -/
def Obligations.ShortSerialNumberOverruns : Prop :=
  ∀ s : State, DecodeReady .serialNumber s → s.params.Legal → s.rxLen.toNat < 15 + s.params.snChars →
    exec .decodeSerialNumber s =
      .next { s with decValid := s.decValid &&& 0xFE#8, status := 0x000F000A#32 }

/-- R221: DECODE ManufacturerInfo stores the device type, the firmware pair and the manufacturer. -/
def Obligations.DecodeManufacturerInfoFields : Prop :=
  ∀ (s : State) (ty ma : Nat → Nat) (major minor : Nat), DecodeReady .manufacturerInfo s →
    (∀ j < 10, hexField s (13 + 2 * j) 2 = some (ty j)) → hexField s 33 2 = some major → hexField s 35 2 = some minor →
    (∀ j < 20, hexField s (37 + 2 * j) 2 = some (ma j)) →
    exec .decodeManufacturerInfo s =
      .next { s with
        manufacturerInfo :=
          { miType := Vector.ofFn fun j => BitVec.ofNat 8 (ty j), miFwMajor := BitVec.ofNat 8 major,
            miFwMinor := BitVec.ofNat 8 minor, miManuf := Vector.ofFn fun j => BitVec.ofNat 8 (ma j) }
        decValid := s.decValid ||| 0x02#8, status := 0x00000001#32 }

/-- R222: DECODE ProtocolVersion (word 0x0026) stores the two digits of VER; the first one that is no hex digit raises BAD_HEX_DIGIT. -/
def Obligations.DecodeProtocolVersionFields : Prop :=
  decodeWord 0x0026#16 = .decodeProtocolVersion ∧
  ∀ s : State, DecodeReady .protocolVersion s → 3 ≤ s.rxLen.toNat →
    (∀ major minor, hexdig (s.rxbuf.read 1) = some major → hexdig (s.rxbuf.read 2) = some minor →
      exec .decodeProtocolVersion s =
        .next { s with
          protocolVersion := { pvMajor := BitVec.ofNat 4 major, pvMinor := BitVec.ofNat 4 minor }
          decValid := s.decValid ||| 0x04#8, status := 0x00000001#32 }) ∧
    (hexdig (s.rxbuf.read 1) = none →
      exec .decodeProtocolVersion s = .next { s with decValid := s.decValid &&& 0xFB#8, status := 0x0001000B#32 }) ∧
    ((hexdig (s.rxbuf.read 1)).isSome = true → hexdig (s.rxbuf.read 2) = none →
      exec .decodeProtocolVersion s = .next { s with decValid := s.decValid &&& 0xFB#8, status := 0x0002000B#32 })

/-- R223: DECODE SoftwareVersion stores the two manufacture and the three mainline version bytes. -/
def Obligations.DecodeSoftwareVersionFields : Prop :=
  ∀ (s : State) (a b c d e : Nat), DecodeReady .softwareVersion s →
    hexField s 15 2 = some a → hexField s 17 2 = some b → hexField s 19 2 = some c → hexField s 21 2 = some d →
    hexField s 23 2 = some e →
    exec .decodeSoftwareVersion s =
      .next { s with
        softwareVersion :=
          { swMfgA := BitVec.ofNat 8 a, swMfgB := BitVec.ofNat 8 b, swMlA := BitVec.ofNat 8 c,
            swMlB := BitVec.ofNat 8 d, swMlC := BitVec.ofNat 8 e }
        decValid := s.decValid ||| 0x08#8, status := 0x00000001#32 }

/-- R224: DECODE SystemParameters stores the eleven raws from offset 15 at stride 4. -/
def Obligations.DecodeSystemParametersFields : Prop :=
  ∀ (s : State) (v : Nat → Nat), DecodeReady .systemParameters s →
    (∀ i < 11, hexField s (15 + 4 * i) 4 = some (v i)) →
    exec .decodeSystemParameters s =
      .next { s with
        systemParameters := { spRaw := Vector.ofFn fun i => BitVec.ofNat 16 (v i) }
        decValid := s.decValid ||| 0x10#8, status := 0x00000001#32 }

/-- R215, for all eight kinds: the rows of R211 are read top to bottom and the first failure is the one reported, DECODE_OVERRUN
with the field's start offset, BAD_HEX_DIGIT with the character's offset (R212–R214), UNSUPPORTED_VARIANT with the
discriminator (R227), so that an overrun of an earlier row wins over a bad digit of a later one, and a bad temperature digit
over an unsupported discriminator. A DECODE none of whose rows fails ends OK. -/
def Obligations.FirstFailingFieldIsReported : Prop :=
  ∀ (k : Kind) (s : State), DecodeReady k s →
    (∀ e, firstFailure s k = some e →
      exec (decodeInstr k) s =
        .next { s with decValid := s.decValid &&& ~~~(1#8 <<< k.number.toNat), status := e.aux ++ (0#12 ++ codeBits e.code) }) ∧
    (firstFailure s k = none →
      ∃ t, exec (decodeInstr k) s = .next t ∧ t.status = 0x00000001#32 ∧ t.decoded k = true)

/-- R225: DECODE AlarmInfo stores the cell count and whether all four ranges are `0`, hex digits or not. -/
def Obligations.DecodeAlarmInfoFields : Prop :=
  ∀ (s : State) (c : Nat) (allZero : Bool), DecodeReady .alarmInfo s → 77 ≤ s.rxLen.toNat →
    hexField s 17 2 = some c → (allZero = true ↔ AlarmRangesZero s) →
    exec .decodeAlarmInfo s =
      .next { s with
        alarmInfo := { alCellCount := BitVec.ofNat 8 c, alOk := allZero }
        decValid := s.decValid ||| 0x20#8, status := 0x00000001#32 }

/-- R226: DECODE ChargeManagementInfo stores the two voltage limits, the two current limits and the status byte. -/
def Obligations.DecodeChargeManagementInfoFields : Prop :=
  ∀ (s : State) (v1 v2 ichg idis st : Nat), DecodeReady .chargeManagementInfo s →
    hexField s 15 4 = some v1 → hexField s 19 4 = some v2 → hexField s 23 4 = some ichg →
    hexField s 27 4 = some idis → hexField s 31 2 = some st →
    exec .decodeChargeManagementInfo s =
      .next { s with
        chargeManagementInfo :=
          { cmVlim1 := BitVec.ofNat 16 v1, cmVlim2 := BitVec.ofNat 16 v2, cmIchg := BitVec.ofNat 16 ichg,
            cmIdis := BitVec.ofNat 16 idis, cmStatus := BitVec.ofNat 8 st }
        decValid := s.decValid ||| 0x40#8, status := 0x00000001#32 }

/-- R227: DECODE AnalogValue stores the group, cells from min(count, 15) on as 0, and the capacities of the layout that
discriminator 2 or 4 selects. -/
def Obligations.DecodeAnalogValueFields : Prop :=
  ∀ (s : State) (c : Nat) (cell temp : Nat → Nat) (current packV udi rem tot : Nat), DecodeReady .analogValue s →
    AnalogFields s c cell temp current packV udi → AnalogCapacities s udi rem tot →
    exec .decodeAnalogValue s =
      .next { s with
        analogValue :=
          { avCellCount := BitVec.ofNat 8 c, avNCells := BitVec.ofNat 4 (min c 15),
            avCell := Vector.ofFn fun i => if i.val < min c 15 then BitVec.ofNat 16 (cell i) else 0,
            avTemp := Vector.ofFn fun j => BitVec.ofNat 16 (temp j), avCurrent := BitVec.ofNat 16 current,
            avPackV := BitVec.ofNat 16 packV, avUdi := BitVec.ofNat 8 udi, avRemCap := BitVec.ofNat 24 rem,
            avTotCap := BitVec.ofNat 24 tot }
        decValid := s.decValid ||| 0x80#8, status := 0x00000001#32 }

/-- R227: a discriminator other than 2 and 4 raises UNSUPPORTED_VARIANT with it, and no field is updated. -/
def Obligations.OtherDiscriminatorIsUnsupported : Prop :=
  ∀ (s : State) (c : Nat) (cell temp : Nat → Nat) (current packV udi : Nat), DecodeReady .analogValue s →
    AnalogFields s c cell temp current packV udi → udi ≠ 2 → udi ≠ 4 →
    exec .decodeAnalogValue s =
      .next { s with decValid := s.decValid &&& 0x7F#8, status := BitVec.ofNat 16 udi ++ 0x0007#16 }

/-! ### Control and the machine -/

/-- R300: SOFT_RESET (word 0x000F) gives every register and buffer element its reset value of R360. That the parameters and
the words still to be executed stay is the model's: they are its own fields (log entries 1 and 5). -/
def Obligations.SoftResetClearsEverything : Prop :=
  decodeWord 0x000F#16 = .softReset ∧
  ∀ s : State, exec .softReset s = .next { State.resetWith s.params with cmdIn := s.cmdIn }

/-- R301: an illegal word raises ILLEGAL_COMMAND with the word, and STATUS is the only write to the block. Two parts are the
model's choice: that `step` takes the word out of `cmdIn`, its own field (log entry 5), and that the term `illegal w` has this
meaning for a legal w too, which no decoding gives (log entry 21). -/
def Obligations.IllegalWordOnlyWritesStatus : Prop :=
  (∀ (w : Word16) (s : State), exec (.illegal w) s = .next { s with status := w ++ 0x000D#16 }) ∧
  (∀ (w : Word16) (ws : List Word16) (s : State), s.cmdIn = w :: ws → legalWord w = false →
    step s = .next { s with cmdIn := ws, status := w ++ 0x000D#16 })

/-- R360: after power-on reset, whatever the parameters, and after SOFT_RESET, every piece of the block's state is 0. -/
def Obligations.ResetStateIsAllZero : Prop :=
  ∀ s : State, ((∃ p, s = State.resetWith p) ∨ ∃ u, exec .softReset u = .next s) →
    (∀ i, s.txbuf.read i = 0) ∧ (∀ i, s.rxbuf.read i = 0) ∧ s.txLen = 0 ∧ s.txChk = 0 ∧ s.rxLen = 0 ∧ s.rxstat = 0 ∧
    s.rtn = 0 ∧ s.valstat = 0 ∧ s.rxChk = 0 ∧ s.decValid = 0 ∧ s.status = 0 ∧ (∀ b ∈ s.serialNumber.snByte, b = 0) ∧
    (∀ i : Fin 10, s.manufacturerInfo.miType[i] = 0) ∧ s.manufacturerInfo.miFwMajor = 0 ∧
    s.manufacturerInfo.miFwMinor = 0 ∧ (∀ i : Fin 20, s.manufacturerInfo.miManuf[i] = 0) ∧
    s.protocolVersion = ⟨0, 0⟩ ∧ s.softwareVersion = ⟨0, 0, 0, 0, 0⟩ ∧ (∀ i : Fin 11, s.systemParameters.spRaw[i] = 0) ∧
    s.alarmInfo = ⟨0, false⟩ ∧ s.chargeManagementInfo = ⟨0, 0, 0, 0, 0⟩ ∧ s.analogValue.avCellCount = 0 ∧
    s.analogValue.avNCells = 0 ∧ (∀ i : Fin 15, s.analogValue.avCell[i] = 0) ∧ (∀ i : Fin 5, s.analogValue.avTemp[i] = 0) ∧
    s.analogValue.avCurrent = 0 ∧ s.analogValue.avPackV = 0 ∧ s.analogValue.avUdi = 0 ∧ s.analogValue.avRemCap = 0 ∧
    s.analogValue.avTotCap = 0

/-- A step executes the command that the oldest pending word decodes to, with that word taken; with none pending the block
holds its state. In particular the word of a well-formed command instruction runs exactly that instruction. The spec
says that commands execute one at a time in the order issued (R3, R89) and that the block holds its state between them (R323);
that the pending words stand in `cmdIn` and a step takes the oldest is the model's choice (log entry 5). -/
def Obligations.StepRunsTheDecodedCommand : Prop :=
  (∀ (s : State) (w : Word16) (ws : List Word16), s.cmdIn = w :: ws →
    step s = exec (decodeWord w) { s with cmdIn := ws }) ∧
  (∀ (s : State) (i : Instr) (w : Word16) (ws : List Word16), i.wellFormed = true →
    encode s.params.cidTable i = .command w → s.cmdIn = w :: ws → step s = exec i { s with cmdIn := ws }) ∧
  (∀ s : State, s.cmdIn = [] → step s = .next s)

/-- The invariant holds at reset for every legal choice of the parameters, the defaults among them. -/
def Obligations.ResetMeetsTheInvariant : Prop :=
  (∀ p : Params, p.Legal → (State.resetWith p).Inv) ∧ State.reset.Inv

/-- Every step keeps the invariant of the block: buffers in canonical form and within bounds, TX_LEN 0 or 20 with the frame
it announces, at most one RXSTAT flag and the R39 form of the accumulator, reserved bits 0, OK only with DONE and at
least 10 characters, and the AnalogValue group's cells and discriminator. -/
def Obligations.EveryStepKeepsTheInvariant : Prop :=
  ∀ s t : State, s.Inv → step s = .next t → t.Inv

/-- R310, R318: every instruction completes in every state of the invariant, in the block's single mode; there is no trap. -/
def Obligations.EveryCommandCompletes : Prop :=
  ∀ (i : Instr) (s : State), s.Inv → ∃ t, exec i s = .next t

/-- R91, R363: no instruction changes the parameters, the constant tables among them. That none changes the words still to be
executed is the model's choice: `cmdIn` is its own field (log entry 5). -/
def Obligations.NoCommandChangesTheParameters : Prop :=
  ∀ (i : Instr) (s t : State), exec i s = .next t → t.params = s.params ∧ t.cmdIn = s.cmdIn

/-- R32, R80: TXBUF, TX_LEN and TX_CHK are written by BUILD (and the request rows, which are BUILD's frames) and SOFT_RESET
only; RXBUF by RX_BYTE and SOFT_RESET only, RX_LEN also by RX_RESET, RXSTAT also by RX_RESET and RX_TIMEOUT. -/
def Obligations.BuffersAreWrittenByTheirCommandsOnly : Prop :=
  ∀ (i : Instr) (s t : State), exec i s = .next t →
    (writesTransmit i = false → t.txbuf = s.txbuf ∧ t.txLen = s.txLen ∧ t.txChk = s.txChk) ∧
    (i ≠ .softReset → (∀ b, i ≠ .rxByte b) →
      t.rxbuf = s.rxbuf ∧ (i ≠ .rxReset → t.rxLen = s.rxLen ∧ (i ≠ .rxTimeout → t.rxstat = s.rxstat)))

/-- R32, R46–R53: RTN and RX_CHK are written by VALIDATE and SOFT_RESET only, VALSTAT also by RX_RESET; DEC_VALID by the
DECODE instructions and SOFT_RESET only; a group's field registers by DECODE of its own kind and SOFT_RESET only. -/
def Obligations.ResultsAreWrittenByTheirCommandsOnly : Prop :=
  ∀ (i : Instr) (s t : State), exec i s = .next t → i ≠ .softReset →
    ((∀ k, i ≠ .validate k) → t.rtn = s.rtn ∧ t.rxChk = s.rxChk ∧ (i ≠ .rxReset → t.valstat = s.valstat)) ∧
    (decodedKind i = none → t.decValid = s.decValid) ∧
    (decodedKind i ≠ some .serialNumber → t.serialNumber = s.serialNumber) ∧
    (decodedKind i ≠ some .manufacturerInfo → t.manufacturerInfo = s.manufacturerInfo) ∧
    (decodedKind i ≠ some .protocolVersion → t.protocolVersion = s.protocolVersion) ∧
    (decodedKind i ≠ some .softwareVersion → t.softwareVersion = s.softwareVersion) ∧
    (decodedKind i ≠ some .systemParameters → t.systemParameters = s.systemParameters) ∧
    (decodedKind i ≠ some .alarmInfo → t.alarmInfo = s.alarmInfo) ∧
    (decodedKind i ≠ some .chargeManagementInfo → t.chargeManagementInfo = s.chargeManagementInfo) ∧
    (decodedKind i ≠ some .analogValue → t.analogValue = s.analogValue)

/-- R41: a command writes only the status codes that the table lists for it, each with the AUX the table gives: for
DECODE_OVERRUN the start offset of the first field that fails, for BAD_HEX_DIGIT the offset of the bad character, for
UNSUPPORTED_VARIANT the discriminator. RX_BYTE and RX_TIMEOUT may leave STATUS alone, every other command writes it. -/
def Obligations.StatusCodesAreTheTablesOwn : Prop :=
  ∀ (i : Instr) (s t : State), exec i s = .next t →
    (((∃ b, i = .rxByte b) ∨ i = .rxTimeout) ∧ t.status = s.status) ∨
    ∃ c aux, MayWriteStatus i s c aux ∧ t.status = statusWord c aux

/-- R86: every command except RX_BYTE is idempotent: the same command twice in a row leaves the same state as once. -/
def Obligations.CommandsButRxByteAreIdempotent : Prop :=
  ∀ (i : Instr) (s t : State), s.Inv → (∀ b, i ≠ .rxByte b) → exec i s = .next t → exec i t = .next t

/-- R36, R81: no command reads RXBUF at an index at or above RX_LEN: with other bytes there, every instruction ends with
the same state but for RXBUF, and RXBUF agrees below the new RX_LEN. -/
def Obligations.ElementsAboveRxLenAreNeverRead : Prop :=
  ∀ (i : Instr) (s t : State) (m : Memory), (∀ j < s.rxLen.toNat, m.read j = s.rxbuf.read j) → exec i s = .next t →
    ∃ t', exec i { s with rxbuf := m } = .next t' ∧ t' = { t with rxbuf := t'.rxbuf } ∧
      ∀ j < t.rxLen.toNat, t'.rxbuf.read j = t.rxbuf.read j

/-- R338: the per-command exchange end to end. If the stream's accepted bytes are a well-shaped response with return code
"00", long enough for its kind and short enough for the accumulator, the host's steps 1 to 5 succeed and step 6 decodes
exactly that response; the request sent is the frame of kind k and address a. (`FailedReceptionEndsTheExchange` is about
streams that time out, end or overflow.) -/
def Obligations.ExchangeDecodesTheDeliveredResponse : Prop :=
  ∀ (p : EofPolicy) (k : Kind) (a : Byte) (bs : List Byte) (s : State), Supported s a →
    shapeOk (acceptedBytes bs) = true → slice (acceptedBytes bs) 7 2 = [0x30#8, 0x30#8] →
    10 ≤ (acceptedBytes bs).length → (s.params.minLen.get k).toNat ≤ (acceptedBytes bs).length →
    (acceptedBytes bs).length ≤ s.params.rxMax.toNat →
    ∃ t, exchange p k a (bs.map .byte) s = exec (decodeInstr k) t ∧ t.rxFrame = acceptedBytes bs ∧
      t.txFrame = requestFrame s.params.cidTable k a ∧ t.valOk = true ∧ t.valKind = k.number ∧ t.rxDone = true ∧
      t.params = s.params

/-- R338 steps 1, 4 and 5, R340, D33: an exchange that gets no complete response. An unsupported address ends it after BUILD,
with TX_LEN 0 and INVALID_ADDRESS and everything else unchanged, an earlier validation included.
A stream without CR ends it READ_TIMEOUT if a timeout comes, and, if the stream ends instead, as EOF_POLICY says: READ_TIMEOUT
where the host maps the end to RX_TIMEOUT, and no VALIDATE and no DECODE, with the reception open, where it ends the exchange
itself. A response longer than RX_MAX ends it RX_OVERFLOW. In each case with a supported address no validation stands. -/
def Obligations.FailedReceptionEndsTheExchange : Prop :=
  ∀ (p : EofPolicy) (k : Kind) (a : Byte) (bs : List Byte) (s : State),
    (¬ Supported s a →
      exchange p k a (bs.map .byte) s = .next { s with txLen := 0, status := a.setWidth 16 ++ 0x0008#16 }) ∧
    (Supported s a → cr ∉ bs → (acceptedBytes bs).length ≤ s.params.rxMax.toNat →
      (∃ t, exchange p k a (bs.map .byte ++ [.timeout]) s = .next t ∧ t.status = 0x00000006#32 ∧ t.rxstat = 0x02#8 ∧
        t.rxFrame = acceptedBytes bs ∧ t.valOk = false) ∧
      (∃ t, exchange .timeout k a (bs.map .byte) s = .next t ∧ t.status = 0x00000006#32 ∧ t.rxstat = 0x02#8 ∧
        t.rxFrame = acceptedBytes bs ∧ t.valOk = false) ∧
      (∃ t, exchange .endExchange k a (bs.map .byte) s = .next t ∧ t.status = 0x00000000#32 ∧ t.rxstat = 0x00#8 ∧
        t.rxFrame = acceptedBytes bs ∧ t.valOk = false)) ∧
    (Supported s a → s.params.rxMax.toNat < (acceptedBytes bs).length →
      ∃ t, exchange p k a (bs.map .byte) s = .next t ∧ t.status = 0x00000009#32 ∧ t.rxstat = 0x04#8 ∧
        t.rxFrame = (acceptedBytes bs).take s.params.rxMax.toNat ∧ t.valOk = false)

/-! ### Interpretation -/

/-- R248: the pack current is the raw read as two's complement, over 10: raw/10 below 0x8000 and (raw − 65536)/10 from there
up. -/
def Obligations.PackCurrentIsSigned : Prop :=
  ∀ raw : Word16,
    packCurrent raw = (raw.toInt : Rat) / 10 ∧
    (raw.toNat < 0x8000 → packCurrent raw * 10 = raw.toNat) ∧
    (0x8000 ≤ raw.toNat → packCurrent raw * 10 = (raw.toNat : Rat) - 65536)

/-- R240–R246, R248, R249, R263: every interpreted value is the one its formula gives, for each register the rules list, and
exact in its decimals: the value times 10 (rendered with 1 decimal) or 1000 (with 3) is an integer. -/
def Obligations.RenderedDecimalsAreExact : Prop :=
  (∀ raw : Word16, volt raw * 1000 = raw.toNat ∧ temperature raw * 10 = (raw.toNat : Rat) - 2731 ∧
    spCurrent raw * 10 = raw.toNat ∧ spDischargeCurrent raw * 10 = 65535 - (raw.toNat : Rat) ∧
    cmChargeCurrent raw * 10 = raw.toNat ∧ cmDischargeCurrent raw * 10 = 65536 - (raw.toNat : Rat) ∧
    packCurrent raw * 10 = (raw.toInt : Rat)) ∧
  (∀ raw : Word24, capacity raw * 1000 = raw.toNat) ∧
  (∀ raw : Word16, (volt raw * 1000).den = 1 ∧ (temperature raw * 10).den = 1 ∧ (spCurrent raw * 1000).den = 1 ∧
    (spDischargeCurrent raw * 1000).den = 1 ∧ (cmChargeCurrent raw * 10).den = 1 ∧ (cmDischargeCurrent raw * 10).den = 1 ∧
    (packCurrent raw * 10).den = 1) ∧
  (∀ raw : Word24, (capacity raw * 1000).den = 1) ∧
  (∀ raw : Word16, spValue .volt raw * 1000 = raw.toNat ∧ spValue .temp raw * 10 = (raw.toNat : Rat) - 2731 ∧
    spValue .curr raw * 10 = raw.toNat ∧ spValue .dcurr raw * 10 = 65535 - (raw.toNat : Rat)) ∧
  (∀ g : ChargeManagementInfoGroup, voltageLimit1 g * 1000 = g.cmVlim1.toNat ∧ voltageLimit2 g * 1000 = g.cmVlim2.toNat ∧
    chargeCurrentLimit g * 10 = g.cmIchg.toNat ∧ dischargeCurrentLimit g * 10 = 65536 - (g.cmIdis.toNat : Rat)) ∧
  (∀ g : AnalogValueGroup, packVolt g * 1000 = g.avPackV.toNat ∧ signedPackCurrent g * 10 = (g.avCurrent.toInt : Rat) ∧
    remainingCapacity g * 1000 = g.avRemCap.toNat ∧ totalCapacity g * 1000 = g.avTotCap.toNat ∧
    (cellVolts g).length = g.avNCells.toNat ∧
    (∀ i : Fin 15, i.val < g.avNCells.toNat → (cellVolts g)[i.val]? = some ((g.avCell[i].toNat : Rat) / 1000)) ∧
    ∀ j : Fin 5, (temperatures g)[j.val]? = some (((g.avTemp[j].toNat : Rat) - 2731) / 10))

/-- R243, R246, conflict C6: the two discharge-current formulas keep their different constants. The SystemParameters limit is
never negative and 0 only at 65535; the ChargeManagementInfo limit lies between 0.1 and 6553.6; for one raw they differ by
0.1 A. -/
def Obligations.DischargeLimitsKeepTheirConstants : Prop :=
  ∀ raw : Word16,
    0 ≤ spDischargeCurrent raw ∧ (spDischargeCurrent raw = 0 ↔ raw = 0xFFFF#16) ∧
    1 / 10 ≤ cmDischargeCurrent raw ∧ cmDischargeCurrent raw ≤ 65536 / 10 ∧
    cmDischargeCurrent raw = spDischargeCurrent raw + 1 / 10

end
end

