-- ==== Sys2Proof/Laws/Chars.lean ====
section
/-! SUPPORT. Hexadecimal spelling and reading: each undoes the other, and `hexval` is the sum that R10 writes. -/

namespace Sys2Proof

@[simp] theorem length_hex2 (v : Byte) : (hex2 v).length = 2 := rfl

@[simp] theorem length_fmt4 (v : Word16) : (fmt4 v).length = 4 := rfl

@[simp] theorem length_requestVer (k : Kind) : (requestVer k).length = 2 := by
  cases k <;> rfl

@[simp] theorem length_cidChars (c : CidPair) : (cidChars c).length = 4 := rfl

@[simp] theorem length_lengthChars (i : List Byte) : (lengthChars i).length = 4 := rfl

@[simp] theorem length_requestBody (cids : PerKind CidPair) (k : Kind) (a : Byte) :
    (requestBody cids k a).length = 14 := by
  simp [requestBody]

@[simp] theorem length_requestFrame (cids : PerKind CidPair) (k : Kind) (a : Byte) :
    (requestFrame cids k a).length = 20 := by
  simp [requestFrame]

/-- Every request's LENGTH is "E002" (R145). -/
theorem lengthChars_hex2 (v : Byte) : lengthChars (hex2 v) = [0x45#8, 0x30#8, 0x30#8, 0x32#8] := by
  have : lengthChars (hex2 v) = fmt4 (lengthField 2#12) := rfl
  rw [this]; decide

@[simp] theorem hexdig_hexChar (v : BitVec 4) : hexdig (hexChar v) = some v.toNat := by
  revert v; decide

/-- A hex digit spells its value: the uppercase digit of each value is unique (R113). -/
theorem hexChar_of_hexdig {b : Byte} {d : Nat} (h : hexdig b = some d) : hexChar (BitVec.ofNat 4 d) = b ∧ d < 16 := by
  have key : ∀ b : Byte, ∀ d ∈ (hexdig b).toList, hexChar (BitVec.ofNat 4 d) = b ∧ d < 16 := by decide +kernel
  exact key b d (by simp [h])

theorem hexdig_lt {b : Byte} {d : Nat} (h : hexdig b = some d) : d < 16 :=
  (hexChar_of_hexdig h).2

@[simp] theorem hexvalFrom_nil (a : Nat) : hexvalFrom a [] = some a := rfl

theorem hexvalFrom_cons (a : Nat) (c : Byte) (cs : List Byte) :
    hexvalFrom a (c :: cs) = (hexdig c).bind fun d => hexvalFrom (a * 16 + d) cs := by
  rw [hexvalFrom]; cases hexdig c <;> rfl

/-- A string of `w` hex digits has a value below 16^w (R212). -/
theorem hexvalFrom_lt {s : List Byte} {a v : Nat} (h : hexvalFrom a s = some v) : v < (a + 1) * 16 ^ s.length := by
  induction s generalizing a with
  | nil => simp at h; subst h; simp
  | cons c cs ih =>
    rw [hexvalFrom_cons] at h
    cases hd : hexdig c with
    | none => simp [hd] at h
    | some d =>
      have hlt := hexdig_lt hd
      have := ih (by simpa [hd] using h)
      have h2 : (a * 16 + d + 1) ≤ (a + 1) * 16 := by omega
      calc v < (a * 16 + d + 1) * 16 ^ cs.length := this
        _ ≤ (a + 1) * 16 * 16 ^ cs.length := Nat.mul_le_mul_right _ h2
        _ = (a + 1) * 16 ^ (c :: cs).length := by rw [List.length_cons, pow_succ]; ring

theorem hexval_lt {s : List Byte} {v : Nat} (h : hexval s = some v) : v < 16 ^ s.length := by
  simpa using hexvalFrom_lt h

/-- Both digits of a spelled byte read back as its value. -/
@[simp] theorem hexval_hex2 (v : Byte) : hexval (hex2 v) = some v.toNat := by
  have key : ∀ v : Byte, hexval (hex2 v) = some v.toNat := by decide +kernel
  exact key v

/-- Two hex digits are the spelling of the byte they spell. -/
theorem hex2_of_hexval {s : List Byte} {v : Nat} (hl : s.length = 2) (h : hexval s = some v) :
    hex2 (BitVec.ofNat 8 v) = s ∧ v < 256 := by
  match s, hl with
  | [c, d], _ =>
    simp only [hexval, hexvalFrom_cons] at h
    cases hc : hexdig c with
    | none => simp [hc] at h
    | some x =>
      cases hd : hexdig d with
      | none => simp [hc, hd] at h
      | some y =>
        simp [hc, hd] at h
        obtain ⟨hx, hx16⟩ := hexChar_of_hexdig hc
        obtain ⟨hy, hy16⟩ := hexChar_of_hexdig hd
        subst h
        refine ⟨?_, by omega⟩
        have e1 : (BitVec.ofNat 8 (x * 16 + y)).extractLsb' 4 4 = BitVec.ofNat 4 x := by
          apply BitVec.eq_of_toNat_eq; simp [BitVec.extractLsb', Nat.shiftRight_eq_div_pow]; omega
        have e2 : (BitVec.ofNat 8 (x * 16 + y)).extractLsb' 0 4 = BitVec.ofNat 4 y := by
          apply BitVec.eq_of_toNat_eq; simp [BitVec.extractLsb']
        simp [hex2, e1, e2, hx, hy]

/-- A spelled digit is a printable character of the hex alphabet: 0x30 to 0x46. -/
theorem hexChar_range (v : BitVec 4) : 0x30 ≤ (hexChar v).toNat ∧ (hexChar v).toNat ≤ 0x46 := by
  revert v; decide

/-- No character of a request frame is 0x00. -/
theorem requestFrame_ne_zero {cids : PerKind CidPair} {k : Kind} {a : Byte} :
    ∀ b ∈ requestFrame cids k a, b ≠ 0#8 := by
  have hx : ∀ v : BitVec 4, hexChar v ≠ 0#8 := by decide
  have hv : ∀ b ∈ requestVer k, b ≠ 0#8 := by cases k <;> decide
  have h2 : ∀ v : Byte, ∀ b ∈ hex2 v, b ≠ 0#8 := by
    intro v b hb
    simp only [hex2, List.mem_cons, List.not_mem_nil, or_false] at hb
    rcases hb with rfl | rfl <;> exact hx _
  have h4 : ∀ v : Word16, ∀ b ∈ fmt4 v, b ≠ 0#8 := by
    intro v b hb
    simp only [fmt4, List.mem_cons, List.not_mem_nil, or_false] at hb
    rcases hb with rfl | rfl | rfl | rfl <;> exact hx _
  intro b hb
  simp only [requestFrame, requestBody, cidChars, lengthChars, List.mem_append] at hb
  rcases hb with ((hb | ((((hb | hb) | (hb | hb)) | hb) | hb)) | hb) | hb
  · simp [soi] at hb; subst hb; decide
  · exact hv b hb
  · exact h2 _ b hb
  · exact h2 _ b hb
  · exact h2 _ b hb
  · exact h4 _ b hb
  · exact h2 _ b hb
  · exact h4 _ b hb
  · simp [cr] at hb; subst hb; decide

/-- No character of the protocol alphabet is 0x00. -/
theorem ne_zero_of_inAlphabet {b : Byte} (h : inAlphabet b = true) : b ≠ 0#8 := by
  rintro rfl; exact absurd h (by decide)

/-- CR is no shape character (R112). -/
theorem ne_cr_of_isShapeChar {b : Byte} (h : isShapeChar b = true) : b ≠ cr := by
  rintro rfl; exact absurd h (by decide)

end Sys2Proof
end

