-- ==== Sys2Proof/Laws/Flags.lean ====
section
/-! SUPPORT. The fields of the four status registers: what writing a field makes each field read. -/

namespace Sys2Proof.Machine

@[simp] theorem statusWord_code (c : StatusCode) (aux : Word16) : (statusWord c aux).extractLsb' 0 4 = codeBits c := by
  unfold statusWord; generalize codeBits c = y; grind

@[simp] theorem statusWord_aux (c : StatusCode) (aux : Word16) : (statusWord c aux).extractLsb' 16 16 = aux := by
  unfold statusWord; generalize codeBits c = y; grind

/-- The reserved bits of STATUS are 0 (R40). -/
@[simp] theorem statusWord_reserved (c : StatusCode) (aux : Word16) : (statusWord c aux).extractLsb' 4 12 = 0#12 := by
  unfold statusWord; generalize codeBits c = y; grind

/-- No command writes a reserved code (R41). -/
theorem codeBits_le (c : StatusCode) : (codeBits c).toNat ≤ 0xD := by
  cases c <;> decide

@[simp] theorem valstatWord_ok (o v m : Bool) (k : BitVec 3) : (valstatWord o v m k)[0] = o := by
  revert o v m k; decide

@[simp] theorem valstatWord_chkValid (o v m : Bool) (k : BitVec 3) : (valstatWord o v m k)[1] = v := by
  revert o v m k; decide

@[simp] theorem valstatWord_chkMatch (o v m : Bool) (k : BitVec 3) : (valstatWord o v m k)[2] = m := by
  revert o v m k; decide

@[simp] theorem valstatWord_kind (o v m : Bool) (k : BitVec 3) : (valstatWord o v m k).extractLsb' 4 3 = k := by
  revert o v m k; decide

/-- The reserved bits of VALSTAT are 0 (R43). -/
@[simp] theorem valstatWord_reserved (o v m : Bool) (k : BitVec 3) :
    (valstatWord o v m k).getLsbD 3 = false ∧ (valstatWord o v m k).getLsbD 7 = false := by
  revert o v m k; decide

/-- The mask of a kind has that kind's bit and no other (R45). -/
theorem kindBit_bit (k j : Kind) : (kindBit k).getLsbD j.number.toNat = decide (j = k) := by
  have key : ∀ k ∈ Kind.all, ∀ j ∈ Kind.all, (kindBit k).getLsbD j.number.toNat = decide (j = k) := by decide +kernel
  exact key k (by cases k <;> decide) j (by cases j <;> decide)

/-- Setting the bit of one kind leaves the others (R45). -/
theorem setDecoded_bit (v : Byte) (k j : Kind) :
    (setDecoded v k).getLsbD j.number.toNat = if j = k then true else v.getLsbD j.number.toNat := by
  rw [setDecoded, BitVec.getLsbD_or, kindBit_bit]
  by_cases h : j = k <;> simp [h]

/-- Clearing the bit of one kind leaves the others (R45). -/
theorem clearDecoded_bit (v : Byte) (k j : Kind) :
    (clearDecoded v k).getLsbD j.number.toNat = if j = k then false else v.getLsbD j.number.toNat := by
  have hj : j.number.toNat < 8 := j.number.isLt
  rw [clearDecoded, BitVec.getLsbD_and, BitVec.getLsbD_not, kindBit_bit]
  by_cases h : j = k <;> simp [h, hj]

/-- An accumulator that is not frozen has all three flags at 0 (R286). -/
theorem flags_of_not_frozen {s : State} (h : s.frozen = false) :
    s.rxDone = false ∧ s.rxTimedOut = false ∧ s.rxOverflowed = false := by
  simpa [State.frozen, and_assoc] using h

end Sys2Proof.Machine
end

