-- ==== Sys2Proof/Laws/Memory.lean ====
section
/-! SUPPORT. The laws of the two buffers: read after write, the canonical form kept by every write, strings. -/

namespace Sys2Proof.Machine

theorem Memory.wf_nil : Memory.wf [] := by
  simp [Memory.wf]

theorem Memory.wf_tail {c : Host.Cell} {m : Memory} (h : Memory.wf (c :: m)) : Memory.wf m :=
  ⟨(List.pairwise_cons.mp h.1).2, fun d hd => h.2 d (List.mem_cons_of_mem _ hd)⟩

@[simp] theorem Memory.read_nil (i : Nat) : Memory.read [] i = 0#8 := rfl

/-- An index that no cell lists reads 0x00. -/
theorem Memory.read_unlisted {m : Memory} {i : Nat} (h : ∀ c ∈ m, c.1 ≠ i) : m.read i = 0#8 := by
  induction m with
  | nil => rfl
  | cons c m ih =>
    have hc : i ≠ c.1 := fun e => h c (List.mem_cons_self ..) e.symm
    simp only [Memory.read, if_neg hc]
    exact ih fun d hd => h d (List.mem_cons_of_mem _ hd)

/-- In canonical form, everything after a cell lies above it. -/
theorem Memory.above_of_wf {c : Host.Cell} {m : Memory} (h : Memory.wf (c :: m)) : ∀ d ∈ m, c.1 < d.1 :=
  (List.pairwise_cons.mp h.1).1

/-- A write leaves every other index alone. -/
theorem Memory.read_write_other (m : Memory) {i j : Nat} (b : Byte) (h : j ≠ i) : (m.write i b).read j = m.read j := by
  induction m with
  | nil => unfold Memory.write; split <;> simp [Memory.read, h]
  | cons c m ih =>
    obtain ⟨k, v⟩ := c
    unfold Memory.write
    split
    · split <;> simp [Memory.read, h]
    · split
      · subst k; split <;> simp [Memory.read, h]
      · simp [Memory.read, ih]

/-- A byte other than 0x00 is read back where it was written, whatever the buffer holds. -/
theorem Memory.read_write_nonzero (m : Memory) (i : Nat) {b : Byte} (h : b ≠ 0#8) : (m.write i b).read i = b := by
  induction m with
  | nil => simp [Memory.write, Memory.read, h]
  | cons c m ih =>
    obtain ⟨k, v⟩ := c
    unfold Memory.write
    split
    · simp [Memory.read]
    · split
      · simp [Memory.read]
      · simp_all [Memory.read]

/-- In canonical form, every byte is read back where it was written. -/
theorem Memory.read_write_same {m : Memory} (hm : m.wf) (i : Nat) (b : Byte) : (m.write i b).read i = b := by
  by_cases hb : b = 0#8
  · subst hb
    induction m with
    | nil => simp [Memory.write]
    | cons c m ih =>
      obtain ⟨k, v⟩ := c
      have above := Memory.above_of_wf hm
      unfold Memory.write
      split
      · rename_i hlt
        rw [if_pos rfl]
        refine Memory.read_unlisted fun d hd => ?_
        rcases List.mem_cons.mp hd with rfl | hd
        · exact Nat.ne_of_gt hlt
        · exact Nat.ne_of_gt (Nat.lt_trans hlt (above d hd))
      · split
        · subst k
          rw [if_pos rfl]
          exact Memory.read_unlisted fun d hd => Nat.ne_of_gt (above d hd)
        · rename_i hne
          simp only [Memory.read, if_neg hne]
          exact ih (Memory.wf_tail hm)
  · exact Memory.read_write_nonzero m i hb

/-- The indices a buffer lists after a write: the old ones and the written one. -/
theorem Memory.mem_write {m : Memory} {i : Nat} {b : Byte} {c : Host.Cell} (h : c ∈ m.write i b) :
    c ∈ m ∨ c = (i, b) ∧ b ≠ 0#8 := by
  induction m with
  | nil =>
    unfold Memory.write at h
    split at h <;> simp_all
  | cons d m ih =>
    obtain ⟨k, v⟩ := d
    unfold Memory.write at h
    split at h
    · split at h
      · exact .inl h
      · rcases List.mem_cons.mp h with rfl | h
        · exact .inr ⟨rfl, ‹_›⟩
        · exact .inl h
    · split at h
      · split at h
        · exact .inl (List.mem_cons_of_mem _ h)
        · rcases List.mem_cons.mp h with rfl | h
          · exact .inr ⟨rfl, ‹_›⟩
          · exact .inl (List.mem_cons_of_mem _ h)
      · rcases List.mem_cons.mp h with rfl | h
        · exact .inl (List.mem_cons_self ..)
        · exact (ih h).imp (List.mem_cons_of_mem _) id

/-- A write keeps the canonical form. -/
theorem Memory.wf_write {m : Memory} (hm : m.wf) (i : Nat) (b : Byte) : (m.write i b).wf := by
  induction m with
  | nil => unfold Memory.write; split <;> simp_all [Memory.wf]
  | cons c m ih =>
    obtain ⟨k, v⟩ := c
    have above := Memory.above_of_wf hm
    have ht := Memory.wf_tail hm
    have hv : v ≠ 0#8 := hm.2 (k, v) (List.mem_cons_self ..)
    unfold Memory.write
    split
    · rename_i hlt
      split
      · exact hm
      · rename_i hb
        refine ⟨List.pairwise_cons.mpr ⟨fun d hd => ?_, hm.1⟩, fun d hd => ?_⟩
        · rcases List.mem_cons.mp hd with rfl | hd
          · exact hlt
          · exact Nat.lt_trans hlt (above d hd)
        · rcases List.mem_cons.mp hd with rfl | hd
          · exact hb
          · exact hm.2 d hd
    · split
      · rename_i heq
        subst heq
        split
        · exact ht
        · rename_i hb
          refine ⟨List.pairwise_cons.mpr ⟨above, ht.1⟩, fun d hd => ?_⟩
          rcases List.mem_cons.mp hd with rfl | hd
          · exact hb
          · exact ht.2 d hd
      · have ih' := ih ht
        refine ⟨List.pairwise_cons.mpr ⟨fun d hd => ?_, ih'.1⟩, fun d hd => ?_⟩
        · rcases Memory.mem_write hd with hd | ⟨rfl, -⟩
          · exact above d hd
          · show k < i; omega
        · rcases List.mem_cons.mp hd with rfl | hd
          · exact hv
          · exact ih'.2 d hd

/-- A write within a space of `n` indices stays within it. -/
theorem Memory.space_write {m : Memory} {n i : Nat} (b : Byte) (hm : ∀ c ∈ m, c.1 < n) (hi : i < n) :
    ∀ c ∈ m.write i b, c.1 < n := by
  intro c hc
  rcases Memory.mem_write hc with hc | ⟨rfl, -⟩
  · exact hm c hc
  · exact hi

/-- Buffers in canonical form are equal when they read equal. -/
theorem Memory.ext_of_wf {m m' : Memory} (hm : m.wf) (hm' : m'.wf) (h : ∀ i, m.read i = m'.read i) : m = m' := by
  induction m generalizing m' with
  | nil =>
    cases m' with
    | nil => rfl
    | cons d m' =>
      have := h d.1
      simp [Memory.read] at this
      exact absurd this.symm (hm'.2 d (List.mem_cons_self ..))
  | cons c m ih =>
    cases m' with
    | nil =>
      have := h c.1
      simp [Memory.read] at this
      exact absurd this (hm.2 c (List.mem_cons_self ..))
    | cons d m' =>
      obtain ⟨i, v⟩ := c
      obtain ⟨j, u⟩ := d
      have hv : v ≠ 0#8 := hm.2 (i, v) (List.mem_cons_self ..)
      have hu : u ≠ 0#8 := hm'.2 (j, u) (List.mem_cons_self ..)
      have above := Memory.above_of_wf hm
      have above' := Memory.above_of_wf hm'
      have hij : i = j := by
        rcases Nat.lt_trichotomy i j with hlt | heq | hgt
        · have h1 : Memory.read ((j, u) :: m') i = 0#8 := by
            refine Memory.read_unlisted fun d hd => ?_
            rcases List.mem_cons.mp hd with rfl | hd
            · exact Nat.ne_of_gt hlt
            · exact Nat.ne_of_gt (Nat.lt_trans hlt (above' d hd))
          have h2 := h i
          rw [h1] at h2
          simp [Memory.read] at h2
          exact absurd h2 hv
        · exact heq
        · have h1 : Memory.read ((i, v) :: m) j = 0#8 := by
            refine Memory.read_unlisted fun d hd => ?_
            rcases List.mem_cons.mp hd with rfl | hd
            · exact Nat.ne_of_gt hgt
            · exact Nat.ne_of_gt (Nat.lt_trans hgt (above d hd))
          have h2 := h j
          rw [h1] at h2
          simp [Memory.read] at h2
          exact absurd h2.symm hu
      subst hij
      have hvu : v = u := by simpa [Memory.read] using h i
      subst hvu
      congr 1
      refine ih (Memory.wf_tail hm) (Memory.wf_tail hm') fun k => ?_
      by_cases hk : k = i
      · subst hk
        rw [Memory.read_unlisted fun d hd => Nat.ne_of_gt (above d hd),
          Memory.read_unlisted fun d hd => Nat.ne_of_gt (above' d hd)]
      · simpa [Memory.read, hk] using h k

/-! ### Strings -/

@[simp] theorem Memory.length_readString (m : Memory) (i w : Nat) : (m.readString i w).length = w := by
  simp [Memory.readString]

@[simp] theorem Memory.getElem_readString (m : Memory) (i w j : Nat) (h : j < (m.readString i w).length) :
    (m.readString i w)[j] = m.read (i + j) := by
  simp [Memory.readString]

/-- A string read depends on the bytes it covers only. -/
theorem Memory.readString_congr {m m' : Memory} {i w : Nat} (h : ∀ j < w, m.read (i + j) = m'.read (i + j)) :
    m.readString i w = m'.readString i w := by
  simp only [Memory.readString]
  exact List.map_congr_left fun j hj => h j (List.mem_range.mp hj)

/-- A slice of a string read is a string read. -/
theorem Memory.slice_readString (m : Memory) {i w a n : Nat} (h : a + n ≤ w) :
    slice (m.readString i w) a n = m.readString (i + a) n := by
  apply List.ext_getElem
  · simp [slice]; omega
  · intro j h1 h2
    simp [slice, Nat.add_assoc]

theorem Memory.wf_writeString {m : Memory} (hm : m.wf) (i : Nat) (bs : List Byte) : (m.writeString i bs).wf := by
  induction bs generalizing m i with
  | nil => exact hm
  | cons b bs ih => exact ih (Memory.wf_write hm i b) (i + 1)

theorem Memory.space_writeString {m : Memory} {n i : Nat} (bs : List Byte) (hm : ∀ c ∈ m, c.1 < n)
    (hi : i + bs.length ≤ n) : ∀ c ∈ m.writeString i bs, c.1 < n := by
  induction bs generalizing m i with
  | nil => exact hm
  | cons b bs ih =>
    simp only [List.length_cons] at hi
    exact ih (Memory.space_write b hm (by omega)) (by omega)

/-- A string write leaves every index outside it alone. -/
theorem Memory.read_writeString_other (m : Memory) {i j : Nat} (bs : List Byte) (h : j < i ∨ i + bs.length ≤ j) :
    (m.writeString i bs).read j = m.read j := by
  induction bs generalizing m i with
  | nil => rfl
  | cons b bs ih =>
    simp only [List.length_cons] at h
    rw [Memory.writeString, ih _ (by omega), Memory.read_write_other _ _ (by omega)]

/-- A string without 0x00 is read back where it was written. -/
theorem Memory.read_writeString_at (m : Memory) (i : Nat) {bs : List Byte} (hb : ∀ b ∈ bs, b ≠ 0#8) {j : Nat}
    (h : j < bs.length) : (m.writeString i bs).read (i + j) = bs[j] := by
  induction bs generalizing m i j with
  | nil => simp at h
  | cons b bs ih =>
    rw [Memory.writeString]
    cases j with
    | zero =>
      rw [Memory.read_writeString_other _ _ (by omega)]
      simpa using Memory.read_write_nonzero m i (hb b (List.mem_cons_self ..))
    | succ j =>
      have := ih (m.write i b) (i + 1) (fun c hc => hb c (List.mem_cons_of_mem _ hc)) (by simpa using h)
      rw [show i + (j + 1) = i + 1 + j by omega]
      simpa using this

theorem Memory.readString_writeString (m : Memory) (i : Nat) {bs : List Byte} (hb : ∀ b ∈ bs, b ≠ 0#8) :
    (m.writeString i bs).readString i bs.length = bs := by
  apply List.ext_getElem
  · simp
  · intro j h1 h2
    rw [Memory.getElem_readString]
    exact Memory.read_writeString_at m i hb h2

end Sys2Proof.Machine
end

