-- ==== Sys2Proof/Laws/Operands.lean ====
section
/-! SUPPORT. What each field read answers, once: a value exactly when the field is there and spelled in hex digits. -/

namespace Sys2Proof.Machine

theorem memRead_of_le {s : State} {off w : Nat} (h : off + w ≤ s.rxLen.toNat) :
    memRead s off w = some (s.rxbuf.readString off w) :=
  if_pos h

theorem memRead_of_lt {s : State} {off w : Nat} (h : s.rxLen.toNat < off + w) : memRead s off w = none :=
  if_neg (by omega)

/-- A hex field has a value only inside the received frame (R212). -/
theorem hexField_le {s : State} {off w v : Nat} (h : hexField s off w = some v) : off + w ≤ s.rxLen.toNat := by
  by_contra hc
  simp [hexField, memRead_of_lt (show s.rxLen.toNat < off + w by omega)] at h

theorem hexField_lt {s : State} {off w v : Nat} (h : hexField s off w = some v) : v < 16 ^ w := by
  have hle := hexField_le h
  simp only [hexField, memRead_of_le hle, Option.bind_some] at h
  simpa using hexval_lt h

theorem readDigits_ok {off acc v : Nat} {t : List Byte} :
    readDigits off acc t = .ok v ↔ hexvalFrom acc t = some v := by
  induction t generalizing off acc with
  | nil => simp [readDigits]
  | cons c cs ih =>
    rw [readDigits, hexvalFrom]
    cases hexdig c with
    | none => simp
    | some d => simpa using ih

/-- The only failure of reading digits is BAD_HEX_DIGIT. -/
theorem readDigits_error {off acc : Nat} {t : List Byte} {e : Raised} (h : readDigits off acc t = .error e) :
    e.code = .badHexDigit := by
  induction t generalizing off acc with
  | nil => simp [readDigits] at h
  | cons c cs ih =>
    rw [readDigits] at h
    cases hd : hexdig c with
    | none => simp [hd] at h; subst h; rfl
    | some d => exact ih (by simpa [hd] using h)

/-- `readHex` answers a value exactly where `hexField` has one (R212). -/
theorem readHex_ok {s : State} {off w v : Nat} : readHex s off w = .ok v ↔ hexField s off w = some v := by
  unfold readHex hexField
  cases memRead s off w with
  | none => simp
  | some t => simpa [hexval] using readDigits_ok

/-- The two failures of a hex field (R212). -/
theorem readHex_error {s : State} {off w : Nat} {e : Raised} (h : readHex s off w = .error e) :
    e.code = .decodeOverrun ∨ e.code = .badHexDigit := by
  unfold readHex at h
  cases hm : memRead s off w with
  | none => simp [hm, overrun] at h; subst h; exact .inl rfl
  | some t => exact .inr (readDigits_error (by simpa [hm] using h))

theorem readReg_of_hexField {n : Nat} {s : State} {off w v : Nat} (h : hexField s off w = some v) :
    readReg n s off w = .ok (BitVec.ofNat n v) := by
  simp [readReg, readHex_ok.mpr h, Except.map]

theorem readReg_error {n : Nat} {s : State} {off w : Nat} {e : Raised} (h : readReg n s off w = .error e) :
    e.code = .decodeOverrun ∨ e.code = .badHexDigit := by
  unfold readReg at h
  cases hr : readHex s off w with
  | ok v => simp [hr, Except.map] at h
  | error e' => simp [hr, Except.map] at h; subst h; exact readHex_error hr

/-- Elements that all read make the vector of them (R215). -/
theorem readVec_of_ok {α : Type} {n : Nat} {r : Nat → Except Raised α} {v : Nat → α} (h : ∀ i < n, r i = .ok (v i)) :
    readVec n r = .ok (Vector.ofFn fun i => v i) := by
  induction n with
  | zero => simp [readVec]
  | succ n ih =>
    rw [readVec, ih fun i hi => h i (by omega), h n (by omega)]
    simp [Vector.ofFn_succ]

theorem readVec_isOk {α : Type} {n : Nat} {r : Nat → Except Raised α} (h : ∀ j < n, ∃ x, r j = .ok x) :
    ∃ v, readVec n r = .ok v := by
  induction n with
  | zero => exact ⟨_, rfl⟩
  | succ n ih =>
    obtain ⟨v, hv⟩ := ih fun j hj => h j (by omega)
    obtain ⟨x, hx⟩ := h n (by omega)
    exact ⟨v.push x, by simp [readVec, hv, hx]⟩

/-- The first element that fails is the failure of the whole, whatever the later ones hold (R215). -/
theorem readVec_of_error {α : Type} {n i : Nat} {r : Nat → Except Raised α} {e : Raised} (hi : i < n)
    (h : ∀ j < i, ∃ x, r j = .ok x) (he : r i = .error e) : readVec n r = .error e := by
  induction n with
  | zero => omega
  | succ n ih =>
    rw [readVec]
    by_cases hin : i < n
    · rw [ih hin]
    · obtain rfl : i = n := by omega
      obtain ⟨v, hv⟩ := readVec_isOk h
      simp [hv, he]

/-- A failure of a vector is a failure of one of its elements. -/
theorem readVec_error {α : Type} {n : Nat} {r : Nat → Except Raised α} {e : Raised} (h : readVec n r = .error e) :
    ∃ i < n, r i = .error e := by
  induction n with
  | zero => simp [readVec] at h
  | succ n ih =>
    rw [readVec] at h
    cases hv : readVec n r with
    | error e' =>
      obtain ⟨i, hi, hr⟩ := ih (by simpa [hv] using h)
      exact ⟨i, by omega, hr⟩
    | ok v =>
      cases hx : r n with
      | error e' => exact ⟨n, by omega, by simpa [hv, hx] using h⟩
      | ok x => simp [hv, hx] at h

theorem readBytes_of_hexField {s : State} {off n : Nat} {v : Nat → Nat} (hle : off + 2 * n ≤ s.rxLen.toNat)
    (h : ∀ j < n, hexField s (off + 2 * j) 2 = some (v j)) :
    readBytes s off n = .ok (Vector.ofFn fun j => BitVec.ofNat 8 (v j)) := by
  rw [readBytes, memRead_of_le hle]
  exact readVec_of_ok fun j hj => readReg_of_hexField (h j hj)

/-- The whole byte-string field is checked before any character (R213). -/
theorem readBytes_of_overrun {s : State} {off n : Nat} (h : s.rxLen.toNat < off + 2 * n) :
    readBytes s off n = .error (overrun off) := by
  rw [readBytes, memRead_of_lt h]

theorem readBytes_error {s : State} {off n : Nat} {e : Raised} (h : readBytes s off n = .error e) :
    e.code = .decodeOverrun ∨ e.code = .badHexDigit := by
  unfold readBytes at h
  cases hm : memRead s off (2 * n) with
  | none => simp [hm, overrun] at h; subst h; exact .inl rfl
  | some t =>
    obtain ⟨i, -, hi⟩ := readVec_error (by simpa [hm] using h)
    exact readReg_error hi

/-- A zero run inside the frame answers whether every character is `0` (R214). -/
theorem zeroRun_of_le {s : State} {off w : Nat} (h : off + w ≤ s.rxLen.toNat) :
    zeroRun s off w = .ok (decide (∀ i < w, s.rxbuf.read (off + i) = zeroChar)) := by
  rw [zeroRun, memRead_of_le h]
  refine congrArg Except.ok ?_
  rw [Bool.eq_iff_iff]
  simp [Memory.readString]

theorem zeroRun_error {s : State} {off w : Nat} {e : Raised} (h : zeroRun s off w = .error e) :
    e.code = .decodeOverrun := by
  unfold zeroRun at h
  cases hm : memRead s off w with
  | none => simp [hm, overrun] at h; subst h; rfl
  | some t => simp [hm] at h

end Sys2Proof.Machine
end

