-- ==== Sys2Proof/Laws/OffsetTable.lean ====
section
/-! SUPPORT. The reads of each kind fail exactly as the offset table says: with the failure of its first failing row. -/

namespace Sys2Proof.Machine

/-- The failure an answer stands for. -/
def failureOf {α : Type} : Except Raised α → Option Raised
  | .error e => some e
  | .ok _ => none

@[simp] theorem failureOf_error {α : Type} (e : Raised) : failureOf (.error e : Except Raised α) = some e := rfl

@[simp] theorem failureOf_ok {α : Type} (x : α) : failureOf (.ok x : Except Raised α) = none := rfl

@[simp] theorem failureOf_pure {α : Type} (x : α) : failureOf (pure x : Except Raised α) = none := rfl

theorem failureOf_eq_none {α : Type} {x : Except Raised α} : failureOf x = none ↔ ∃ v, x = .ok v := by
  cases x <;> simp

theorem failureOf_eq_some {α : Type} {x : Except Raised α} {e : Raised} : failureOf x = some e ↔ x = .error e := by
  cases x <;> simp

@[simp] theorem failureOf_map {α β : Type} (f : α → β) (x : Except Raised α) : failureOf (x.map f) = failureOf x := by
  cases x <;> rfl

/-- A read and then another whose failure is `o` whatever the first answered. -/
theorem failureOf_bind {α β : Type} {x : Except Raised α} {f : α → Except Raised β} {o : Option Raised}
    (h : ∀ v, x = .ok v → failureOf (f v) = o) : failureOf (x >>= f) = (failureOf x).or o := by
  cases x with
  | error e => rfl
  | ok v => exact h v rfl

theorem failureOf_readVec {α : Type} (n : Nat) (r : Nat → Except Raised α) :
    failureOf (readVec n r) = (List.range n).findSome? fun i => failureOf (r i) := by
  induction n with
  | zero => rfl
  | succ n ih =>
    rw [readVec, List.range_succ, List.findSome?_append, ← ih]
    cases readVec n r with
    | error e => rfl
    | ok v => cases hx : r n <;> simp [hx]

/-- The bad digits of two runs side by side. -/
theorem firstBadDigit_add (s : State) (off a b : Nat) :
    firstBadDigit s off (a + b) = (firstBadDigit s off a).or (firstBadDigit s (off + a) b) := by
  simp only [firstBadDigit, List.range_add, List.find?_append, List.find?_map, Option.map_or, Option.map_map,
    Function.comp_def, Nat.add_assoc]

theorem failureOf_readDigits (s : State) (off acc w : Nat) :
    failureOf (readDigits off acc (s.rxbuf.readString off w)) = firstBadDigit s off w := by
  induction w generalizing off acc with
  | zero => rfl
  | succ w ih =>
    have hs : s.rxbuf.readString off (w + 1) = s.rxbuf.read off :: s.rxbuf.readString (off + 1) w := by
      simp [Memory.readString, List.range_succ_eq_map, Function.comp_def, Nat.add_assoc, Nat.add_comm 1]
    rw [hs, readDigits, Nat.add_comm w 1, firstBadDigit_add]
    cases hd : hexdig (s.rxbuf.read off) with
    | none => simp [firstBadDigit, hd]
    | some d => simp [firstBadDigit, hd, ih]

/-- `readHex` fails as a hex row does (R212). -/
theorem failureOf_readHex (s : State) (off w : Nat) : failureOf (readHex s off w) = (FieldRow.hex off w).failure s := by
  unfold readHex FieldRow.failure
  by_cases h : off + w ≤ s.rxLen.toNat
  · simp [memRead_of_le h, failureOf_readDigits, Nat.not_lt.mpr h]
  · simp [memRead_of_lt (Nat.not_le.mp h), Nat.not_le.mp h]

@[simp] theorem failureOf_readReg (n : Nat) (s : State) (off w : Nat) :
    failureOf (readReg n s off w) = (FieldRow.hex off w).failure s := by
  rw [readReg, failureOf_map, failureOf_readHex]

/-- `readBytes` fails as a byte-string row does (R213). -/
@[simp] theorem failureOf_readBytes (s : State) (off n : Nat) :
    failureOf (readBytes s off n) = (FieldRow.bytes off n).failure s := by
  unfold readBytes FieldRow.failure
  by_cases h : off + 2 * n ≤ s.rxLen.toNat
  · have hn : ∀ m ≤ n,
        ((List.range m).findSome? fun j => (FieldRow.hex (off + 2 * j) 2).failure s) = firstBadDigit s off (2 * m) := by
      intro m
      induction m with
      | zero => intro _; rfl
      | succ m ih =>
        intro hm
        have hj : ¬ s.rxLen.toNat < off + 2 * m + 2 := by omega
        rw [List.range_succ, List.findSome?_append, ih (by omega), show 2 * (m + 1) = 2 * m + 2 by ring, firstBadDigit_add]
        simp [FieldRow.failure, hj]
    simp only [memRead_of_le h, failureOf_readVec, failureOf_readReg, Nat.not_lt.mpr h, if_false]
    exact hn n le_rfl
  · simp [memRead_of_lt (Nat.not_le.mp h), Nat.not_le.mp h]

/-- `zeroRun` fails as a zero-run row does (R214). -/
@[simp] theorem failureOf_zeroRun (s : State) (off w : Nat) :
    failureOf (zeroRun s off w) = (FieldRow.zeros off w).failure s := by
  unfold zeroRun FieldRow.failure
  by_cases h : off + w ≤ s.rxLen.toNat
  · simp [memRead_of_le h, Nat.not_lt.mpr h]
  · simp [memRead_of_lt (Nat.not_le.mp h), Nat.not_le.mp h]

/-- The first failure of a row and those after it. -/
theorem findSome?_cons_or {α β : Type} (f : α → Option β) (a : α) (l : List α) :
    (a :: l).findSome? f = (f a).or (l.findSome? f) := by
  rw [List.findSome?_cons]
  cases f a <;> rfl

theorem findSome?_congr {α β : Type} {f g : α → Option β} {l : List α} (h : ∀ a ∈ l, f a = g a) :
    l.findSome? f = l.findSome? g := by
  induction l with
  | nil => rfl
  | cons a l ih =>
    rw [findSome?_cons_or, findSome?_cons_or, h a List.mem_cons_self, ih fun b hb => h b (List.mem_cons_of_mem _ hb)]

theorem failureOf_readSerialNumber (s : State) : failureOf (readSerialNumber s) = firstFailure s .serialNumber := by
  simp only [readSerialNumber, firstFailure, offsetTable, findSome?_cons_or]
  rw [← failureOf_readBytes]
  exact failureOf_bind fun _ _ => rfl

theorem failureOf_readManufacturerInfo (s : State) :
    failureOf (readManufacturerInfo s) = firstFailure s .manufacturerInfo := by
  simp only [readManufacturerInfo, firstFailure, offsetTable, findSome?_cons_or, ← failureOf_readBytes,
    ← failureOf_readReg 8]
  exact failureOf_bind fun _ _ => failureOf_bind fun _ _ => failureOf_bind fun _ _ => failureOf_bind fun _ _ => rfl

theorem failureOf_readProtocolVersion (s : State) :
    failureOf (readProtocolVersion s) = firstFailure s .protocolVersion := by
  simp only [readProtocolVersion, firstFailure, offsetTable, findSome?_cons_or, ← failureOf_readReg 4]
  exact failureOf_bind fun _ _ => failureOf_bind fun _ _ => rfl

theorem failureOf_readSoftwareVersion (s : State) :
    failureOf (readSoftwareVersion s) = firstFailure s .softwareVersion := by
  simp only [readSoftwareVersion, firstFailure, offsetTable, findSome?_cons_or, ← failureOf_readReg 8]
  exact failureOf_bind fun _ _ => failureOf_bind fun _ _ => failureOf_bind fun _ _ => failureOf_bind fun _ _ =>
    failureOf_bind fun _ _ => rfl

theorem failureOf_readSystemParameters (s : State) :
    failureOf (readSystemParameters s) = firstFailure s .systemParameters := by
  refine (failureOf_bind (o := none) fun _ _ => rfl).trans ?_
  simp [firstFailure, offsetTable, failureOf_readVec, List.findSome?_map, Function.comp_def]

theorem failureOf_readAlarmInfo (s : State) : failureOf (readAlarmInfo s) = firstFailure s .alarmInfo := by
  simp only [readAlarmInfo, firstFailure, offsetTable, findSome?_cons_or, ← failureOf_zeroRun, ← failureOf_readReg 8]
  exact failureOf_bind fun _ _ => failureOf_bind fun _ _ => failureOf_bind fun _ _ => failureOf_bind fun _ _ =>
    failureOf_bind fun _ _ => rfl

theorem failureOf_readChargeManagementInfo (s : State) :
    failureOf (readChargeManagementInfo s) = firstFailure s .chargeManagementInfo := by
  simp only [readChargeManagementInfo, firstFailure, offsetTable, findSome?_cons_or, ← failureOf_readReg 8 s 31,
    ← failureOf_readReg 16]
  exact failureOf_bind fun _ _ => failureOf_bind fun _ _ => failureOf_bind fun _ _ => failureOf_bind fun _ _ =>
    failureOf_bind fun _ _ => rfl

/-- The value a register read answers is the field's. -/
theorem fieldValue_of_readReg {n off w : Nat} {s : State} {v : BitVec n} (hw : 16 ^ w ≤ 2 ^ n)
    (h : readReg n s off w = .ok v) : fieldValue s off w = v.toNat := by
  rw [readReg] at h
  cases hx : readHex s off w with
  | error e => simp [hx, Except.map] at h
  | ok x =>
    obtain rfl : BitVec.ofNat n x = v := by simpa [hx, Except.map] using h
    have hv := readHex_ok.mp hx
    have := hexField_lt hv
    simp [fieldValue, hv, Nat.mod_eq_of_lt (show x < 2 ^ n by omega)]

/-- Cells from the count on are not read (R227). -/
theorem failureOf_readCells (s : State) (n : Nat) (hn : n ≤ 15) :
    failureOf (readVec 15 (readCell s n)) =
      ((List.range n).map fun i => FieldRow.hex (19 + 4 * i) 4).findSome? (·.failure s) := by
  obtain ⟨m, hm⟩ := Nat.le.dest hn
  rw [failureOf_readVec, ← hm, List.range_add, List.findSome?_append, List.findSome?_map, List.findSome?_map]
  have h1 : ((List.range n).findSome? fun i => failureOf (readCell s n i)) =
      (List.range n).findSome? ((fun r : FieldRow => r.failure s) ∘ fun i => FieldRow.hex (19 + 4 * i) 4) :=
    findSome?_congr fun i hi => by simp [readCell, List.mem_range.mp hi]
  have h2 : (List.range m).findSome? ((fun i => failureOf (readCell s n i)) ∘ fun i => n + i) = none := by
    simp [List.findSome?_eq_none_iff, readCell]
  rw [h1, h2, Option.or_none]

theorem failureOf_readCapacities (s : State) (udi : Byte) :
    failureOf (readCapacities s udi) = (capacityRows udi.toNat).findSome? (·.failure s) := by
  have e2 : udi = 2 ↔ udi.toNat = 2 := ⟨fun h => by rw [h]; rfl, fun h => BitVec.eq_of_toNat_eq h⟩
  have e4 : udi = 4 ↔ udi.toNat = 4 := ⟨fun h => by rw [h]; rfl, fun h => BitVec.eq_of_toNat_eq h⟩
  simp only [readCapacities, capacityRows, e2, e4]
  split
  · simp only [findSome?_cons_or, ← failureOf_readReg 24]
    exact failureOf_bind fun _ _ => failureOf_bind fun _ _ => rfl
  · split
    · simp only [findSome?_cons_or, ← failureOf_readReg 24]
      exact failureOf_bind fun _ _ => failureOf_bind fun _ _ => rfl
    · simp [FieldRow.failure]

/-- The temperatures are read in order from TEMP_BASE (R227). -/
theorem failureOf_readTemperatures (s : State) :
    failureOf (readVec 5 fun j => readReg 16 s (s.params.tempBase + 4 * j) 4) =
      ((List.range 5).map fun j => FieldRow.hex (s.params.tempBase + 4 * j) 4).findSome? (·.failure s) := by
  simp [failureOf_readVec, List.findSome?_map, Function.comp_def]

theorem failureOf_readAnalogValue (s : State) : failureOf (readAnalogValue s) = firstFailure s .analogValue := by
  simp only [firstFailure, offsetTable, List.findSome?_append, Option.or_assoc]
  simp only [findSome?_cons_or, List.findSome?_nil, Option.or_none, Option.or_assoc]
  refine (failureOf_bind fun cc hcc => ?_).trans (congrArg (Option.or · _) (failureOf_readReg 8 s 17 2))
  have hc := fieldValue_of_readReg (by decide) hcc
  rw [hc, ← cellsDecoded, ← failureOf_readCells s (cellsDecoded cc) (Nat.min_le_right ..), ← failureOf_readTemperatures]
  refine failureOf_bind (x := readVec 15 _) fun _ _ => failureOf_bind fun _ _ => ?_
  refine (failureOf_bind fun _ _ => ?_).trans (congrArg (Option.or · _) (failureOf_readReg 16 s 101 4))
  refine (failureOf_bind fun _ _ => ?_).trans (congrArg (Option.or · _) (failureOf_readReg 16 s 105 4))
  refine (failureOf_bind fun udi hudi => ?_).trans (congrArg (Option.or · _) (failureOf_readReg 8 s 113 2))
  rw [fieldValue_of_readReg (by decide) hudi, ← failureOf_readCapacities]
  exact (failureOf_bind (o := none) fun _ _ => rfl).trans Option.or_none

end Sys2Proof.Machine
end

