-- ==== Sys2Proof/Laws/State.lean ====
section
/-! SUPPORT. One lemma per field for the named updates of the state, each true by rfl: no later proof unfolds a record
update. Updates written `{ s with … }` in the meanings need none: their projections reduce by themselves. -/

namespace Sys2Proof.Machine

/-! ### Reset -/

@[simp] theorem State.resetWith_params (p : Params) : (State.resetWith p).params = p := rfl

@[simp] theorem State.resetWith_cmdIn (p : Params) : (State.resetWith p).cmdIn = [] := rfl

@[simp] theorem State.resetWith_txbuf (p : Params) : (State.resetWith p).txbuf = [] := rfl

@[simp] theorem State.resetWith_txLen (p : Params) : (State.resetWith p).txLen = 0 := rfl

@[simp] theorem State.resetWith_txChk (p : Params) : (State.resetWith p).txChk = 0 := rfl

@[simp] theorem State.resetWith_rxbuf (p : Params) : (State.resetWith p).rxbuf = [] := rfl

@[simp] theorem State.resetWith_rxLen (p : Params) : (State.resetWith p).rxLen = 0 := rfl

@[simp] theorem State.resetWith_rxstat (p : Params) : (State.resetWith p).rxstat = 0 := rfl

@[simp] theorem State.resetWith_status (p : Params) : (State.resetWith p).status = 0 := rfl

@[simp] theorem State.resetWith_rtn (p : Params) : (State.resetWith p).rtn = 0 := rfl

@[simp] theorem State.resetWith_valstat (p : Params) : (State.resetWith p).valstat = 0 := rfl

@[simp] theorem State.resetWith_rxChk (p : Params) : (State.resetWith p).rxChk = 0 := rfl

@[simp] theorem State.resetWith_decValid (p : Params) : (State.resetWith p).decValid = 0 := rfl

/-! ### Clearing VALIDATE's results -/

@[simp] theorem clearResults_params (s : State) : (clearResults s).params = s.params := rfl

@[simp] theorem clearResults_cmdIn (s : State) : (clearResults s).cmdIn = s.cmdIn := rfl

@[simp] theorem clearResults_txbuf (s : State) : (clearResults s).txbuf = s.txbuf := rfl

@[simp] theorem clearResults_txLen (s : State) : (clearResults s).txLen = s.txLen := rfl

@[simp] theorem clearResults_txChk (s : State) : (clearResults s).txChk = s.txChk := rfl

@[simp] theorem clearResults_rxbuf (s : State) : (clearResults s).rxbuf = s.rxbuf := rfl

@[simp] theorem clearResults_rxLen (s : State) : (clearResults s).rxLen = s.rxLen := rfl

@[simp] theorem clearResults_rxstat (s : State) : (clearResults s).rxstat = s.rxstat := rfl

@[simp] theorem clearResults_status (s : State) : (clearResults s).status = s.status := rfl

@[simp] theorem clearResults_rtn (s : State) : (clearResults s).rtn = 0 := rfl

@[simp] theorem clearResults_valstat (s : State) : (clearResults s).valstat = 0 := rfl

@[simp] theorem clearResults_rxChk (s : State) : (clearResults s).rxChk = 0 := rfl

@[simp] theorem clearResults_decValid (s : State) : (clearResults s).decValid = s.decValid := rfl

@[simp] theorem clearResults_serialNumber (s : State) : (clearResults s).serialNumber = s.serialNumber := rfl

@[simp] theorem clearResults_manufacturerInfo (s : State) : (clearResults s).manufacturerInfo = s.manufacturerInfo := rfl

@[simp] theorem clearResults_protocolVersion (s : State) : (clearResults s).protocolVersion = s.protocolVersion := rfl

@[simp] theorem clearResults_softwareVersion (s : State) : (clearResults s).softwareVersion = s.softwareVersion := rfl

@[simp] theorem clearResults_systemParameters (s : State) : (clearResults s).systemParameters = s.systemParameters := rfl

@[simp] theorem clearResults_alarmInfo (s : State) : (clearResults s).alarmInfo = s.alarmInfo := rfl

@[simp] theorem clearResults_chargeManagementInfo (s : State) : (clearResults s).chargeManagementInfo = s.chargeManagementInfo := rfl

@[simp] theorem clearResults_analogValue (s : State) : (clearResults s).analogValue = s.analogValue := rfl

@[simp] theorem clearResults_rxDone (s : State) : (clearResults s).rxDone = s.rxDone := rfl

@[simp] theorem clearResults_rxTimedOut (s : State) : (clearResults s).rxTimedOut = s.rxTimedOut := rfl

@[simp] theorem clearResults_rxOverflowed (s : State) : (clearResults s).rxOverflowed = s.rxOverflowed := rfl

@[simp] theorem clearResults_rxFrame (s : State) : (clearResults s).rxFrame = s.rxFrame := rfl

/-! ### Recording the response checksum -/

@[simp] theorem recordChecksum_params (f : List Byte) (s : State) : (recordChecksum f s).params = s.params := by
  unfold recordChecksum; split <;> rfl

@[simp] theorem recordChecksum_cmdIn (f : List Byte) (s : State) : (recordChecksum f s).cmdIn = s.cmdIn := by
  unfold recordChecksum; split <;> rfl

@[simp] theorem recordChecksum_txbuf (f : List Byte) (s : State) : (recordChecksum f s).txbuf = s.txbuf := by
  unfold recordChecksum; split <;> rfl

@[simp] theorem recordChecksum_txLen (f : List Byte) (s : State) : (recordChecksum f s).txLen = s.txLen := by
  unfold recordChecksum; split <;> rfl

@[simp] theorem recordChecksum_txChk (f : List Byte) (s : State) : (recordChecksum f s).txChk = s.txChk := by
  unfold recordChecksum; split <;> rfl

@[simp] theorem recordChecksum_rxbuf (f : List Byte) (s : State) : (recordChecksum f s).rxbuf = s.rxbuf := by
  unfold recordChecksum; split <;> rfl

@[simp] theorem recordChecksum_rxLen (f : List Byte) (s : State) : (recordChecksum f s).rxLen = s.rxLen := by
  unfold recordChecksum; split <;> rfl

@[simp] theorem recordChecksum_rxstat (f : List Byte) (s : State) : (recordChecksum f s).rxstat = s.rxstat := by
  unfold recordChecksum; split <;> rfl

@[simp] theorem recordChecksum_status (f : List Byte) (s : State) : (recordChecksum f s).status = s.status := by
  unfold recordChecksum; split <;> rfl

@[simp] theorem recordChecksum_rtn (f : List Byte) (s : State) : (recordChecksum f s).rtn = s.rtn := by
  unfold recordChecksum; split <;> rfl

@[simp] theorem recordChecksum_decValid (f : List Byte) (s : State) : (recordChecksum f s).decValid = s.decValid := by
  unfold recordChecksum; split <;> rfl

@[simp] theorem recordChecksum_serialNumber (f : List Byte) (s : State) : (recordChecksum f s).serialNumber = s.serialNumber := by
  unfold recordChecksum; split <;> rfl

@[simp] theorem recordChecksum_manufacturerInfo (f : List Byte) (s : State) : (recordChecksum f s).manufacturerInfo = s.manufacturerInfo := by
  unfold recordChecksum; split <;> rfl

@[simp] theorem recordChecksum_protocolVersion (f : List Byte) (s : State) : (recordChecksum f s).protocolVersion = s.protocolVersion := by
  unfold recordChecksum; split <;> rfl

@[simp] theorem recordChecksum_softwareVersion (f : List Byte) (s : State) : (recordChecksum f s).softwareVersion = s.softwareVersion := by
  unfold recordChecksum; split <;> rfl

@[simp] theorem recordChecksum_systemParameters (f : List Byte) (s : State) : (recordChecksum f s).systemParameters = s.systemParameters := by
  unfold recordChecksum; split <;> rfl

@[simp] theorem recordChecksum_alarmInfo (f : List Byte) (s : State) : (recordChecksum f s).alarmInfo = s.alarmInfo := by
  unfold recordChecksum; split <;> rfl

@[simp] theorem recordChecksum_chargeManagementInfo (f : List Byte) (s : State) : (recordChecksum f s).chargeManagementInfo = s.chargeManagementInfo := by
  unfold recordChecksum; split <;> rfl

@[simp] theorem recordChecksum_analogValue (f : List Byte) (s : State) : (recordChecksum f s).analogValue = s.analogValue := by
  unfold recordChecksum; split <;> rfl

theorem recordChecksum_of_long {f : List Byte} (s : State) (h : 6 ≤ f.length) :
    recordChecksum f s =
      { s with rxChk := checksum (checkedChars f), valstat := valstatWord false true (checksumMatches f) 0 } :=
  if_pos h

theorem recordChecksum_of_short {f : List Byte} (s : State) (h : ¬ 6 ≤ f.length) : recordChecksum f s = s :=
  if_neg h

/-! ### Taking and placing a command word -/

@[simp] theorem placeCommand_params (s : State) (w : Word16) : (placeCommand s w).params = s.params := rfl

@[simp] theorem placeCommand_cmdIn (s : State) (w : Word16) : (placeCommand s w).cmdIn = w :: s.cmdIn := rfl

@[simp] theorem placeCommand_txbuf (s : State) (w : Word16) : (placeCommand s w).txbuf = s.txbuf := rfl

@[simp] theorem placeCommand_txLen (s : State) (w : Word16) : (placeCommand s w).txLen = s.txLen := rfl

@[simp] theorem placeCommand_txChk (s : State) (w : Word16) : (placeCommand s w).txChk = s.txChk := rfl

@[simp] theorem placeCommand_rxbuf (s : State) (w : Word16) : (placeCommand s w).rxbuf = s.rxbuf := rfl

@[simp] theorem placeCommand_rxLen (s : State) (w : Word16) : (placeCommand s w).rxLen = s.rxLen := rfl

@[simp] theorem placeCommand_rxstat (s : State) (w : Word16) : (placeCommand s w).rxstat = s.rxstat := rfl

@[simp] theorem placeCommand_status (s : State) (w : Word16) : (placeCommand s w).status = s.status := rfl

@[simp] theorem placeCommand_rtn (s : State) (w : Word16) : (placeCommand s w).rtn = s.rtn := rfl

@[simp] theorem placeCommand_valstat (s : State) (w : Word16) : (placeCommand s w).valstat = s.valstat := rfl

@[simp] theorem placeCommand_rxChk (s : State) (w : Word16) : (placeCommand s w).rxChk = s.rxChk := rfl

@[simp] theorem placeCommand_decValid (s : State) (w : Word16) : (placeCommand s w).decValid = s.decValid := rfl

@[simp] theorem placeCommand_serialNumber (s : State) (w : Word16) : (placeCommand s w).serialNumber = s.serialNumber := rfl

@[simp] theorem placeCommand_manufacturerInfo (s : State) (w : Word16) : (placeCommand s w).manufacturerInfo = s.manufacturerInfo := rfl

@[simp] theorem placeCommand_protocolVersion (s : State) (w : Word16) : (placeCommand s w).protocolVersion = s.protocolVersion := rfl

@[simp] theorem placeCommand_softwareVersion (s : State) (w : Word16) : (placeCommand s w).softwareVersion = s.softwareVersion := rfl

@[simp] theorem placeCommand_systemParameters (s : State) (w : Word16) : (placeCommand s w).systemParameters = s.systemParameters := rfl

@[simp] theorem placeCommand_alarmInfo (s : State) (w : Word16) : (placeCommand s w).alarmInfo = s.alarmInfo := rfl

@[simp] theorem placeCommand_chargeManagementInfo (s : State) (w : Word16) : (placeCommand s w).chargeManagementInfo = s.chargeManagementInfo := rfl

@[simp] theorem placeCommand_analogValue (s : State) (w : Word16) : (placeCommand s w).analogValue = s.analogValue := rfl

theorem fetch_cons {s : State} {w : Word16} {ws : List Word16} (h : s.cmdIn = w :: ws) :
    fetch s = some (w, { s with cmdIn := ws }) := by
  simp [fetch, h]

theorem fetch_nil {s : State} (h : s.cmdIn = []) : fetch s = none := by
  simp [fetch, h]

theorem fetch_placeCommand (s : State) (w : Word16) : fetch (placeCommand s w) = some (w, s) := rfl

/-! ### Ending a command -/

@[simp] theorem raise_eq (c : StatusCode) (aux : Word16) (s : State) :
    raise c aux s = .next { s with status := statusWord c aux } := rfl

@[simp] theorem ok_eq (s : State) : ok s = .next { s with status := statusWord .ok 0 } := rfl

end Sys2Proof.Machine
end

