-- ==== Sys2Proof/Laws/Exec.lean ====
section
/-! SUPPORT. What each meaning can do, said once: one equation or one inversion lemma per command, which later proofs cite
instead of unfolding the meaning. -/

namespace Sys2Proof.Machine

/-! ### BUILD -/

theorem buildRequest_of_supported {k : Kind} {a : Byte} {s : State} (h : addressSupported s.params a = true) :
    buildRequest k a s =
      .next { s with
        txbuf := s.txbuf.writeString 0 (requestFrame s.params.cidTable k a), txLen := 20,
        txChk := requestChecksum s.params.cidTable k a, status := statusWord .ok 0 } := by
  simp [buildRequest, h]

theorem buildRequest_of_unsupported {k : Kind} {a : Byte} {s : State} (h : addressSupported s.params a = false) :
    buildRequest k a s =
      .next { s with txLen := 0, status := statusWord .invalidAddress (a.setWidth 16) } := by
  simp [buildRequest, h]

/-- A request row does what BUILD of its kind does (log entry 2). -/
theorem exec_requestInstr (k : Kind) (a : Byte) (s : State) : exec (requestInstr k a) s = buildRequest k a s := by
  cases k <;> rfl

/-- The frame is read back whole from TXBUF (R104). -/
theorem txFrame_written (m : Memory) (cids : PerKind CidPair) (k : Kind) (a : Byte) :
    (m.writeString 0 (requestFrame cids k a)).readString 0 20 = requestFrame cids k a := by
  have := Memory.readString_writeString m 0 (requestFrame_ne_zero (cids := cids) (k := k) (a := a))
  rwa [length_requestFrame] at this

/-! ### Reception -/

theorem execRxByte_of_frozen {b : Byte} {s : State} (h : s.frozen = true) : execRxByte b s = .next s := by
  simp [execRxByte, h]

theorem execRxByte_of_noise {b : Byte} {s : State} (h : inAlphabet b = false) : execRxByte b s = .next s := by
  simp [execRxByte, h]

theorem execRxByte_of_full {b : Byte} {s : State} (hf : s.frozen = false) (hb : inAlphabet b = true)
    (h : s.rxLen = s.params.rxMax) :
    execRxByte b s =
      .next { s with rxstat := setOverflow s.rxstat, status := statusWord .rxOverflow (b.setWidth 16) } := by
  simp [execRxByte, hf, hb, h]

theorem execRxByte_of_room {b : Byte} {s : State} (hf : s.frozen = false) (hb : inAlphabet b = true)
    (h : s.rxLen.toNat < s.params.rxMax.toNat) :
    execRxByte b s =
      .next { s with
        rxbuf := s.rxbuf.write s.rxLen.toNat b, rxLen := s.rxLen + 1,
        rxstat := if b = cr then setDone s.rxstat else s.rxstat } := by
  have hne : s.rxLen ≠ s.params.rxMax := fun e => by simp [e] at h
  simp [execRxByte, appendByte, hf, hb, hne, h]

/-- The three things RX_BYTE can do (R281). -/
theorem execRxByte_cases {b : Byte} {s t : State} (h : execRxByte b s = .next t) :
    t = s ∨
    (s.frozen = false ∧ inAlphabet b = true ∧ s.rxLen = s.params.rxMax ∧
      t = { s with rxstat := setOverflow s.rxstat, status := statusWord .rxOverflow (b.setWidth 16) }) ∨
    (s.frozen = false ∧ inAlphabet b = true ∧ s.rxLen.toNat < s.params.rxMax.toNat ∧
      t = { s with
        rxbuf := s.rxbuf.write s.rxLen.toNat b, rxLen := s.rxLen + 1,
        rxstat := if b = cr then setDone s.rxstat else s.rxstat }) := by
  cases hf : s.frozen with
  | true => rw [execRxByte_of_frozen hf] at h; cases h; exact .inl rfl
  | false =>
    cases hb : inAlphabet b with
    | false => rw [execRxByte_of_noise hb] at h; cases h; exact .inl rfl
    | true =>
      by_cases hm : s.rxLen = s.params.rxMax
      · rw [execRxByte_of_full hf hb hm] at h; cases h; exact .inr (.inl ⟨rfl, rfl, hm, rfl⟩)
      · by_cases hl : s.rxLen.toNat < s.params.rxMax.toNat
        · rw [execRxByte_of_room hf hb hl] at h; cases h; exact .inr (.inr ⟨rfl, rfl, hl, rfl⟩)
        · simp [execRxByte, appendByte, hf, hb, hm, hl] at h

theorem execRxTimeout_of_frozen {s : State} (h : s.frozen = true) : execRxTimeout s = .next s := by
  simp [execRxTimeout, h]

theorem execRxTimeout_of_open {s : State} (h : s.frozen = false) :
    execRxTimeout s = .next { s with rxstat := setTimeout s.rxstat, status := statusWord .readTimeout 0 } := by
  simp [execRxTimeout, h]

/-! ### VALIDATE -/

theorem withRxFrame_of_le {s : State} {o : Outcome} (h : s.rxLen.toNat ≤ s.params.rxMax.toNat) :
    withRxFrame s o = o := by
  simp [withRxFrame, State.missingElement, h]

theorem withRxFrame_of_lt {s : State} {o : Outcome} (h : s.params.rxMax.toNat < s.rxLen.toNat) :
    withRxFrame s o = .fault (.rxbufElement s.params.rxMax.toNat) := by
  simp [withRxFrame, State.missingElement, Nat.not_le.mpr h]

theorem withRxFrame_next {s t : State} {o : Outcome} (h : withRxFrame s o = .next t) :
    s.rxLen.toNat ≤ s.params.rxMax.toNat ∧ o = .next t := by
  by_cases hl : s.rxLen.toNat ≤ s.params.rxMax.toNat
  · rw [withRxFrame_of_le hl] at h; exact ⟨hl, h⟩
  · rw [withRxFrame_of_lt (by omega)] at h; cases h

@[simp] theorem length_rxFrame (s : State) : s.rxFrame.length = s.rxLen.toNat := by
  simp [State.rxFrame]

/-- The state VALIDATE leaves when it ends with a code before or after the checksum step (R180). -/
theorem execValidate_of_overflow {k : Kind} {s : State} (h : s.rxOverflowed = true) :
    execValidate k s = .next { clearResults s with status := statusWord .rxOverflow 0 } := by
  simp [execValidate, h]

theorem execValidate_of_timeout {k : Kind} {s : State} (ho : s.rxOverflowed = false) (h : s.rxTimedOut = true) :
    execValidate k s = .next { clearResults s with status := statusWord .readTimeout 0 } := by
  simp [execValidate, ho, h]

theorem execValidate_of_open {k : Kind} {s : State} (ho : s.rxOverflowed = false) (ht : s.rxTimedOut = false)
    (hl : s.rxLen.toNat ≤ s.params.rxMax.toNat) :
    execValidate k s = validateFrame k s.rxFrame (clearResults s) := by
  simp [execValidate, ho, ht, withRxFrame_of_le (s := clearResults s) (by simpa using hl)]

theorem validateFrame_of_malformed {k : Kind} {f : List Byte} {s : State} (h : shapeOk f = false) :
    validateFrame k f s = .next { s with status := statusWord .malformed 0 } := by
  simp [validateFrame, h]

theorem validateFrame_of_short {k : Kind} {f : List Byte} {s : State} (h : shapeOk f = true)
    (hl : f.length < (s.params.minLen.get k).toNat) :
    validateFrame k f s = .next { recordChecksum f s with status := statusWord .tooShort (s.params.minLen.get k) } := by
  simp [validateFrame, h, hl]

theorem validateFrame_of_noCode {k : Kind} {f : List Byte} {s : State} (h : shapeOk f = true)
    (hl : (s.params.minLen.get k).toNat ≤ f.length) (hr : returnCode f = none) :
    validateFrame k f s = .next { recordChecksum f s with status := statusWord .unknownData 0 } := by
  simp [validateFrame, h, Nat.not_lt.mpr hl, hr]

theorem validateFrame_of_code {k : Kind} {f : List Byte} {s : State} {r : ReturnCode} (h : shapeOk f = true)
    (hl : (s.params.minLen.get k).toNat ≤ f.length) (hr : returnCode f = some r) :
    validateFrame k f s = classify k r (recordChecksum f s) := by
  simp [validateFrame, h, Nat.not_lt.mpr hl, hr]

theorem classify_of_normal {k : Kind} {s : State} :
    classify k ReturnCode.normal s =
      .next { s with
        rtn := rtnWord ReturnCode.normal, valstat := valstatWord true s.chkValid s.chkMatch k.number,
        status := statusWord .ok 0 } := by
  simp [classify, State.chkValid, State.chkMatch]

theorem classify_of_other {k : Kind} {r : ReturnCode} {s : State} (h : r ≠ ReturnCode.normal) :
    classify k r s =
      .next { s with
        rtn := rtnWord r,
        status := statusWord (if r ∈ s.params.rtnKnown then .deviceReported else .unknownData) 0 } := by
  by_cases hk : r ∈ s.params.rtnKnown <;> simp [classify, h, hk]

/-- The return code of a response of at least 10 characters is at offsets 7 and 8 (R183). -/
theorem returnCode_rxFrame {s : State} (h : 10 ≤ s.rxLen.toNat) :
    returnCode s.rxFrame = some ⟨s.rxbuf.read 7, s.rxbuf.read 8⟩ := by
  have hs : slice s.rxFrame 7 2 = [s.rxbuf.read 7, s.rxbuf.read 8] := by
    rw [State.rxFrame, Memory.slice_readString _ (by omega)]
    simp [Memory.readString, List.range_succ]
  simp [returnCode, hs, h]

theorem returnCode_of_short {f : List Byte} (h : f.length < 10) : returnCode f = none := by
  unfold returnCode
  split
  · rw [if_neg (by omega)]
  · rfl

/-- Recording the checksum changes RX_CHK and VALSTAT only, and never sets OK (R185). -/
theorem recordChecksum_frame (f : List Byte) (s : State) :
    recordChecksum f s =
      { s with rxChk := (recordChecksum f s).rxChk, valstat := (recordChecksum f s).valstat } := by
  unfold recordChecksum; split <;> rfl

theorem recordChecksum_valOk (f : List Byte) (s : State) : (recordChecksum f (clearResults s)).valOk = false := by
  unfold recordChecksum; split <;> simp [State.valOk]

/-- The ways VALIDATE can end (R180, R186): `f` is the response and `c` the state with the results cleared. -/
theorem execValidate_cases {k : Kind} {s t : State} (h : execValidate k s = .next t) :
    let f := s.rxFrame
    let c := clearResults s
    (s.rxOverflowed = true ∧ t = { c with status := statusWord .rxOverflow 0 }) ∨
    (s.rxOverflowed = false ∧ s.rxTimedOut = true ∧ t = { c with status := statusWord .readTimeout 0 }) ∨
    (s.rxOverflowed = false ∧ s.rxTimedOut = false ∧ s.rxLen.toNat ≤ s.params.rxMax.toNat ∧
      ((shapeOk f = false ∧ t = { c with status := statusWord .malformed 0 }) ∨
      (shapeOk f = true ∧
        ((f.length < (s.params.minLen.get k).toNat ∧
            t = { recordChecksum f c with status := statusWord .tooShort (s.params.minLen.get k) }) ∨
        ((s.params.minLen.get k).toNat ≤ f.length ∧
          ((f.length < 10 ∧ t = { recordChecksum f c with status := statusWord .unknownData 0 }) ∨
          (10 ≤ f.length ∧ returnCode f = some ReturnCode.normal ∧
            t = { recordChecksum f c with
              rtn := rtnWord ReturnCode.normal,
              valstat := valstatWord true (recordChecksum f c).chkValid (recordChecksum f c).chkMatch k.number,
              status := statusWord .ok 0 }) ∨
          (10 ≤ f.length ∧ ∃ r, returnCode f = some r ∧ r ≠ ReturnCode.normal ∧
            t = { recordChecksum f c with
              rtn := rtnWord r,
              status := statusWord (if r ∈ s.params.rtnKnown then .deviceReported else .unknownData) 0 }))))))) := by
  intro f c
  cases ho : s.rxOverflowed with
  | true => rw [execValidate_of_overflow ho] at h; cases h; exact .inl ⟨rfl, rfl⟩
  | false =>
    cases ht : s.rxTimedOut with
    | true => rw [execValidate_of_timeout ho ht] at h; cases h; exact .inr (.inl ⟨rfl, rfl, rfl⟩)
    | false =>
      by_cases hl : s.rxLen.toNat ≤ s.params.rxMax.toNat
      · refine .inr (.inr ⟨rfl, rfl, hl, ?_⟩)
        rw [execValidate_of_open ho ht hl] at h
        cases hs : shapeOk f with
        | false => rw [validateFrame_of_malformed hs] at h; cases h; exact .inl ⟨rfl, rfl⟩
        | true =>
          refine .inr ⟨rfl, ?_⟩
          by_cases hm : f.length < (s.params.minLen.get k).toNat
          · rw [validateFrame_of_short hs (by simpa using hm)] at h; cases h; exact .inl ⟨hm, rfl⟩
          · refine .inr ⟨by omega, ?_⟩
            by_cases h10 : f.length < 10
            · rw [validateFrame_of_noCode hs (by simpa using hm) (returnCode_of_short h10)] at h
              cases h; exact .inl ⟨h10, rfl⟩
            · have hr := returnCode_rxFrame (s := s) (by simpa [f] using h10)
              rw [validateFrame_of_code hs (by simpa using hm) hr] at h
              by_cases hn : (⟨s.rxbuf.read 7, s.rxbuf.read 8⟩ : ReturnCode) = ReturnCode.normal
              · rw [hn, classify_of_normal] at h
                cases h
                exact .inr (.inl ⟨by omega, hr.trans (by rw [hn]), rfl⟩)
              · rw [classify_of_other hn] at h
                cases h
                exact .inr (.inr ⟨by omega, _, hr, hn, by simp [c]⟩)
      · simp [execValidate, ho, ht, withRxFrame_of_lt (s := clearResults s)
          (show (clearResults s).params.rxMax.toNat < (clearResults s).rxLen.toNat by simp; omega)] at h

/-- VALIDATE changes VALSTAT, RTN, RX_CHK and STATUS only (R180). -/
theorem execValidate_frame {k : Kind} {s t : State} (h : execValidate k s = .next t) :
    t = { s with valstat := t.valstat, rtn := t.rtn, rxChk := t.rxChk, status := t.status } := by
  have hf : recordChecksum s.rxFrame (clearResults s) =
      { s with
        rxChk := (recordChecksum s.rxFrame (clearResults s)).rxChk,
        valstat := (recordChecksum s.rxFrame (clearResults s)).valstat, rtn := 0 } :=
    recordChecksum_frame s.rxFrame (clearResults s)
  rcases execValidate_cases h with ⟨_, rfl⟩ | ⟨_, _, rfl⟩ |
    ⟨_, _, _, ⟨_, rfl⟩ | ⟨_, ⟨_, rfl⟩ | ⟨_, ⟨_, rfl⟩ | ⟨_, _, rfl⟩ | ⟨_, _, _, _, rfl⟩⟩⟩⟩
  · rfl
  · rfl
  · rfl
  all_goals rw [hf]

/-! ### DECODE -/

theorem decodeGroup_of_unvalidated {α : Type} {k : Kind} {read : State → Except Raised α} {commit : α → State → State}
    {s : State} (h : ¬ (s.valOk = true ∧ s.valKind = k.number)) :
    decodeGroup k read commit s =
      .next { s with decValid := clearDecoded s.decValid k, status := statusWord .notValidated 0 } := by
  have : (!s.valOk || s.valKind != k.number) = true := by
    cases hv : s.valOk <;> simp_all
  simp [decodeGroup, this]

theorem decodeGroup_of_error {α : Type} {k : Kind} {read : State → Except Raised α} {commit : α → State → State}
    {s : State} {e : Raised} (hv : s.valOk = true) (hk : s.valKind = k.number)
    (hl : s.rxLen.toNat ≤ s.params.rxMax.toNat) (h : read s = .error e) :
    decodeGroup k read commit s =
      .next { s with decValid := clearDecoded s.decValid k, status := statusWord e.code e.aux } := by
  simp [decodeGroup, hv, hk, withRxFrame_of_le hl, h]

theorem decodeGroup_of_ok {α : Type} {k : Kind} {read : State → Except Raised α} {commit : α → State → State}
    {s : State} {g : α} (hv : s.valOk = true) (hk : s.valKind = k.number)
    (hl : s.rxLen.toNat ≤ s.params.rxMax.toNat) (h : read s = .ok g) :
    decodeGroup k read commit s =
      .next { commit g s with decValid := setDecoded s.decValid k, status := statusWord .ok 0 } := by
  simp [decodeGroup, hv, hk, withRxFrame_of_le hl, h]

theorem decodeGroup_of_missing {α : Type} {k : Kind} {read : State → Except Raised α} {commit : α → State → State}
    {s : State} (hv : s.valOk = true) (hk : s.valKind = k.number) (hl : s.params.rxMax.toNat < s.rxLen.toNat) :
    decodeGroup k read commit s = .fault (.rxbufElement s.params.rxMax.toNat) := by
  simp [decodeGroup, hv, hk, withRxFrame_of_lt hl]

/-- The three ways DECODE can end (R210). -/
theorem decodeGroup_cases {α : Type} {k : Kind} {read : State → Except Raised α} {commit : α → State → State}
    {s t : State} (h : decodeGroup k read commit s = .next t) :
    (¬ (s.valOk = true ∧ s.valKind = k.number) ∧
      t = { s with decValid := clearDecoded s.decValid k, status := statusWord .notValidated 0 }) ∨
    (s.valOk = true ∧ s.valKind = k.number ∧ s.rxLen.toNat ≤ s.params.rxMax.toNat ∧
      ((∃ e, read s = .error e ∧
          t = { s with decValid := clearDecoded s.decValid k, status := statusWord e.code e.aux }) ∨
       (∃ g, read s = .ok g ∧
          t = { commit g s with decValid := setDecoded s.decValid k, status := statusWord .ok 0 }))) := by
  by_cases hv : s.valOk = true ∧ s.valKind = k.number
  · by_cases hl : s.rxLen.toNat ≤ s.params.rxMax.toNat
    · refine .inr ⟨hv.1, hv.2, hl, ?_⟩
      cases hr : read s with
      | error e => rw [decodeGroup_of_error hv.1 hv.2 hl hr] at h; cases h; exact .inl ⟨e, rfl, rfl⟩
      | ok g => rw [decodeGroup_of_ok hv.1 hv.2 hl hr] at h; cases h; exact .inr ⟨g, rfl, rfl⟩
    · rw [decodeGroup_of_missing hv.1 hv.2 (by omega)] at h; cases h
  · rw [decodeGroup_of_unvalidated hv] at h; cases h; exact .inl ⟨hv, rfl⟩

/-- A failure of two reads in sequence is a failure of one of them (R215). -/
theorem bind_error {α β : Type} {x : Except Raised α} {f : α → Except Raised β} {e : Raised}
    (h : (x >>= f) = .error e) : x = .error e ∨ ∃ a, x = .ok a ∧ f a = .error e := by
  cases x with
  | error e' => cases h; exact .inl rfl
  | ok a => exact .inr ⟨a, rfl, h⟩

/-- A success of two reads in sequence is a success of both. -/
theorem bind_ok {α β : Type} {x : Except Raised α} {f : α → Except Raised β} {b : β}
    (h : (x >>= f) = .ok b) : ∃ a, x = .ok a ∧ f a = .ok b := by
  cases x with
  | error e' => cases h
  | ok a => exact ⟨a, rfl, h⟩

/-- The failures of the kinds without variants (R311). -/
abbrev FieldFailure (e : Raised) : Prop := e.code = .decodeOverrun ∨ e.code = .badHexDigit

theorem readSerialNumber_error {s : State} {e : Raised} (h : readSerialNumber s = .error e) : FieldFailure e := by
  rcases bind_error h with h | ⟨_, -, h⟩
  · exact readBytes_error h
  · cases h

theorem readManufacturerInfo_error {s : State} {e : Raised} (h : readManufacturerInfo s = .error e) :
    FieldFailure e := by
  rcases bind_error h with h | ⟨_, -, h⟩
  · exact readBytes_error h
  rcases bind_error h with h | ⟨_, -, h⟩
  · exact readReg_error h
  rcases bind_error h with h | ⟨_, -, h⟩
  · exact readReg_error h
  rcases bind_error h with h | ⟨_, -, h⟩
  · exact readBytes_error h
  · cases h

theorem readProtocolVersion_error {s : State} {e : Raised} (h : readProtocolVersion s = .error e) :
    FieldFailure e := by
  rcases bind_error h with h | ⟨_, -, h⟩
  · exact readReg_error h
  rcases bind_error h with h | ⟨_, -, h⟩
  · exact readReg_error h
  · cases h

theorem readSoftwareVersion_error {s : State} {e : Raised} (h : readSoftwareVersion s = .error e) :
    FieldFailure e := by
  rcases bind_error h with h | ⟨_, -, h⟩
  · exact readReg_error h
  rcases bind_error h with h | ⟨_, -, h⟩
  · exact readReg_error h
  rcases bind_error h with h | ⟨_, -, h⟩
  · exact readReg_error h
  rcases bind_error h with h | ⟨_, -, h⟩
  · exact readReg_error h
  rcases bind_error h with h | ⟨_, -, h⟩
  · exact readReg_error h
  · cases h

theorem readSystemParameters_error {s : State} {e : Raised} (h : readSystemParameters s = .error e) :
    FieldFailure e := by
  rcases bind_error h with h | ⟨_, -, h⟩
  · obtain ⟨i, -, h⟩ := readVec_error h
    exact readReg_error h
  · cases h

theorem readAlarmInfo_error {s : State} {e : Raised} (h : readAlarmInfo s = .error e) : FieldFailure e := by
  rcases bind_error h with h | ⟨_, -, h⟩
  · exact readReg_error h
  rcases bind_error h with h | ⟨_, -, h⟩
  · exact .inl (zeroRun_error h)
  rcases bind_error h with h | ⟨_, -, h⟩
  · exact .inl (zeroRun_error h)
  rcases bind_error h with h | ⟨_, -, h⟩
  · exact .inl (zeroRun_error h)
  rcases bind_error h with h | ⟨_, -, h⟩
  · exact .inl (zeroRun_error h)
  · cases h

theorem readChargeManagementInfo_error {s : State} {e : Raised} (h : readChargeManagementInfo s = .error e) :
    FieldFailure e := by
  rcases bind_error h with h | ⟨_, -, h⟩
  · exact readReg_error h
  rcases bind_error h with h | ⟨_, -, h⟩
  · exact readReg_error h
  rcases bind_error h with h | ⟨_, -, h⟩
  · exact readReg_error h
  rcases bind_error h with h | ⟨_, -, h⟩
  · exact readReg_error h
  rcases bind_error h with h | ⟨_, -, h⟩
  · exact readReg_error h
  · cases h

theorem readCell_error {s : State} {n i : Nat} {e : Raised} (h : readCell s n i = .error e) : FieldFailure e := by
  unfold readCell at h
  split at h
  · exact readReg_error h
  · cases h

/-- The failures of the capacity rows: a field failure, or an unsupported discriminator (R227). -/
theorem readCapacities_error {s : State} {udi : Byte} {e : Raised} (h : readCapacities s udi = .error e) :
    FieldFailure e ∨ (udi ≠ 2 ∧ udi ≠ 4 ∧ e = ⟨.unsupportedVariant, udi.setWidth 16⟩) := by
  unfold readCapacities at h
  split at h
  · rcases bind_error h with h | ⟨_, -, h⟩
    · exact .inl (readReg_error h)
    rcases bind_error h with h | ⟨_, -, h⟩
    · exact .inl (readReg_error h)
    · cases h
  · split at h
    · rcases bind_error h with h | ⟨_, -, h⟩
      · exact .inl (readReg_error h)
      rcases bind_error h with h | ⟨_, -, h⟩
      · exact .inl (readReg_error h)
      · cases h
    · cases h; exact .inr ⟨‹_›, ‹_›, rfl⟩

/-- The failures of AnalogValue: a field failure, or an unsupported discriminator in AUX (R227). -/
theorem readAnalogValue_error {s : State} {e : Raised} (h : readAnalogValue s = .error e) :
    FieldFailure e ∨ ∃ udi : Byte, udi ≠ 2 ∧ udi ≠ 4 ∧ e = ⟨.unsupportedVariant, udi.setWidth 16⟩ := by
  rcases bind_error h with h | ⟨_, -, h⟩
  · exact .inl (readReg_error h)
  rcases bind_error h with h | ⟨_, -, h⟩
  · obtain ⟨i, -, h⟩ := readVec_error h
    exact .inl (readCell_error h)
  rcases bind_error h with h | ⟨_, -, h⟩
  · obtain ⟨i, -, h⟩ := readVec_error h
    exact .inl (readReg_error h)
  rcases bind_error h with h | ⟨_, -, h⟩
  · exact .inl (readReg_error h)
  rcases bind_error h with h | ⟨_, -, h⟩
  · exact .inl (readReg_error h)
  rcases bind_error h with h | ⟨udi, -, h⟩
  · exact .inl (readReg_error h)
  rcases bind_error h with h | ⟨_, -, h⟩
  · exact (readCapacities_error h).imp id fun ⟨h2, h4, he⟩ => ⟨udi, h2, h4, he⟩
  · cases h

/-! ### DECODE of any kind -/

theorem exec_decodeInstr_of_unvalidated {k : Kind} {s : State} (h : ¬ (s.valOk = true ∧ s.valKind = k.number)) :
    exec (decodeInstr k) s =
      .next { s with decValid := clearDecoded s.decValid k, status := statusWord .notValidated 0 } := by
  cases k
  · show execDecodeSerialNumber s = _; exact decodeGroup_of_unvalidated h
  · show execDecodeManufacturerInfo s = _; exact decodeGroup_of_unvalidated h
  · show execDecodeProtocolVersion s = _; exact decodeGroup_of_unvalidated h
  · show execDecodeSoftwareVersion s = _; exact decodeGroup_of_unvalidated h
  · show execDecodeSystemParameters s = _; exact decodeGroup_of_unvalidated h
  · show execDecodeAlarmInfo s = _; exact decodeGroup_of_unvalidated h
  · show execDecodeChargeManagementInfo s = _; exact decodeGroup_of_unvalidated h
  · show execDecodeAnalogValue s = _; exact decodeGroup_of_unvalidated h

theorem exec_decodeInstr_of_missing {k : Kind} {s : State} (hv : s.valOk = true) (hk : s.valKind = k.number)
    (hl : s.params.rxMax.toNat < s.rxLen.toNat) :
    exec (decodeInstr k) s = .fault (.rxbufElement s.params.rxMax.toNat) := by
  cases k
  · show execDecodeSerialNumber s = _; exact decodeGroup_of_missing hv hk hl
  · show execDecodeManufacturerInfo s = _; exact decodeGroup_of_missing hv hk hl
  · show execDecodeProtocolVersion s = _; exact decodeGroup_of_missing hv hk hl
  · show execDecodeSoftwareVersion s = _; exact decodeGroup_of_missing hv hk hl
  · show execDecodeSystemParameters s = _; exact decodeGroup_of_missing hv hk hl
  · show execDecodeAlarmInfo s = _; exact decodeGroup_of_missing hv hk hl
  · show execDecodeChargeManagementInfo s = _; exact decodeGroup_of_missing hv hk hl
  · show execDecodeAnalogValue s = _; exact decodeGroup_of_missing hv hk hl

/-- A failure of DECODE k's fields (R210, R311). -/
abbrev DecodeFailure (k : Kind) (e : Raised) : Prop :=
  FieldFailure e ∨ (k = .analogValue ∧ ∃ udi : Byte, udi ≠ 2 ∧ udi ≠ 4 ∧ e = ⟨.unsupportedVariant, udi.setWidth 16⟩)

/-- What a DECODE that succeeds leaves: no row of its offset table failed, and the other kinds' registers are as they were
(R210, R215). -/
structure DecodedFrom (k : Kind) (s t : State) : Prop where
  no_failure : firstFailure s k = none
  frame : t = { s with
    serialNumber := t.serialNumber, manufacturerInfo := t.manufacturerInfo, protocolVersion := t.protocolVersion,
    softwareVersion := t.softwareVersion, systemParameters := t.systemParameters, alarmInfo := t.alarmInfo,
    chargeManagementInfo := t.chargeManagementInfo, analogValue := t.analogValue,
    decValid := setDecoded s.decValid k, status := statusWord .ok 0 }
  serialNumber : k ≠ .serialNumber → t.serialNumber = s.serialNumber
  manufacturerInfo : k ≠ .manufacturerInfo → t.manufacturerInfo = s.manufacturerInfo
  protocolVersion : k ≠ .protocolVersion → t.protocolVersion = s.protocolVersion
  softwareVersion : k ≠ .softwareVersion → t.softwareVersion = s.softwareVersion
  systemParameters : k ≠ .systemParameters → t.systemParameters = s.systemParameters
  alarmInfo : k ≠ .alarmInfo → t.alarmInfo = s.alarmInfo
  chargeManagementInfo : k ≠ .chargeManagementInfo → t.chargeManagementInfo = s.chargeManagementInfo
  analogValue : k ≠ .analogValue → t.analogValue = s.analogValue

/-- A read that answers an error answers the first failure of its table. -/
theorem failure_of_error {α : Type} {x : Except Raised α} {o : Option Raised} {e : Raised} (h : failureOf x = o)
    (he : x = .error e) : o = some e := by
  rw [← h, he, failureOf_error]

/-- A read that succeeds has no failing row. -/
theorem no_failure_of_ok {α : Type} {x : Except Raised α} {o : Option Raised} {v : α} (h : failureOf x = o)
    (hv : x = .ok v) : o = none := by
  rw [← h, hv, failureOf_ok]

/-- The three ways the DECODE of any kind can end (R210, R215). -/
theorem exec_decodeInstr_cases {k : Kind} {s t : State} (h : exec (decodeInstr k) s = .next t) :
    (¬ (s.valOk = true ∧ s.valKind = k.number) ∧
      t = { s with decValid := clearDecoded s.decValid k, status := statusWord .notValidated 0 }) ∨
    (s.valOk = true ∧ s.valKind = k.number ∧ s.rxLen.toNat ≤ s.params.rxMax.toNat ∧
      ((∃ e, DecodeFailure k e ∧ firstFailure s k = some e ∧
          t = { s with decValid := clearDecoded s.decValid k, status := statusWord e.code e.aux }) ∨
       DecodedFrom k s t)) := by
  cases k
  · change execDecodeSerialNumber s = .next t at h
    rcases decodeGroup_cases h with h | ⟨hv, hk, hl, ⟨e, he, ht⟩ | ⟨g, hg, rfl⟩⟩
    · exact .inl h
    · exact .inr ⟨hv, hk, hl, .inl ⟨e, .inl (readSerialNumber_error he), failure_of_error (failureOf_readSerialNumber s) he, ht⟩⟩
    · exact .inr ⟨hv, hk, hl, .inr
        (by constructor <;> simp [no_failure_of_ok (failureOf_readSerialNumber s) hg])⟩
  · change execDecodeManufacturerInfo s = .next t at h
    rcases decodeGroup_cases h with h | ⟨hv, hk, hl, ⟨e, he, ht⟩ | ⟨g, hg, rfl⟩⟩
    · exact .inl h
    · exact .inr ⟨hv, hk, hl, .inl ⟨e, .inl (readManufacturerInfo_error he), failure_of_error (failureOf_readManufacturerInfo s) he, ht⟩⟩
    · exact .inr ⟨hv, hk, hl, .inr
        (by constructor <;> simp [no_failure_of_ok (failureOf_readManufacturerInfo s) hg])⟩
  · change execDecodeProtocolVersion s = .next t at h
    rcases decodeGroup_cases h with h | ⟨hv, hk, hl, ⟨e, he, ht⟩ | ⟨g, hg, rfl⟩⟩
    · exact .inl h
    · exact .inr ⟨hv, hk, hl, .inl ⟨e, .inl (readProtocolVersion_error he), failure_of_error (failureOf_readProtocolVersion s) he, ht⟩⟩
    · exact .inr ⟨hv, hk, hl, .inr
        (by constructor <;> simp [no_failure_of_ok (failureOf_readProtocolVersion s) hg])⟩
  · change execDecodeSoftwareVersion s = .next t at h
    rcases decodeGroup_cases h with h | ⟨hv, hk, hl, ⟨e, he, ht⟩ | ⟨g, hg, rfl⟩⟩
    · exact .inl h
    · exact .inr ⟨hv, hk, hl, .inl ⟨e, .inl (readSoftwareVersion_error he), failure_of_error (failureOf_readSoftwareVersion s) he, ht⟩⟩
    · exact .inr ⟨hv, hk, hl, .inr
        (by constructor <;> simp [no_failure_of_ok (failureOf_readSoftwareVersion s) hg])⟩
  · change execDecodeSystemParameters s = .next t at h
    rcases decodeGroup_cases h with h | ⟨hv, hk, hl, ⟨e, he, ht⟩ | ⟨g, hg, rfl⟩⟩
    · exact .inl h
    · exact .inr ⟨hv, hk, hl, .inl ⟨e, .inl (readSystemParameters_error he), failure_of_error (failureOf_readSystemParameters s) he, ht⟩⟩
    · exact .inr ⟨hv, hk, hl, .inr
        (by constructor <;> simp [no_failure_of_ok (failureOf_readSystemParameters s) hg])⟩
  · change execDecodeAlarmInfo s = .next t at h
    rcases decodeGroup_cases h with h | ⟨hv, hk, hl, ⟨e, he, ht⟩ | ⟨g, hg, rfl⟩⟩
    · exact .inl h
    · exact .inr ⟨hv, hk, hl, .inl ⟨e, .inl (readAlarmInfo_error he), failure_of_error (failureOf_readAlarmInfo s) he, ht⟩⟩
    · exact .inr ⟨hv, hk, hl, .inr
        (by constructor <;> simp [no_failure_of_ok (failureOf_readAlarmInfo s) hg])⟩
  · change execDecodeChargeManagementInfo s = .next t at h
    rcases decodeGroup_cases h with h | ⟨hv, hk, hl, ⟨e, he, ht⟩ | ⟨g, hg, rfl⟩⟩
    · exact .inl h
    · exact .inr ⟨hv, hk, hl, .inl ⟨e, .inl (readChargeManagementInfo_error he), failure_of_error (failureOf_readChargeManagementInfo s) he, ht⟩⟩
    · exact .inr ⟨hv, hk, hl, .inr
        (by constructor <;> simp [no_failure_of_ok (failureOf_readChargeManagementInfo s) hg])⟩
  · change execDecodeAnalogValue s = .next t at h
    rcases decodeGroup_cases h with h | ⟨hv, hk, hl, ⟨e, he, ht⟩ | ⟨g, hg, rfl⟩⟩
    · exact .inl h
    · exact .inr ⟨hv, hk, hl, .inl ⟨e, (readAnalogValue_error he).imp id fun hu => ⟨rfl, hu⟩, failure_of_error (failureOf_readAnalogValue s) he, ht⟩⟩
    · exact .inr ⟨hv, hk, hl, .inr
        (by constructor <;> simp [no_failure_of_ok (failureOf_readAnalogValue s) hg])⟩

/-! ### What the reads depend on -/

/-- Two states whose received frames read alike give every field read the same answer (R81). -/
theorem memRead_congr {s s' : State} (hl : s'.rxLen = s.rxLen)
    (h : ∀ j < s.rxLen.toNat, s'.rxbuf.read j = s.rxbuf.read j) : memRead s' = memRead s := by
  funext off w
  by_cases hw : off + w ≤ s.rxLen.toNat
  · rw [memRead_of_le hw, memRead_of_le (by rwa [hl])]
    exact congrArg some (Memory.readString_congr fun j hj => h _ (by omega))
  · rw [memRead_of_lt (by rw [hl]; omega), memRead_of_lt (by omega)]

theorem rxFrame_congr {s s' : State} (hl : s'.rxLen = s.rxLen)
    (h : ∀ j < s.rxLen.toNat, s'.rxbuf.read j = s.rxbuf.read j) : s'.rxFrame = s.rxFrame := by
  rw [State.rxFrame, State.rxFrame, hl]
  exact Memory.readString_congr fun j hj => by simpa using h j hj

theorem readHex_congr {s s' : State} (h : memRead s' = memRead s) : readHex s' = readHex s := by
  funext off w; simp only [readHex, h]

theorem readReg_congr {s s' : State} (n : Nat) (h : memRead s' = memRead s) : readReg n s' = readReg n s := by
  funext off w; simp only [readReg, readHex_congr h]

theorem readBytes_congr {s s' : State} (h : memRead s' = memRead s) : readBytes s' = readBytes s := by
  funext off n; simp only [readBytes, h, readReg_congr 8 h]

theorem zeroRun_congr {s s' : State} (h : memRead s' = memRead s) : zeroRun s' = zeroRun s := by
  funext off w; simp only [zeroRun, h]

theorem readCell_congr {s s' : State} (h : memRead s' = memRead s) : readCell s' = readCell s := by
  funext n i; simp only [readCell, readReg_congr 16 h]

theorem readCapacities_congr {s s' : State} (h : memRead s' = memRead s) : readCapacities s' = readCapacities s := by
  funext udi; simp only [readCapacities, readReg_congr 24 h]

/-! ### The instructions by meaning -/

/-- Every instruction is of one of nine shapes: a statement about all of them is nine cases, not twenty-three. -/
theorem Instr.shapes (i : Instr) :
    (∃ k a, i = .build k a) ∨ (∃ k a, i = requestInstr k a) ∨ (∃ k, i = decodeInstr k) ∨ (∃ k, i = .validate k) ∨
    i = .rxReset ∨ (∃ b, i = .rxByte b) ∨ i = .rxTimeout ∨ i = .softReset ∨ ∃ w, i = .illegal w := by
  cases i
  case build k a => exact .inl ⟨k, a, rfl⟩
  case requestSerialNumber a => exact .inr (.inl ⟨.serialNumber, a, rfl⟩)
  case requestManufacturerInfo a => exact .inr (.inl ⟨.manufacturerInfo, a, rfl⟩)
  case requestProtocolVersion a => exact .inr (.inl ⟨.protocolVersion, a, rfl⟩)
  case requestSoftwareVersion a => exact .inr (.inl ⟨.softwareVersion, a, rfl⟩)
  case requestSystemParameters a => exact .inr (.inl ⟨.systemParameters, a, rfl⟩)
  case requestAlarmInfo a => exact .inr (.inl ⟨.alarmInfo, a, rfl⟩)
  case requestChargeManagementInfo a => exact .inr (.inl ⟨.chargeManagementInfo, a, rfl⟩)
  case requestAnalogValue a => exact .inr (.inl ⟨.analogValue, a, rfl⟩)
  case decodeSerialNumber => exact .inr (.inr (.inl ⟨.serialNumber, rfl⟩))
  case decodeManufacturerInfo => exact .inr (.inr (.inl ⟨.manufacturerInfo, rfl⟩))
  case decodeProtocolVersion => exact .inr (.inr (.inl ⟨.protocolVersion, rfl⟩))
  case decodeSoftwareVersion => exact .inr (.inr (.inl ⟨.softwareVersion, rfl⟩))
  case decodeSystemParameters => exact .inr (.inr (.inl ⟨.systemParameters, rfl⟩))
  case decodeAlarmInfo => exact .inr (.inr (.inl ⟨.alarmInfo, rfl⟩))
  case decodeChargeManagementInfo => exact .inr (.inr (.inl ⟨.chargeManagementInfo, rfl⟩))
  case decodeAnalogValue => exact .inr (.inr (.inl ⟨.analogValue, rfl⟩))
  all_goals simp

/-! ### Steps -/

theorem step_of_command {s : State} {w : Word16} {ws : List Word16} (h : s.cmdIn = w :: ws) :
    step s = exec (decodeWord w) { s with cmdIn := ws } := by
  simp [step, fetch_cons h]

theorem step_of_idle {s : State} (h : s.cmdIn = []) : step s = .next s := by
  simp [step, fetch_nil h]

/-- A step that answers next either held the state or executed one decoded command. -/
theorem step_cases {s t : State} (h : step s = .next t) :
    (s.cmdIn = [] ∧ t = s) ∨ ∃ w ws, s.cmdIn = w :: ws ∧ exec (decodeWord w) { s with cmdIn := ws } = .next t := by
  cases hc : s.cmdIn with
  | nil => rw [step_of_idle hc] at h; cases h; exact .inl ⟨rfl, rfl⟩
  | cons w ws => exact .inr ⟨w, ws, rfl, by rwa [step_of_command hc] at h⟩

end Sys2Proof.Machine
end

