-- ==== Sys2Proof/Laws/Exchange.lean ====
section
/-! SUPPORT. What a stream of bytes leaves in an open accumulator, once: through RX_BYTE commands (`execAll`) and through the
host's reading loop (`receive`). -/

namespace Sys2Proof.Machine

/-! ### The accepted bytes, byte by byte -/

@[simp] theorem acceptedBytes_nil : acceptedBytes [] = [] := rfl

theorem acceptedBytes_noise {b : Byte} (bs : List Byte) (h : inAlphabet b = false) :
    acceptedBytes (b :: bs) = acceptedBytes bs := by
  simp [acceptedBytes, h]

theorem acceptedBytes_cr (bs : List Byte) : acceptedBytes (cr :: bs) = [cr] := by
  simp [acceptedBytes, show inAlphabet cr = true from rfl]

theorem acceptedBytes_other {b : Byte} (bs : List Byte) (h : inAlphabet b = true) (hc : b ≠ cr) :
    acceptedBytes (b :: bs) = b :: acceptedBytes bs := by
  simp [acceptedBytes, h, hc, Ne.symm hc]

theorem ne_zero_of_mem_acceptedBytes {b : Byte} {bs : List Byte} (h : b ∈ acceptedBytes bs) : b ≠ 0#8 := by
  rintro rfl
  induction bs with
  | nil => simp at h
  | cons c bs ih =>
    by_cases hc : inAlphabet c = true
    · by_cases he : c = cr
      · rw [he, acceptedBytes_cr] at h; exact absurd h (by decide)
      · rw [acceptedBytes_other _ hc he, List.mem_cons] at h
        rcases h with rfl | h
        · exact absurd hc (by decide)
        · exact ih h
    · rw [acceptedBytes_noise _ (by simpa using hc)] at h
      exact ih h

/-! ### The host's moves -/

@[simp] theorem andThen_next (s : State) (k : State → Outcome) : andThen (.next s) k = k s := rfl

theorem execAll_cons (i : Instr) (is : List Instr) (s : State) :
    execAll (i :: is) s = andThen (exec i s) (execAll is) := rfl

theorem receive_of_over {p : EofPolicy} {es : List StreamEvent} {s : State} (h : receptionOver s = true) :
    receive p es s = .next s := by
  cases es <;> simp [receive, h]

theorem receive_cons_of_open {p : EofPolicy} {e : StreamEvent} {es : List StreamEvent} {s : State}
    (h : receptionOver s = false) : receive p (e :: es) s = andThen (exec (eventInstr e) s) (receive p es) := by
  simp [receive, h]

theorem receive_nil_of_open {p : EofPolicy} {s : State} (h : receptionOver s = false) :
    receive p [] s = endOfStream p s := by
  simp [receive, h]

theorem receptionOver_eq {s : State} : receptionOver s = true ↔ s.rxstat ≠ 0 := by
  simp [receptionOver]

theorem frozen_of_rxstat_zero {s : State} (h : s.rxstat = 0) : s.frozen = false := by
  simp [State.frozen, State.rxDone, State.rxTimedOut, State.rxOverflowed, h]

theorem ifOk_of_ok {k : State → Outcome} {s : State} (h : s.code = codeBits .ok) : ifOk k s = k s :=
  if_pos h

theorem ifOk_of_failed {k : State → Outcome} {s : State} (h : s.code ≠ codeBits .ok) : ifOk k s = .next s :=
  if_neg h

theorem ifReceived_of_over {k : State → Outcome} {s : State} (h : receptionOver s = true) : ifReceived k s = k s :=
  if_pos h

theorem ifReceived_of_open {k : State → Outcome} {s : State} (h : receptionOver s = false) : ifReceived k s = .next s :=
  if_neg (by simp [h])

/-- The block after steps 1 and 2 of an exchange: the request is built and the accumulator is empty (R338). -/
def State.awaiting (s : State) (k : Kind) (a : Byte) : State :=
  { s with
    txbuf := s.txbuf.writeString 0 (requestFrame s.params.cidTable k a)
    txLen := 20
    txChk := requestChecksum s.params.cidTable k a
    rxLen := 0
    rxstat := 0
    valstat := 0
    status := statusWord .none 0 }

/-- Steps 4 to 6 are left of an exchange for a supported address. -/
theorem exchange_of_supported {p : EofPolicy} {k : Kind} {a : Byte} {es : List StreamEvent} {s : State}
    (h : addressSupported s.params a = true) :
    exchange p k a es s =
      andThen (receive p es (s.awaiting k a))
        (ifReceived fun t => andThen (exec (.validate k) t) (ifOk fun u => exec (decodeInstr k) u)) := by
  unfold exchange
  show andThen (buildRequest k a s) _ = _
  rw [buildRequest_of_supported h, andThen_next, ifOk_of_ok (by simp [State.code])]
  rfl

/-- An exchange for any other address ends after BUILD. -/
theorem exchange_of_unsupported {p : EofPolicy} {k : Kind} {a : Byte} {es : List StreamEvent} {s : State}
    (h : addressSupported s.params a = false) :
    exchange p k a es s = .next { s with txLen := 0, status := statusWord .invalidAddress (a.setWidth 16) } := by
  unfold exchange
  show andThen (buildRequest k a s) _ = _
  rw [buildRequest_of_unsupported h, andThen_next, ifOk_of_failed (by simp [State.code, codeBits])]

/-! ### Streams -/

/-- The state after the accepted bytes of a stream went into an open accumulator with room for them (R281–R283). -/
def State.accumulate (s : State) (bs : List Byte) : State :=
  { s with
    rxbuf := s.rxbuf.writeString s.rxLen.toNat (acceptedBytes bs)
    rxLen := s.rxLen + BitVec.ofNat 16 (acceptedBytes bs).length
    rxstat := if cr ∈ bs then 0x01#8 else 0x00#8 }

theorem accumulate_nil {s : State} (h : s.rxstat = 0) : s.accumulate [] = s := by
  cases s
  simp_all [State.accumulate, Memory.writeString]

/-- Noise is discarded (R282). -/
theorem accumulate_noise {s : State} {b : Byte} (bs : List Byte) (h : inAlphabet b = false) :
    s.accumulate (b :: bs) = s.accumulate bs := by
  have hb : cr ≠ b := by rintro rfl; exact absurd h (by decide)
  simp [State.accumulate, acceptedBytes_noise bs h, hb]

/-- Bytes after CR are ignored (R286). -/
theorem accumulate_cr (s : State) (bs : List Byte) : s.accumulate (cr :: bs) = s.accumulate [cr] := by
  simp [State.accumulate, acceptedBytes_cr]

/-- A byte other than CR and then the others. -/
theorem accumulate_other {s : State} {b : Byte} (bs : List Byte) (hb : inAlphabet b = true) (hc : b ≠ cr)
    (h : s.rxLen.toNat < 65535) : s.accumulate (b :: bs) = (s.accumulate [b]).accumulate bs := by
  have hl : (s.rxLen + 1#16).toNat = s.rxLen.toNat + 1 := by simp [BitVec.toNat_add]; omega
  simp [State.accumulate, acceptedBytes_other bs hb hc, acceptedBytes_other [] hb hc, Memory.writeString, hl, Ne.symm hc,
    BitVec.ofNat_add, BitVec.add_assoc, BitVec.add_comm 1#16]

theorem rxstat_accumulate {s : State} {bs : List Byte} (h : cr ∉ bs) : (s.accumulate bs).rxstat = 0 := by
  simp [State.accumulate, h]

/-- One byte into an open accumulator with room for it (R281). -/
theorem execRxByte_accumulate {b : Byte} {s : State} (hs : s.rxstat = 0)
    (h : inAlphabet b = true → s.rxLen.toNat < s.params.rxMax.toNat) : execRxByte b s = .next (s.accumulate [b]) := by
  cases hb : inAlphabet b with
  | false => rw [execRxByte_of_noise hb, accumulate_noise [] hb, accumulate_nil hs]
  | true =>
    rw [execRxByte_of_room (frozen_of_rxstat_zero hs) hb (h hb)]
    by_cases hc : b = cr
    · simp [State.accumulate, hc, acceptedBytes_cr, Memory.writeString, hs, setDone]
    · simp [State.accumulate, acceptedBytes_other [] hb hc, Memory.writeString, hc, Ne.symm hc, hs]

/-- A stream whose accepted bytes fit, through the host's loop: what comes after it is read only if it held no CR. -/
theorem receive_bytes (p : EofPolicy) (es : List StreamEvent) {bs : List Byte} {s : State} (hs : s.rxstat = 0)
    (h : s.rxLen.toNat + (acceptedBytes bs).length ≤ s.params.rxMax.toNat) :
    receive p (bs.map .byte ++ es) s = receive p es (s.accumulate bs) := by
  induction bs generalizing s with
  | nil => rw [accumulate_nil hs]; rfl
  | cons b bs ih =>
    have ho : receptionOver s = false := by simp [receptionOver, hs]
    have hm := s.params.rxMax.isLt
    rw [List.map_cons, List.cons_append, receive_cons_of_open ho, eventInstr]
    show andThen (execRxByte b s) _ = _
    cases hb : inAlphabet b with
    | false =>
      rw [acceptedBytes_noise bs hb] at h
      rw [execRxByte_of_noise hb, andThen_next, ih hs h, accumulate_noise bs hb]
    | true =>
      by_cases hc : b = cr
      · subst hc
        rw [acceptedBytes_cr, List.length_singleton] at h
        have hv : receptionOver (s.accumulate [cr]) = true := by simp [receptionOver, State.accumulate]
        rw [execRxByte_accumulate hs fun _ => by omega, andThen_next, accumulate_cr s bs, receive_of_over hv, receive_of_over hv]
      · rw [acceptedBytes_other bs hb hc, List.length_cons] at h
        have hl : (s.accumulate [b]).rxLen.toNat = s.rxLen.toNat + 1 := by
          simp [State.accumulate, acceptedBytes_other [] hb hc, BitVec.toNat_add]; omega
        rw [execRxByte_accumulate hs fun _ => by omega, andThen_next,
          ih (rxstat_accumulate (by simpa using Ne.symm hc)) (by rw [hl]; exact Nat.le_trans (by omega) h),
          accumulate_other bs hb hc (by omega)]

/-- The same stream through RX_BYTE commands. -/
theorem execAll_rxString {bs : List Byte} {s : State} (hs : s.rxstat = 0)
    (h : s.rxLen.toNat + (acceptedBytes bs).length ≤ s.params.rxMax.toNat) :
    execAll (rxString bs) s = .next (s.accumulate bs) := by
  have frozen_rest : ∀ (bs : List Byte) {s : State}, s.frozen = true → execAll (rxString bs) s = .next s := by
    intro bs
    induction bs with
    | nil => intro _ _; rfl
    | cons b bs ih =>
      intro s hf
      show andThen (execRxByte b s) _ = _
      rw [execRxByte_of_frozen hf, andThen_next]
      exact ih hf
  induction bs generalizing s with
  | nil => rw [accumulate_nil hs]; rfl
  | cons b bs ih =>
    have hm := s.params.rxMax.isLt
    show andThen (execRxByte b s) (execAll (rxString bs)) = _
    cases hb : inAlphabet b with
    | false =>
      rw [acceptedBytes_noise bs hb] at h
      rw [execRxByte_of_noise hb, andThen_next, ih hs h, accumulate_noise bs hb]
    | true =>
      by_cases hc : b = cr
      · subst hc
        rw [acceptedBytes_cr, List.length_singleton] at h
        rw [execRxByte_accumulate hs fun _ => by omega, andThen_next, accumulate_cr s bs]
        exact frozen_rest bs (by simp [State.frozen, State.rxDone, State.accumulate])
      · rw [acceptedBytes_other bs hb hc, List.length_cons] at h
        have hl : (s.accumulate [b]).rxLen.toNat = s.rxLen.toNat + 1 := by
          simp [State.accumulate, acceptedBytes_other [] hb hc, BitVec.toNat_add]; omega
        rw [execRxByte_accumulate hs fun _ => by omega, andThen_next,
          ih (rxstat_accumulate (by simpa using Ne.symm hc)) (by rw [hl]; exact Nat.le_trans (by omega) h),
          accumulate_other bs hb hc (by omega)]

/-- A stream whose accepted bytes do not fit: the accumulator is filled, and the byte that does not fit raises RX_OVERFLOW
(R284). -/
theorem receive_bytes_overflow (p : EofPolicy) (es : List StreamEvent) {bs : List Byte} {s : State} (hs : s.rxstat = 0)
    (hl : s.rxLen.toNat ≤ s.params.rxMax.toNat)
    (h : s.params.rxMax.toNat < s.rxLen.toNat + (acceptedBytes bs).length) :
    ∃ b : Byte, receive p (bs.map .byte ++ es) s = .next { s with
      rxbuf := s.rxbuf.writeString s.rxLen.toNat ((acceptedBytes bs).take (s.params.rxMax.toNat - s.rxLen.toNat))
      rxLen := s.params.rxMax
      rxstat := 0x04#8
      status := statusWord .rxOverflow (b.setWidth 16) } := by
  induction bs generalizing s with
  | nil => simp at h; omega
  | cons b bs ih =>
    have ho : receptionOver s = false := by simp [receptionOver, hs]
    have hm := s.params.rxMax.isLt
    rw [List.map_cons, List.cons_append, receive_cons_of_open ho, eventInstr]
    change ∃ c : Byte, andThen (execRxByte b s) _ = _
    cases hb : inAlphabet b with
    | false =>
      rw [acceptedBytes_noise bs hb] at h ⊢
      rw [execRxByte_of_noise hb, andThen_next]
      exact ih hs hl h
    | true =>
      by_cases he : s.rxLen = s.params.rxMax
      · refine ⟨b, ?_⟩
        rw [execRxByte_of_full (frozen_of_rxstat_zero hs) hb he, andThen_next,
          receive_of_over (by simp [receptionOver, hs, setOverflow])]
        simp [he, hs, setOverflow, Memory.writeString]
      · have hlt : s.rxLen.toNat < s.params.rxMax.toNat := by
          have : s.rxLen.toNat ≠ s.params.rxMax.toNat := fun e => he (BitVec.eq_of_toNat_eq e)
          omega
        have hc : b ≠ cr := by rintro rfl; rw [acceptedBytes_cr, List.length_singleton] at h; omega
        rw [acceptedBytes_other bs hb hc, List.length_cons] at h
        have hl' : (s.accumulate [b]).rxLen.toNat = s.rxLen.toNat + 1 := by
          simp [State.accumulate, acceptedBytes_other [] hb hc, BitVec.toNat_add]; omega
        rw [execRxByte_accumulate hs fun _ => hlt, andThen_next]
        obtain ⟨c, hr⟩ := ih (s := s.accumulate [b]) (rxstat_accumulate (by simpa using Ne.symm hc))
          (by rw [hl']; exact hlt) (by rw [hl']; exact Nat.lt_of_lt_of_le h (by omega))
        refine ⟨c, hr.trans ?_⟩
        have ht : s.params.rxMax.toNat - s.rxLen.toNat = s.params.rxMax.toNat - (s.rxLen.toNat + 1) + 1 := by omega
        simp only [hl', acceptedBytes_other bs hb hc, ht, List.take_succ_cons, Memory.writeString]
        simp [State.accumulate, acceptedBytes_other [] hb hc, Memory.writeString]

end Sys2Proof.Machine
end

