-- ==== Sys2Proof/Laws/Frame.lean ====
section
/-! SUPPORT. The parts of a request frame by offset (30_encoding.md R104), which the wire decoder reads back. -/

namespace Sys2Proof

theorem slice_requestFrame_soi (cids : PerKind CidPair) (k : Kind) (a : Byte) :
    slice (requestFrame cids k a) 0 1 = [soi] := rfl

theorem slice_requestFrame_ver (cids : PerKind CidPair) (k : Kind) (a : Byte) :
    slice (requestFrame cids k a) 1 2 = requestVer k := by
  cases k <;> rfl

theorem slice_requestFrame_adr (cids : PerKind CidPair) (k : Kind) (a : Byte) :
    slice (requestFrame cids k a) 3 2 = hex2 (adrOf a) := by
  cases k <;> rfl

theorem slice_requestFrame_cid (cids : PerKind CidPair) (k : Kind) (a : Byte) :
    slice (requestFrame cids k a) 5 4 = cidChars (cids.get k) := by
  cases k <;> rfl

theorem slice_requestFrame_length (cids : PerKind CidPair) (k : Kind) (a : Byte) :
    slice (requestFrame cids k a) 9 4 = [0x45#8, 0x30#8, 0x30#8, 0x32#8] := by
  rw [← lengthChars_hex2 (adrOf a)]
  cases k <;> rfl

theorem slice_requestFrame_info (cids : PerKind CidPair) (k : Kind) (a : Byte) :
    slice (requestFrame cids k a) 13 2 = hex2 (adrOf a) := by
  cases k <;> rfl

theorem slice_requestFrame_body (cids : PerKind CidPair) (k : Kind) (a : Byte) :
    slice (requestFrame cids k a) 1 14 = requestBody cids k a := by
  cases k <;> rfl

theorem slice_requestFrame_checksum (cids : PerKind CidPair) (k : Kind) (a : Byte) :
    slice (requestFrame cids k a) 15 4 = fmt4 (requestChecksum cids k a) := by
  cases k <;> rfl

theorem slice_requestFrame_eoi (cids : PerKind CidPair) (k : Kind) (a : Byte) :
    slice (requestFrame cids k a) 19 1 = [cr] := by
  cases k <;> rfl

/-- The kind number and its table undo each other (R106). -/
@[simp] theorem kindOfNumber_number (k : Kind) : kindOfNumber k.number = k := by
  cases k <;> rfl

@[simp] theorem number_kindOfNumber (n : BitVec 3) : (kindOfNumber n).number = n := by
  revert n; decide

theorem Kind.mem_all (k : Kind) : k ∈ Kind.all := by
  cases k <;> decide

theorem Kind.number_injective {j k : Kind} (h : j.number = k.number) : j = k := by
  rw [← kindOfNumber_number j, h, kindOfNumber_number]

end Sys2Proof
end

