-- ==== Sys2Proof/Laws/Words.lean ====
section
/-! SUPPORT. Command words by their two bytes: the decoder and R102's legality, with the high byte (ARG) symbolic, so that a
statement about all 65536 words becomes one about the 256 low bytes and whether ARG is 0. -/

namespace Sys2Proof

/-- A word is its two bytes. -/
theorem bytes_of_word (w : Word16) : w.extractLsb' 8 8 ++ w.extractLsb' 0 8 = w := by
  grind

theorem high_append (h l : Byte) : (h ++ l).extractLsb' 8 8 = h := by
  grind

theorem low_append (h l : Byte) : (h ++ l).extractLsb' 0 8 = l := by
  grind

theorem append_inj {h l c d : Byte} : h ++ l = c ++ d ↔ h = c ∧ l = d := by
  constructor
  · intro e
    have e1 := congrArg (BitVec.extractLsb' 8 8) e
    have e2 := congrArg (BitVec.extractLsb' 0 8) e
    rw [high_append, high_append] at e1
    rw [low_append, low_append] at e2
    exact ⟨e1, e2⟩
  · rintro ⟨rfl, rfl⟩; rfl

/-- A mask and match row of R102, byte by byte. -/
theorem masked_append (h l a b c d : Byte) : (h ++ l) &&& (a ++ b) = c ++ d ↔ h &&& a = c ∧ l &&& b = d := by
  rw [show (h ++ l) &&& (a ++ b) = (h &&& a) ++ (l &&& b) by grind, append_inj]

theorem argField_append (h l : Byte) : argField (h ++ l) = h :=
  high_append h l

theorem kindField_append (h l : Byte) : kindField (h ++ l) = kindOfNumber (l.extractLsb' 4 3) := by
  unfold kindField; congr 1; grind

/-- The decoder, by the two bytes of the word (R102). -/
theorem decodeWord_append (h l : Byte) :
    decodeWord (h ++ l) =
      if l &&& 0x8F#8 = 0x01#8 then .build (kindOfNumber (l.extractLsb' 4 3)) h
      else if h = 0 ∧ l = 0x02#8 then .rxReset
      else if l = 0x03#8 then .rxByte h
      else if h = 0 ∧ l = 0x04#8 then .rxTimeout
      else if h = 0 ∧ l &&& 0x8F#8 = 0x05#8 then .validate (kindOfNumber (l.extractLsb' 4 3))
      else if h = 0 ∧ l &&& 0x8F#8 = 0x06#8 then decodeInstr (kindOfNumber (l.extractLsb' 4 3))
      else if h = 0 ∧ l = 0x0F#8 then .softReset
      else .illegal (h ++ l) := by
  have e : ∀ x : Byte, x &&& 0xFF#8 = x := fun x => BitVec.and_allOnes
  have z : ∀ x : Byte, x &&& 0x00#8 = 0#8 := fun x => BitVec.and_zero
  simp only [decodeWord, argField_append, kindField_append,
    show (0x008F#16 : Word16) = 0x00#8 ++ 0x8F#8 from rfl, show (0xFFFF#16 : Word16) = 0xFF#8 ++ 0xFF#8 from rfl,
    show (0x00FF#16 : Word16) = 0x00#8 ++ 0xFF#8 from rfl, show (0xFF8F#16 : Word16) = 0xFF#8 ++ 0x8F#8 from rfl,
    show (0x0001#16 : Word16) = 0x00#8 ++ 0x01#8 from rfl, show (0x0002#16 : Word16) = 0x00#8 ++ 0x02#8 from rfl,
    show (0x0003#16 : Word16) = 0x00#8 ++ 0x03#8 from rfl, show (0x0004#16 : Word16) = 0x00#8 ++ 0x04#8 from rfl,
    show (0x0005#16 : Word16) = 0x00#8 ++ 0x05#8 from rfl, show (0x0006#16 : Word16) = 0x00#8 ++ 0x06#8 from rfl,
    show (0x000F#16 : Word16) = 0x00#8 ++ 0x0F#8 from rfl, masked_append, e, z]
  simp

/-- R102's legality, by the two bytes of the word; ARG enters only as whether it is 0. -/
theorem legalWord_append (h l : Byte) :
    legalWord (h ++ l) =
      let op := l.extractLsb' 0 4
      let kind := l.extractLsb' 4 4
      ((op == 0x1#4 || op == 0x2#4 || op == 0x3#4 || op == 0x4#4 || op == 0x5#4 || op == 0x6#4 || op == 0xF#4) &&
      (if op == 0x1#4 || op == 0x5#4 || op == 0x6#4 then kind.toNat ≤ 7 else kind == 0#4) &&
      (op == 0x1#4 || op == 0x3#4 || h == 0#8)) := by
  have e0 : (h ++ l).extractLsb' 0 4 = l.extractLsb' 0 4 := by grind
  have e4 : (h ++ l).extractLsb' 4 4 = l.extractLsb' 4 4 := by grind
  simp only [legalWord, e0, e4, high_append]

/-- A command word, by its two bytes: ARG above KIND and OP (R100). -/
theorem commandWord_append (op : BitVec 4) (kind : BitVec 3) (arg : Byte) :
    commandWord op kind arg = arg ++ ((0#1 ++ (kind ++ op) : BitVec 8)) := rfl

end Sys2Proof
end

