-- ==== Sys2Proof/Laws/PerInstr.lean ====
section
/-! SUPPORT. The family `EncodedForm`, made per instruction (LAWS.json): what shape an instruction's encoding has. It is about
the instruction as syntax. -/

namespace Sys2Proof.Laws

/-- The encoding is a command word that R102 allows, or refuses for `illegal`; or it is the 20 characters of a wire request
that starts with SOI and ends with EOI (R100, R102, R104). -/
def EncodedForm.Statement (i : Instr) : Prop :=
  i.wellFormed = true → ∀ cids : PerKind CidPair,
    match encode cids i with
    | .command w => (legalWord w = false ↔ ∃ v, i = .illegal v)
    | .wire f => f.length = 20 ∧ f.head? = some soi ∧ f.getLast? = some cr

/-- A BUILD word is legal whatever the address is (R102). -/
theorem legalWord_of_build (k : Kind) (a : Byte) : legalWord (buildWord k a) = true := by
  rw [buildWord, commandWord_append, legalWord_append]
  cases k <;> rfl

/-- An RX_BYTE word is legal whatever the byte is (R102). -/
theorem legalWord_of_rxByte (b : Byte) : legalWord (commandWord 0x3 0 b) = true := by
  rw [commandWord_append, legalWord_append]
  rfl

theorem requestFrame_form (cids : PerKind CidPair) (k : Kind) (a : Byte) :
    (requestFrame cids k a).length = 20 ∧ (requestFrame cids k a).head? = some soi ∧
      (requestFrame cids k a).getLast? = some cr := by
  refine ⟨length_requestFrame cids k a, rfl, ?_⟩
  rw [requestFrame, List.getLast?_append]; rfl

namespace EncodedForm

theorem build (k : Kind) (a : Byte) : EncodedForm.Statement (.build k a) := by
  intro _ cids
  simp [encode, legalWord_of_build]

theorem rxReset : EncodedForm.Statement .rxReset := by
  intro _ cids
  simp only [encode, reduceCtorEq, exists_false, iff_false]; decide

theorem rxByte (b : Byte) : EncodedForm.Statement (.rxByte b) := by
  intro _ cids
  have := legalWord_of_rxByte b
  simpa [encode] using this

theorem rxTimeout : EncodedForm.Statement .rxTimeout := by
  intro _ cids
  simp only [encode, reduceCtorEq, exists_false, iff_false]; decide

theorem validate (k : Kind) : EncodedForm.Statement (.validate k) := by
  intro _ cids
  simp only [encode, reduceCtorEq, exists_false, iff_false]
  cases k <;> decide

theorem decodeSerialNumber : EncodedForm.Statement .decodeSerialNumber := by
  intro _ cids
  simp only [encode, reduceCtorEq, exists_false, iff_false]; decide

theorem decodeManufacturerInfo : EncodedForm.Statement .decodeManufacturerInfo := by
  intro _ cids
  simp only [encode, reduceCtorEq, exists_false, iff_false]; decide

theorem decodeProtocolVersion : EncodedForm.Statement .decodeProtocolVersion := by
  intro _ cids
  simp only [encode, reduceCtorEq, exists_false, iff_false]; decide

theorem decodeSoftwareVersion : EncodedForm.Statement .decodeSoftwareVersion := by
  intro _ cids
  simp only [encode, reduceCtorEq, exists_false, iff_false]; decide

theorem decodeSystemParameters : EncodedForm.Statement .decodeSystemParameters := by
  intro _ cids
  simp only [encode, reduceCtorEq, exists_false, iff_false]; decide

theorem decodeAlarmInfo : EncodedForm.Statement .decodeAlarmInfo := by
  intro _ cids
  simp only [encode, reduceCtorEq, exists_false, iff_false]; decide

theorem decodeChargeManagementInfo : EncodedForm.Statement .decodeChargeManagementInfo := by
  intro _ cids
  simp only [encode, reduceCtorEq, exists_false, iff_false]; decide

theorem decodeAnalogValue : EncodedForm.Statement .decodeAnalogValue := by
  intro _ cids
  simp only [encode, reduceCtorEq, exists_false, iff_false]; decide

theorem softReset : EncodedForm.Statement .softReset := by
  intro _ cids
  simp only [encode, reduceCtorEq, exists_false, iff_false]; decide

theorem illegal (w : Word16) : EncodedForm.Statement (.illegal w) := by
  intro h cids
  simpa [encode, Instr.wellFormed] using h

theorem requestSerialNumber (a : Byte) : EncodedForm.Statement (.requestSerialNumber a) := by
  intro _ cids
  exact requestFrame_form cids .serialNumber a

theorem requestManufacturerInfo (a : Byte) : EncodedForm.Statement (.requestManufacturerInfo a) := by
  intro _ cids
  exact requestFrame_form cids .manufacturerInfo a

theorem requestProtocolVersion (a : Byte) : EncodedForm.Statement (.requestProtocolVersion a) := by
  intro _ cids
  exact requestFrame_form cids .protocolVersion a

theorem requestSoftwareVersion (a : Byte) : EncodedForm.Statement (.requestSoftwareVersion a) := by
  intro _ cids
  exact requestFrame_form cids .softwareVersion a

theorem requestSystemParameters (a : Byte) : EncodedForm.Statement (.requestSystemParameters a) := by
  intro _ cids
  exact requestFrame_form cids .systemParameters a

theorem requestAlarmInfo (a : Byte) : EncodedForm.Statement (.requestAlarmInfo a) := by
  intro _ cids
  exact requestFrame_form cids .alarmInfo a

theorem requestChargeManagementInfo (a : Byte) : EncodedForm.Statement (.requestChargeManagementInfo a) := by
  intro _ cids
  exact requestFrame_form cids .chargeManagementInfo a

theorem requestAnalogValue (a : Byte) : EncodedForm.Statement (.requestAnalogValue a) := by
  intro _ cids
  exact requestFrame_form cids .analogValue a

end EncodedForm

end Sys2Proof.Laws
end

