-- ==== Sys2Proof/Tests/Slice0.lean ====
section
/-! SUPPORT. The model's own tests. Expected results come from spec/95_test_vectors.md (named in each docstring), from the
tables of 30_encoding.md, or by hand from a rule. After them, for each statement of Certificates/Slice0/Obligations.lean
that has hypotheses, a concrete state and operands that meet them together (`witness_…`). -/

namespace Sys2Proof.Machine

set_option Elab.async false

/-! ### Helpers -/

/-- The bytes of a line on the wire: its characters and the CR that ends it. -/
def line (s : String) : List Byte :=
  ascii s ++ [cr]

/-- `n` zeros. -/
def zeros (n : Nat) : String :=
  String.ofList (List.replicate n '0')

/-- `t` with the string `u` put over it from offset `i` on. -/
def patch (i : Nat) (u : String) (t : List Byte) : List Byte :=
  t.take i ++ ascii u ++ t.drop (i + (ascii u).length)

/-- The reset state after a reception of these bytes, which end with CR. -/
def received (f : List Byte) : State :=
  { State.reset with rxbuf := (List.range f.length).zip f, rxLen := BitVec.ofNat 16 f.length, rxstat := 0x01#8 }

/-- The same, after an OK validation for kind `k`. -/
def validated (k : Kind) (f : List Byte) : State :=
  { received f with valstat := valstatWord true true true k.number, rtn := 0x3030#16, status := 0x00000001#32 }

/-- A state whose RX_LEN exceeds RX_MAX, which no run reaches. -/
def overlong : State :=
  { State.reset with rxLen := 257, valstat := valstatWord true false false 0 }

/-- One field of the state an instruction leaves; none if it stops. -/
def after {α : Type} (i : Instr) (s : State) (f : State → α) : Option α :=
  match exec i s with
  | .next t => some (f t)
  | .fault _ => none
  | .refused _ => none

/-- STATUS, VALSTAT, RTN and RX_CHK. -/
def results (s : State) : Word32 × Byte × Word16 × Word16 :=
  (s.status, s.valstat, s.rtn, s.rxChk)

/-- V-SN (L2.6). -/
def vSN : List Byte := line "~20024600C0220250505442483032343030303031323334F6E3"

/-- V-MI (L2.6). -/
def vMI : List Byte := line "~20024600C04055533230303043202020010250594C4F4E205445434820434F204C5444202020F094"

/-- V-PV (L2.6). -/
def vPV : List Byte := line "~350246000000FDAC"

/-- V-SW (L2.6). -/
def vSW : List Byte := line "~20024600400C020105020A03FB3D"

/-- V-SP (L2.6). -/
def vSP : List Byte := line "~20024600002E020E100D480B540D1B0AAB01F4D2F0BB80B3B00D7F0A11F36F"

/-- V-AL (L2.6). -/
def vAL : List Byte := line "~20024600A04200020F000000000000000000000000000000050000000000000000000000000000F11E"

/-- V-CM (L2.6). -/
def vCM : List Byte := line "~20024600B01402D002AFC800FAFF06C0F915"

/-- V-AV2 (L2.6). -/
def vAV2 : List Byte :=
  line ("~20024600C06E00020F0CE40CEE0CDA0CE90CE50CE50CE50CE50CE50CE50CE50CE50CE50CE50CE505" ++
    "0BA50B9B0B9C0B9D0B9EFFFFD2F0C35002C3500010E467")

/-- V-AV4 (L2.6). -/
def vAV4 : List Byte :=
  line ("~20024600F07A00020F0CE40CEE0CDA0CE90CE50CE50CE50CE50CE50CE50CE50CE50CE50CE50CE505" ++
    "0BA50B9B0B9C0B9D0B9E0032D2F0FFFF04FFFF00100186A0030D40E1C3")

/-! ### Well-formedness: ill-formed terms are refused -/

/-- R102: a legal word is no `illegal` instruction. -/
theorem test_wellFormed_refuses_legal_word_as_illegal :
    (Instr.illegal 0x0101#16).wellFormed = false ∧ (Instr.illegal 0x000F#16).wellFormed = false := by decide

/-- R109: BatteryAddress 0 has no ADR. -/
theorem test_wellFormed_refuses_request_address_zero :
    ∀ k ∈ Kind.all, (requestInstr k 0).wellFormed = false := by decide

/-- R109: ADR of BatteryAddress 255 would not fit a byte. -/
theorem test_wellFormed_refuses_request_address_255 :
    ∀ k ∈ Kind.all, (requestInstr k 255).wellFormed = false := by decide

/-- What stays well-formed at the bounds. -/
theorem test_wellFormed_accepts_bounds :
    (Instr.illegal 0x0085#16).wellFormed = true ∧ (Instr.requestAlarmInfo 1).wellFormed = true ∧
    (Instr.requestAlarmInfo 254).wellFormed = true := by decide

/-! ### Decoding: words written out from R100 and R101 (ARG, KIND, OP) -/

/-- BUILD AlarmInfo, 2: ARG 00000010, KIND 0101, OP 0001. -/
theorem test_decode_build : decodeWord 0b00000010_0101_0001#16 = .build .alarmInfo 2 := by decide

/-- RX_RESET: OP 0010. -/
theorem test_decode_rxReset : decodeWord 0b00000000_0000_0010#16 = .rxReset := by decide

/-- RX_BYTE `A`: ARG 01000001, OP 0011. -/
theorem test_decode_rxByte : decodeWord 0b01000001_0000_0011#16 = .rxByte 0x41 := by decide

/-- RX_TIMEOUT: OP 0100. -/
theorem test_decode_rxTimeout : decodeWord 0b00000000_0000_0100#16 = .rxTimeout := by decide

/-- VALIDATE ChargeManagementInfo: KIND 0110, OP 0101. -/
theorem test_decode_validate : decodeWord 0b00000000_0110_0101#16 = .validate .chargeManagementInfo := by decide

/-- DECODE of each kind: KIND 0000 to 0111, OP 0110. -/
theorem test_decode_decode :
    decodeWord 0b00000000_0000_0110#16 = .decodeSerialNumber ∧
    decodeWord 0b00000000_0001_0110#16 = .decodeManufacturerInfo ∧
    decodeWord 0b00000000_0010_0110#16 = .decodeProtocolVersion ∧
    decodeWord 0b00000000_0011_0110#16 = .decodeSoftwareVersion ∧
    decodeWord 0b00000000_0100_0110#16 = .decodeSystemParameters ∧
    decodeWord 0b00000000_0101_0110#16 = .decodeAlarmInfo ∧
    decodeWord 0b00000000_0110_0110#16 = .decodeChargeManagementInfo ∧
    decodeWord 0b00000000_0111_0110#16 = .decodeAnalogValue := by decide +kernel

/-- SOFT_RESET: OP 1111. -/
theorem test_decode_softReset : decodeWord 0b00000000_0000_1111#16 = .softReset := by decide

/-- Illegal words of L2.9. -/
theorem test_decode_illegal :
    [0x0000#16, 0x0007#16, 0x0085#16, 0x00F6#16, 0x0012#16, 0x0102#16, 0x0105#16, 0x010F#16, 0xFFFF#16].map decodeWord =
      [0x0000#16, 0x0007#16, 0x0085#16, 0x00F6#16, 0x0012#16, 0x0102#16, 0x0105#16, 0x010F#16, 0xFFFF#16].map .illegal := by
  decide +kernel

/-- The frames of W5 and W6, read back character by character. -/
theorem test_decode_wire :
    decode cidTableDefault (.wire (line "~20024693E00202FD2D")) = .ok (.requestSerialNumber 1) ∧
    decode cidTableDefault (.wire (line "~20034644E00203FD2F")) = .ok (.requestAlarmInfo 2) ∧
    decode cidTableDefault (.wire (line "~0002464FE00202FD21")) = .ok (.requestProtocolVersion 1) := by decide +kernel

/-- A wire request with one wrong part is refused by the name of that part. -/
theorem test_decode_wire_errors :
    decode cidTableDefault (.wire (line "~20024693E00202FD2")) = .error (.frameLength 19) ∧
    decode cidTableDefault (.wire (line "020024693E00202FD2D")) = .error .soi ∧
    decode cidTableDefault (.wire (ascii "~20024693E00202FD2D0")) = .error .eoi ∧
    decode cidTableDefault (.wire (line "~20024693E00203FD2D")) = .error .info ∧
    decode cidTableDefault (.wire (line "~20024693E00202FD2C")) = .error .checksum ∧
    decode cidTableDefault (.wire (line "~20024693F00202FD2D")) = .error .lengthField := by decide +kernel

/-- Bits as spec/opcode_table.json numbers them: a command word, and the 20 characters of `~20024693E00202FD2D` CR with
the first character in the least significant byte. -/
theorem test_decodeTableWord :
    decodeTableWord 16 0x0251 = some (.build .alarmInfo 2) ∧
    decodeTableWord 160 0xd4432444632303230304533393634323030327e = some (.requestSerialNumber 1) := by decide +kernel

/-- Both kinds of table row run as the first instruction after reset. -/
theorem test_withFetchWord :
    step (State.reset.withFetchWord 16 0x0251) = exec (.build .alarmInfo 2) State.reset ∧
    step (State.reset.withFetchWord 160 0xd4432444632303230304533393634323030327e) = exec (.requestSerialNumber 1) State.reset :=
  ⟨rfl, rfl⟩

/-- With no command word pending the block holds its state (R323). -/
theorem test_idle_step : step State.reset = .next State.reset := rfl

/-! ### Encoding -/

/-- The words of R117's examples and program P2. -/
theorem test_encode :
    encode cidTableDefault (.build .alarmInfo 2) = .command 0x0251#16 ∧
    encode cidTableDefault (.rxByte 0x7E) = .command 0x7E03#16 ∧
    encode cidTableDefault (.validate .analogValue) = .command 0x0075#16 ∧
    encode cidTableDefault .decodeAnalogValue = .command 0x0076#16 := by decide

/-- `EXCHANGE` has no DECODE (conflict C10): BUILD, RX_RESET, RX_BYTE per byte, VALIDATE. -/
theorem test_assemble_exchange :
    assemble (.exchange .analogValue 1 (ascii "~2")) = [0x0171#16, 0x0002#16, 0x7E03#16, 0x3203#16, 0x0075#16] := by
  decide

/-! ### Checksums and LENGTH (L2.1, L2.2) -/

/-- W1, W3 and the empty string. -/
theorem test_checksum :
    checksum (ascii "20024693E00202") = 0xFD2D#16 ∧ checksum (ascii "20034693E00203") = 0xFD2B#16 ∧
    checksum [] = 0x0000#16 ∧ checksum (ascii "~") = 0xFF82#16 := by decide +kernel

/-- L2.2. -/
theorem test_lengthField :
    lengthField 2 = 0xE002#16 ∧ lengthField 18 = 0xD012#16 ∧ lengthField 110 = 0xC06E#16 ∧
    lengthField 4095 = 0x3FFF#16 := by decide

/-! ### BUILD (L2.3) -/

/-- W4. -/
theorem test_build_serialNumber :
    after (.build .serialNumber 1) State.reset (fun t => (t.txFrame, t.txLen, t.txChk, t.status)) =
      some (line "~20024693E00202FD2D", 20, 0xFD2D#16, 0x00000001#32) := by decide +kernel

/-- L2.3, word 0xFF01: the frame is unsendable and AUX is the address. -/
theorem test_build_invalid_address :
    after (.build .serialNumber 255) State.reset (fun t => (t.txLen, t.status)) = some (0, 0x00FF0008#32) := by
  decide +kernel

/-- L2.3 with ADDR_MAX = 254: ADR 0x0B is spelled with a letter; the wire row produces its own frame. -/
theorem test_requestSerialNumber_letter_adr :
    after (.requestSerialNumber 10) (State.resetWith { paramsDefault with addrMax := 254 }) State.txFrame =
      some (line "~200B4693E0020BFD0D") := by decide +kernel

/-- R163, one frame of each of the other kinds. -/
theorem test_request_frames :
    after (.requestManufacturerInfo 1) State.reset State.txFrame = some (line "~20024651E00202FD33") ∧
    after (.requestProtocolVersion 1) State.reset State.txFrame = some (line "~0002464FE00202FD21") ∧
    after (.requestSoftwareVersion 2) State.reset State.txFrame = some (line "~20034696E00203FD28") ∧
    after (.requestSystemParameters 3) State.reset State.txFrame = some (line "~20044647E00204FD2A") ∧
    after (.requestAlarmInfo 2) State.reset State.txFrame = some (line "~20034644E00203FD2F") ∧
    after (.requestChargeManagementInfo 6) State.reset State.txFrame = some (line "~20074692E00207FD24") ∧
    after (.requestAnalogValue 1) State.reset State.txFrame = some (line "~20024642E00202FD33") := by decide +kernel

/-! ### Reception (L2.4) -/

/-- A byte is appended, and CR sets DONE. -/
theorem test_rxByte_cr :
    after (.rxByte 0x0D) { State.reset with rxLen := 3 } (fun t => (t.rxLen, t.rxstat, t.status, t.rxbuf)) =
      some (4, 0x01#8, 0, [(3, 0x0D#8)]) := by decide +kernel

/-- RX_MAX = 4, `A` as the fifth byte. -/
theorem test_rxByte_overflow :
    after (.rxByte 0x41) { State.resetWith { paramsDefault with rxMax := 4 } with rxLen := 4 }
      (fun t => (t.rxLen, t.rxstat, t.status, t.rxbuf)) = some (4, 0x04#8, 0x00410009#32, []) := by decide +kernel

/-- A timeout, and RX_RESET after it. -/
theorem test_rxTimeout_then_reset :
    after .rxTimeout State.reset (fun t => (t.rxstat, t.status)) = some (0x02#8, 0x00000006#32) ∧
    after .rxReset { validated .alarmInfo vAL with rxChk := 7 } (fun t => (t.rxLen, t.rxstat, results t)) =
      some (0, 0, 0, 0, 0x3030#16, 7) := by decide +kernel

/-! ### VALIDATE (L2.5) -/

/-- W9: TOO_SHORT before the return code. -/
theorem test_validate_tooShort :
    after (.validate .serialNumber) (received (line "~200246910000FDA8")) results =
      some (0x00340003#32, 0x06#8, 0, 0xFDA8#16) := by decide +kernel

/-- A wrong CHECKSUM does not gate, and RTN is stored. -/
theorem test_validate_wrong_checksum :
    after (.validate .protocolVersion) (received (line "~200246000000FDAC")) results =
      some (0x00000001#32, 0x23#8, 0x3030#16, 0xFDB2#16) ∧
    after (.validate .protocolVersion) (received (line "~200246ZZ0000FDAC")) results =
      some (0x00000005#32, 0x02#8, 0x5A5A#16, 0xFD5E#16) := by decide +kernel

/-! ### DECODE (L2.6, L2.7) -/

/-- V-SN: "PPTBH02400001234". -/
theorem test_decodeSerialNumber :
    after .decodeSerialNumber (validated .serialNumber vSN) (fun t => (t.serialNumber.snByte, t.decValid, t.status)) =
      some (ascii "PPTBH02400001234", 0x01#8, 0x00000001#32) := by decide +kernel

/-- The 34-character frame: DECODE_OVERRUN(15). -/
theorem test_decodeSerialNumber_overrun :
    after .decodeSerialNumber (validated .serialNumber (line "~20024600C0120250505442483032FA6D"))
      (fun t => (t.decValid, t.status)) = some (0, 0x000F000A#32) := by decide +kernel

/-- V-MI: "US2000C   ", 1, 2, "PYLON TECH CO LTD   ". -/
theorem test_decodeManufacturerInfo :
    after .decodeManufacturerInfo (validated .manufacturerInfo vMI)
      (fun t => (t.manufacturerInfo.miType.toList, t.manufacturerInfo.miFwMajor, t.manufacturerInfo.miFwMinor,
        t.manufacturerInfo.miManuf.toList, t.decValid)) =
      some (ascii "US2000C   ", 1, 2, ascii "PYLON TECH CO LTD   ", 0x02#8) := by decide +kernel

/-- V-PV: 3 and 5. -/
theorem test_decodeProtocolVersion :
    after .decodeProtocolVersion (validated .protocolVersion vPV) (fun t => (t.protocolVersion, t.decValid)) =
      some (⟨3, 5⟩, 0x04#8) := by decide +kernel

/-- The version letter `G`: BAD_HEX_DIGIT(1). -/
theorem test_decodeProtocolVersion_letter :
    after .decodeProtocolVersion (validated .protocolVersion (line "~G10246000000FD9C"))
      (fun t => (t.decValid, t.status)) = some (0, 0x0001000B#32) := by decide +kernel

/-- V-SW: 1, 5 and 2, 10, 3. -/
theorem test_decodeSoftwareVersion :
    after .decodeSoftwareVersion (validated .softwareVersion vSW) (fun t => (t.softwareVersion, t.decValid)) =
      some (⟨1, 5, 2, 10, 3⟩, 0x08#8) := by decide +kernel

/-- V-SP: the eleven raws. -/
theorem test_decodeSystemParameters :
    after .decodeSystemParameters (validated .systemParameters vSP) (fun t => (t.systemParameters.spRaw.toList, t.decValid)) =
      some ([3600, 3400, 2900, 3355, 2731, 500, 54000, 48000, 46000, 3455, 2577], 0x10#8) := by decide +kernel

/-- V-AL and V-AL49: offsets 49 and 50 are not examined. -/
theorem test_decodeAlarmInfo_ok :
    after .decodeAlarmInfo (validated .alarmInfo vAL) (fun t => (t.alarmInfo, t.decValid)) = some (⟨15, true⟩, 0x20#8) ∧
    after .decodeAlarmInfo (validated .alarmInfo (patch 49 "11" vAL)) (·.alarmInfo) = some ⟨15, true⟩ := by decide +kernel

/-- V-AL2 and V-ALZ: a digit other than 0, and no hex digit, both only clear AL_OK. -/
theorem test_decodeAlarmInfo_failure :
    after .decodeAlarmInfo (validated .alarmInfo (patch 25 "02" vAL)) (·.alarmInfo) = some ⟨15, false⟩ ∧
    after .decodeAlarmInfo (validated .alarmInfo (patch 20 "Z" vAL)) (fun t => (t.alarmInfo, t.status)) =
      some (⟨15, false⟩, 0x00000001#32) := by decide +kernel

/-- V-CM. -/
theorem test_decodeChargeManagementInfo :
    after .decodeChargeManagementInfo (validated .chargeManagementInfo vCM) (fun t => (t.chargeManagementInfo, t.decValid)) =
      some (⟨53250, 45000, 250, 65286, 0xC0#8⟩, 0x40#8) := by decide +kernel

/-- V-AV2 and V-AV4: the two capacity layouts. -/
theorem test_decodeAnalogValue :
    after .decodeAnalogValue (validated .analogValue vAV2)
      (fun t => (t.analogValue.avCell.toList.take 5, t.analogValue.avTemp.toList, t.analogValue.avCurrent,
        t.analogValue.avRemCap, t.analogValue.avTotCap)) =
      some ([3300, 3310, 3290, 3305, 3301], [2981, 2971, 2972, 2973, 2974], 0xFFFF#16, 50000, 50000) ∧
    after .decodeAnalogValue (validated .analogValue vAV4)
      (fun t => (t.analogValue.avUdi, t.analogValue.avRemCap, t.analogValue.avTotCap, t.decValid)) =
      some (4, 100000, 200000, 0x80#8) := by decide +kernel

/-- L2.7: the CR read as a digit, the temperature before the discriminator, an unsupported discriminator, four cells. -/
theorem test_decodeAnalogValue_corners :
    after .decodeAnalogValue (validated .analogValue (patch 113 "04" vAV2)) (·.status) = some 0x007B000A#32 ∧
    after .decodeAnalogValue (validated .analogValue (patch 81 "0G" (patch 113 "03" vAV2))) (·.status) =
      some 0x0052000B#32 ∧
    after .decodeAnalogValue (validated .analogValue (patch 113 "03" vAV2)) (·.status) = some 0x00030007#32 ∧
    after .decodeAnalogValue (validated .analogValue (patch 17 "04" vAV2))
      (fun t => (t.analogValue.avNCells, t.analogValue.avCell.toList.drop 3)) =
      some (4, 3305 :: List.replicate 11 0) := by decide +kernel

/-- L2.7: no validation, and a validation of another kind. -/
theorem test_decode_notValidated :
    after .decodeAnalogValue State.reset (·.status) = some 0x0000000C#32 ∧
    after .decodeSerialNumber (validated .analogValue vAV2) (·.status) = some 0x0000000C#32 := by decide +kernel

/-! ### Control (L2.9) -/

/-- SOFT_RESET restores the reset state. -/
theorem test_softReset : exec .softReset (validated .alarmInfo vAL) = .next State.reset := rfl

/-- 0x0085 raises ILLEGAL_COMMAND and changes nothing else. -/
theorem test_illegal :
    exec (.illegal 0x0085#16) State.reset = .next { State.reset with status := 0x0085000D#32 } := rfl

/-! ### Interpretation (L2.8) -/

theorem test_volt_temperature :
    volt 4095 = 819 / 200 ∧ temperature 2730 = -1 / 10 ∧ temperature 0 = -2731 / 10 ∧ spCurrent 500 = 50 ∧
    spDischargeCurrent 65285 = 25 ∧ cmDischargeCurrent 65286 = 25 ∧ packCurrent 0x8000#16 = -16384 / 5 ∧
    capacity 0xFFFFFF#24 = 16777215 / 1000 := by decide +kernel

theorem test_render :
    render 3 (volt 3300) = "3.300" ∧ render 1 (temperature 2730) = "-0.1" ∧ render 1 (packCurrent 0x8000#16) = "-3276.8" ∧
    render 3 (spDischargeCurrent 0) = "6553.500" ∧ versionText 10 3 = "V10.3" := by decide +kernel

/-- V-AV2's derived values (L2.6, W14): SoC 100 %, average 18/5, imbalance 5/9 %, discharging. -/
theorem test_derived_values :
    after .decodeAnalogValue (validated .analogValue vAV2)
      (fun t => (stateOfCharge t.analogValue, averageCellVolt t.analogValue, imbalance t.analogValue, packState t.analogValue)) =
      some (100, 18 / 5, some (5 / 9), .discharging) := by decide +kernel

/-- W11 and program P4: RTN = 0x3931 is reported with the source's text, whatever the other texts are. -/
theorem test_deviceReportText :
    after (.validate .protocolVersion) (received (patch 7 "91" vPV)) (fun t => (t.status, t.rtn, deviceReportText [] t)) =
      some (0x00000004#32, 0x3931#16, some "Communication error between Master and Slave Pack") ∧
    rtnText rtnTextsDefault ⟨0x39#8, 0x30#8⟩ = some "ADR error" ∧ rtnText rtnTextsDefault ⟨0x30#8, 0x37#8⟩ = none := by
  decide +kernel

/-- V-CM's limits (L2.6). -/
theorem test_charge_management_limits :
    after .decodeChargeManagementInfo (validated .chargeManagementInfo vCM)
      (fun t => (voltageLimit1 t.chargeManagementInfo, voltageLimit2 t.chargeManagementInfo,
        chargeCurrentLimit t.chargeManagementInfo, dischargeCurrentLimit t.chargeManagementInfo)) =
      some (5325 / 100, 45, 25, 25) := by decide +kernel

/-- D33: a stream of one byte that then ends, under each EOF_POLICY. -/
theorem test_receive_end_of_stream :
    (match receive .timeout [.byte 0x7E#8] State.reset with
      | .next t => some (t.rxLen, t.rxstat, t.status)
      | _ => none) = some (1, 0x02#8, 0x00000006#32) ∧
    (match receive .endExchange [.byte 0x7E#8] State.reset with
      | .next t => some (t.rxLen, t.rxstat, t.status)
      | _ => none) = some (1, 0x00#8, 0) := by decide +kernel

/-- CM_STATUS 0xF8 and 0x07 (L2.8). -/
theorem test_cm_status :
    [chargeEnable ⟨0, 0, 0, 0, 0xF8#8⟩, dischargeEnable ⟨0, 0, 0, 0, 0xF8#8⟩, chargeImmediateSOC5to9 ⟨0, 0, 0, 0, 0xF8#8⟩,
      chargeImmediateSOC9to13 ⟨0, 0, 0, 0, 0xF8#8⟩, chargeFullRequest ⟨0, 0, 0, 0, 0xF8#8⟩] = List.replicate 5 true ∧
    [chargeEnable ⟨0, 0, 0, 0, 0x07#8⟩, dischargeEnable ⟨0, 0, 0, 0, 0x07#8⟩, chargeImmediateSOC5to9 ⟨0, 0, 0, 0, 0x07#8⟩,
      chargeImmediateSOC9to13 ⟨0, 0, 0, 0, 0x07#8⟩, chargeFullRequest ⟨0, 0, 0, 0, 0x07#8⟩] = List.replicate 5 false := by
  decide

/-! ### Witnesses: states and operands that meet the hypotheses of the statements, clause by clause -/

/-- The reset state with another MINLEN of ProtocolVersion, for the responses below 10 characters (L2.5). -/
def shortReceived (f : List Byte) : State :=
  { received f with params := { paramsDefault with minLen := { minLenDefault with protocolVersion := 2 } } }

/-- A field's value where it has one. -/
def valueOf (s : State) (off w : Nat) : Nat :=
  (hexField s off w).getD 0

/-- A validated AlarmInfo response with DECODE AlarmInfo pending. -/
def ready : State :=
  { validated .alarmInfo vAL with cmdIn := [0x0056#16] }

/-- The default parameters are legal (R363). -/
theorem witness_legal_parameters : paramsDefault.Legal where
  addrMin_pos := by decide
  addrMin_le_addrMax := by decide
  addrMax_le := by decide
  rxMax_pos := by decide
  normal_not_known := by decide
  slave_known := by decide
  cid_serialNumber := rfl
  cid_alarmInfo := rfl
  snChars_reading := .inl rfl
  tempBase_fits := by decide

/-- A state in the middle of an exchange meets the invariant. -/
theorem witness_invariant : ready.Inv where
  params_legal := witness_legal_parameters
  tx :=
    { txbuf_wf := by decide
      txbuf_space := by decide
      txLen_values := .inl rfl
      frame_soi := by decide
      frame_checksum := by decide
      frame_eoi := by decide }
  rx :=
    { rxbuf_wf := by decide +kernel
      rxbuf_space := by decide +kernel
      rxLen_le := by decide +kernel
      one_flag := .inr (.inl rfl)
      done_cr := by decide +kernel
      overflow_full := by decide +kernel
      alphabet := by decide +kernel
      cr_last := by decide +kernel }
  result :=
    { status_reserved := by decide +kernel
      status_code := by decide +kernel
      valstat_reserved := by decide +kernel
      valOk_done := by decide +kernel
      valOk_length := by decide +kernel
      match_valid := by decide +kernel }
  fields :=
    { serial_width := by decide
      ncells := by decide
      cells_above := by decide +kernel
      udi := by decide +kernel }

theorem witness_DecodeOfEncodeIsTheInstruction :
    cidsDistinct cidTableDefault = true ∧ (Instr.requestAnalogValue 254).wellFormed = true ∧
    (Instr.illegal 0x0085#16).wellFormed = true := by decide +kernel

theorem witness_EncodeOfDecodeIsTheEncoding :
    decode cidTableDefault (.wire (line "~20034644E00203FD2F")) = .ok (.requestAlarmInfo 2) ∧
    decode cidTableDefault (.command 0xFFFF#16) = .ok (.illegal 0xFFFF#16) := by decide +kernel

/-- Both clauses at both ends of the range. -/
theorem witness_BuildWritesTheRequestFrame :
    0x0251#16 &&& 0x008F#16 = 0x0001#16 ∧ (Supported State.reset 1 ∧ Supported State.reset 6) ∧ (¬ Supported State.reset 0 ∧ ¬ Supported State.reset 7) := by
  decide

theorem witness_BuildProducesTheFrameTable :
    State.reset.params.cidTable = cidTableDefault ∧ State.reset.params.addrMin = 1 ∧ State.reset.params.addrMax = 6 :=
  ⟨rfl, rfl, rfl⟩

theorem witness_BuildDependsOnItsOperandsAlone :
    (validated .alarmInfo vAL).params = State.reset.params ∧ Supported State.reset 6 := ⟨rfl, by decide⟩

/-- Two kinds with one VER and one CID pair; two supported addresses; the addresses with ADR 0x02 and with ADR 0x08, the
last one before 0x09. -/
theorem witness_FramesDependOnKindAndAddressOnlySo :
    let u : State := State.resetWith { paramsDefault with
      addrMax := 254, cidTable := { cidTableDefault with alarmInfo := cidTableDefault.serialNumber } }
    (Supported State.reset 6 ∧ Supported u 6 ∧ requestVer .serialNumber = requestVer .alarmInfo ∧
      State.reset.params.cidTable.get .serialNumber = u.params.cidTable.get .alarmInfo) ∧
    (Supported u 1 ∧ Supported u 254) ∧
    (Supported u 1 ∧ Supported u (1 + 1) ∧ (adrOf 1#8).toNat + 1 ≤ 0x09) ∧
    (Supported u 7 ∧ Supported u (7 + 1) ∧ (adrOf 7#8).toNat + 1 ≤ 0x09) := by decide

/-- Both clauses at both ends of the range. -/
theorem witness_RequestRowsProduceTheirFrames :
    (Supported State.reset 1 ∧ Supported State.reset 6) ∧ ¬ Supported State.reset 0 ∧ ¬ Supported State.reset 7 := by decide

theorem witness_BuiltFrameDecodesAsItsRequest :
    State.reset.params.Legal ∧ cidsDistinct State.reset.params.cidTable = true ∧ Supported State.reset 6 :=
  ⟨witness_legal_parameters, by decide +kernel, by decide⟩

/-- 1024 bytes 0x40 sum to 65536 exactly. -/
theorem witness_ChecksumNegatesTheSum :
    byteSum (List.replicate 1024 0x40#8) % 65536 = 0 ∧ byteSum (List.replicate 1024 0x40#8) ≠ 0 := by decide +kernel

/-- A rearranged string; the longest string of `~` below the bound. -/
theorem witness_ChecksumProperties :
    (ascii "20").Perm (ascii "02") ∧ (List.replicate 515 0x7E#8).length < 516 ∧
    ∀ b ∈ List.replicate 515 0x7E#8, b.toNat ≤ 0x7E :=
  ⟨by decide, by rw [List.length_replicate]; decide, fun b hb => by rw [List.eq_of_mem_replicate hb]; decide⟩

/-- Each clause, the noise at the edges of the alphabet's ranges, the last byte that fits. -/
theorem witness_RxByteAcceptsOneByte :
    0x7E03#16 &&& 0x00FF#16 = 0x0003#16 ∧
    (received vPV).frozen = true ∧
    (¬ ProtocolByte 0x2F ∧ ¬ ProtocolByte 0x3A ∧ ¬ ProtocolByte 0x40 ∧ ¬ ProtocolByte 0x5B ∧ ¬ ProtocolByte 0x61) ∧
    (({ State.reset with rxLen := 256 } : State).frozen = false ∧ ProtocolByte 0x30 ∧
      ({ State.reset with rxLen := 256 } : State).rxLen = State.reset.params.rxMax) ∧
    (({ State.reset with rxLen := 255 } : State).frozen = false ∧ ProtocolByte 0x0D ∧
      ({ State.reset with rxLen := 255 } : State).rxLen.toNat < State.reset.params.rxMax.toNat) := by decide +kernel

theorem witness_RxTimeoutEndsTheRead : State.reset.frozen = false ∧ (received vPV).frozen = true := by decide +kernel

theorem witness_FrozenAccumulatorStays :
    (received vPV).frozen = true ∧ (∃ t, exec (.rxByte 0x30) (received vPV) = .next t) ∧
    ∃ t, exec .rxTimeout (received vPV) = .next t := ⟨by decide +kernel, ⟨_, rfl⟩, ⟨_, rfl⟩⟩

/-- Noise before, inside and after a line (L2.4), and the longest stream the accumulator takes. -/
theorem witness_StreamLeavesItsAcceptedBytes :
    State.reset.rxstat = 0 ∧ State.reset.rxLen = 0 ∧
    acceptedBytes [0x0A, 0x7E, 0x32, 0x00, 0x61, 0x30, 0xFF, 0x0D, 0x7E] = line "~20" ∧
    (acceptedBytes [0x0A, 0x7E, 0x32, 0x00, 0x61, 0x30, 0xFF, 0x0D, 0x7E]).length ≤ State.reset.params.rxMax.toNat ∧
    (acceptedBytes (List.replicate 256 0x30)).length ≤ State.reset.params.rxMax.toNat := by decide +kernel

theorem witness_MissingElementFaults :
    overlong.params.rxMax.toNat < overlong.rxLen.toNat ∧ overlong.frozen = false ∧ ProtocolByte 0x30 ∧
    overlong.rxOverflowed = false ∧ overlong.rxTimedOut = false ∧ overlong.valOk = true ∧
    overlong.valKind = Kind.serialNumber.number := by decide +kernel

/-- Overflow, timeout, and the shapes of 0, 1 and 17 characters that fail. -/
theorem witness_ValidateChecksFlagsThenShape :
    ({ State.reset with rxstat := 0x04#8 } : State).rxOverflowed = true ∧
    (({ State.reset with rxstat := 0x02#8 } : State).rxOverflowed = false ∧
      ({ State.reset with rxstat := 0x02#8 } : State).rxTimedOut = true) ∧
    (State.reset.rxOverflowed = false ∧ State.reset.rxTimedOut = false ∧
      State.reset.rxLen.toNat ≤ State.reset.params.rxMax.toNat ∧ ¬ ResponseShape State.reset ∧
      ¬ ResponseShape (received (line "")) ∧ ¬ ResponseShape (received (line "350246000000FDAC"))) := by decide +kernel

/-- L = 2 and L = 17 are too short for ProtocolVersion; L = 9 with MINLEN 2 has no return code. -/
theorem witness_ValidateChecksLengthBeforeReturnCode :
    ((received (line "~")).rxOverflowed = false ∧ (received (line "~")).rxTimedOut = false ∧
      (received (line "~")).rxLen.toNat ≤ (received (line "~")).params.rxMax.toNat ∧ ResponseShape (received (line "~")) ∧
      (received (line "~")).rxLen.toNat < (paramsDefault.minLen.get .protocolVersion).toNat) ∧
    (ResponseShape (received (line "~350246000000FDA")) ∧
      (received (line "~350246000000FDA")).rxLen.toNat < (paramsDefault.minLen.get .protocolVersion).toNat) ∧
    ((shortReceived (line "~2002460")).rxOverflowed = false ∧ (shortReceived (line "~2002460")).rxTimedOut = false ∧
      (shortReceived (line "~2002460")).rxLen.toNat ≤ (shortReceived (line "~2002460")).params.rxMax.toNat ∧
      ResponseShape (shortReceived (line "~2002460")) ∧
      ((shortReceived (line "~2002460")).params.minLen.get .protocolVersion).toNat ≤
        (shortReceived (line "~2002460")).rxLen.toNat ∧
      (shortReceived (line "~2002460")).rxLen.toNat < 10) := by decide +kernel

/-- The shortest response with a return code, L = 10, and V-PV at its MINLEN. -/
theorem witness_ValidateAcceptsNormalReturnCode :
    (ReachesReturnCode .protocolVersion (shortReceived (line "~20024600")) ∧
      (shortReceived (line "~20024600")).rxbuf.read 7 = 0x30#8 ∧ (shortReceived (line "~20024600")).rxbuf.read 8 = 0x30#8) ∧
    (ReachesReturnCode .protocolVersion (received vPV) ∧ (received vPV).rxbuf.read 7 = 0x30#8 ∧
      (received vPV).rxbuf.read 8 = 0x30#8) := by decide +kernel

/-- The source's code and another known one; a state that reports nothing. -/
theorem witness_KnownReturnCodeIsReportedWithItsText :
    (∀ c ∈ ["91", "01"],
      ReachesReturnCode .protocolVersion (received (patch 7 c vPV)) ∧
      ⟨(received (patch 7 c vPV)).rxbuf.read 7, (received (patch 7 c vPV)).rxbuf.read 8⟩ ∈ (received vPV).params.rtnKnown ∧
      ¬ ((received (patch 7 c vPV)).rxbuf.read 7 = 0x30#8 ∧ (received (patch 7 c vPV)).rxbuf.read 8 = 0x30#8)) ∧
    ((received (patch 7 "91" vPV)).rxbuf.read 7 = 0x39#8 ∧ (received (patch 7 "91" vPV)).rxbuf.read 8 = 0x31#8) ∧
    State.reset.code ≠ 0x4#4 := by decide +kernel

/-- A known code, an unknown one, and one that differs from "00" in one character. -/
theorem witness_ValidateClassifiesOtherReturnCodes :
    ∀ c ∈ ["91", "ZZ", "01"],
      ReachesReturnCode .protocolVersion (received (patch 7 c vPV)) ∧
      ¬ ((received (patch 7 c vPV)).rxbuf.read 7 = 0x30#8 ∧ (received (patch 7 c vPV)).rxbuf.read 8 = 0x30#8) := by
  decide +kernel

/-- Both clauses: a response of 6 characters, and one of 5. -/
theorem witness_ValidateComputesTheResponseChecksum :
    (after (.validate .protocolVersion) (received (line "~2002")) State.chkValid = some true ∧
      (received (line "~2002")).rxOverflowed = false ∧ (received (line "~2002")).rxTimedOut = false ∧
      ResponseShape (received (line "~2002")) ∧ 6 ≤ (received (line "~2002")).rxLen.toNat) ∧
    (after (.validate .protocolVersion) (received (line "~200")) State.chkValid = some false ∧
      ¬ ((received (line "~200")).rxOverflowed = false ∧ (received (line "~200")).rxTimedOut = false ∧
        ResponseShape (received (line "~200")) ∧ 6 ≤ (received (line "~200")).rxLen.toNat)) := by decide +kernel

/-- V-PV with a right and with a wrong CHECKSUM. -/
theorem witness_ChecksumNeverGatesTheVerdict :
    14 ≤ (received vPV).rxLen.toNat ∧ (received vPV).rxLen.toNat ≤ (received vPV).params.rxMax.toNat ∧
    (∀ i < (received vPV).rxLen.toNat, i + 5 < (received vPV).rxLen.toNat ∨ i + 1 = (received vPV).rxLen.toNat →
      (received (patch 13 "0000" vPV)).rxbuf.read i = (received vPV).rxbuf.read i) ∧
    (∀ i < (received vPV).rxLen.toNat, (received vPV).rxLen.toNat ≤ i + 5 → i + 2 ≤ (received vPV).rxLen.toNat →
      isShapeChar ((received (patch 13 "0000" vPV)).rxbuf.read i) = true ∧
      isShapeChar ((received vPV).rxbuf.read i) = true) ∧
    (received (patch 13 "0000" vPV)).rxbuf ≠ (received vPV).rxbuf := by decide +kernel

theorem witness_OkOnlyWhenDone :
    ready.RxInv ∧ (ready.valOk = true → ready.rxDone = true) ∧ after (.validate .alarmInfo) ready State.valOk = some true :=
  ⟨witness_invariant.rx, by decide +kernel, by decide +kernel⟩

/-- A field one character too long, a field whose last character is CR, and a readable field. -/
theorem witness_ReadHexChecksThenReads :
    (received vPV).rxLen.toNat < 15 + 4 ∧
    (14 + 4 ≤ (received vPV).rxLen.toNat ∧ (∀ j < 3, (hexdig ((received vPV).rxbuf.read (14 + j))).isSome = true) ∧
      hexdig ((received vPV).rxbuf.read (14 + 3)) = none) ∧
    (13 + 4 ≤ (received vPV).rxLen.toNat ∧
      ∀ i < 4, hexdig ((received vPV).rxbuf.read (13 + i)) = some ([15, 13, 10, 12].getD i 0)) := by decide +kernel

theorem witness_DecodeNeedsItsValidation :
    ¬ (State.reset.valOk = true ∧ State.reset.valKind = Kind.serialNumber.number) ∧
    ¬ ((validated .analogValue vAV2).valOk = true ∧ (validated .analogValue vAV2).valKind = Kind.serialNumber.number) := by
  decide +kernel

theorem witness_DecodeSetsOrClearsItsValidBit :
    after (decodeInstr .protocolVersion) (validated .protocolVersion vPV) State.code = some 0x1#4 ∧
    after (decodeInstr .protocolVersion) State.reset State.code = some 0xC#4 := by decide +kernel

/-- Three of the four failures (the fourth, DECODE_OVERRUN, is in `test_decodeSerialNumber_overrun`). -/
theorem witness_FailedDecodeKeepsEveryField :
    after (decodeInstr .protocolVersion) State.reset State.code = some 0xC#4 ∧
    after (decodeInstr .protocolVersion) (validated .protocolVersion (patch 1 "G" vPV)) State.code = some 0xB#4 ∧
    after (decodeInstr .analogValue) (validated .analogValue (patch 113 "03" vAV2)) State.code = some 0x7#4 := by
  decide +kernel

theorem witness_DecodeSerialNumberFields :
    DecodeReady .serialNumber (validated .serialNumber vSN) ∧
    15 + paramsDefault.snChars ≤ (validated .serialNumber vSN).rxLen.toNat ∧
    ∀ j < paramsDefault.snChars / 2,
      hexField (validated .serialNumber vSN) (15 + 2 * j) 2 = some (valueOf (validated .serialNumber vSN) (15 + 2 * j) 2) := by
  decide +kernel

/-- One character too short: 46 = 15 + 31. -/
theorem witness_ShortSerialNumberOverruns :
    DecodeReady .serialNumber (validated .serialNumber (line "~20024600C01202505054424830323430303030313233")) ∧
    paramsDefault.Legal ∧
    (validated .serialNumber (line "~20024600C01202505054424830323430303030313233")).rxLen.toNat = 15 + 31 :=
  ⟨by decide +kernel, witness_legal_parameters, by decide +kernel⟩

theorem witness_DecodeManufacturerInfoFields :
    DecodeReady .manufacturerInfo (validated .manufacturerInfo vMI) ∧
    (∀ j < 10, hexField (validated .manufacturerInfo vMI) (13 + 2 * j) 2 =
      some (valueOf (validated .manufacturerInfo vMI) (13 + 2 * j) 2)) ∧
    hexField (validated .manufacturerInfo vMI) 33 2 = some 1 ∧ hexField (validated .manufacturerInfo vMI) 35 2 = some 2 ∧
    (∀ j < 20, hexField (validated .manufacturerInfo vMI) (37 + 2 * j) 2 =
      some (valueOf (validated .manufacturerInfo vMI) (37 + 2 * j) 2)) := by decide +kernel

/-- Each of the three clauses. -/
theorem witness_DecodeProtocolVersionFields :
    (DecodeReady .protocolVersion (validated .protocolVersion vPV) ∧ 3 ≤ (validated .protocolVersion vPV).rxLen.toNat ∧
      hexdig ((validated .protocolVersion vPV).rxbuf.read 1) = some 3 ∧
      hexdig ((validated .protocolVersion vPV).rxbuf.read 2) = some 5) ∧
    (DecodeReady .protocolVersion (validated .protocolVersion (patch 1 "G" vPV)) ∧
      hexdig ((validated .protocolVersion (patch 1 "G" vPV)).rxbuf.read 1) = none) ∧
    (DecodeReady .protocolVersion (validated .protocolVersion (patch 2 "G" vPV)) ∧
      (hexdig ((validated .protocolVersion (patch 2 "G" vPV)).rxbuf.read 1)).isSome = true ∧
      hexdig ((validated .protocolVersion (patch 2 "G" vPV)).rxbuf.read 2) = none) := by decide +kernel

theorem witness_DecodeSoftwareVersionFields :
    DecodeReady .softwareVersion (validated .softwareVersion vSW) ∧
    hexField (validated .softwareVersion vSW) 15 2 = some 1 ∧ hexField (validated .softwareVersion vSW) 17 2 = some 5 ∧
    hexField (validated .softwareVersion vSW) 19 2 = some 2 ∧ hexField (validated .softwareVersion vSW) 21 2 = some 10 ∧
    hexField (validated .softwareVersion vSW) 23 2 = some 3 := by decide +kernel

theorem witness_DecodeSystemParametersFields :
    DecodeReady .systemParameters (validated .systemParameters vSP) ∧
    ∀ i < 11, hexField (validated .systemParameters vSP) (15 + 4 * i) 4 =
      some ([3600, 3400, 2900, 3355, 2731, 500, 54000, 48000, 46000, 3455, 2577].getD i 0) := by decide +kernel

/-- For each kind a failing field, its last character among them, with the CODE and AUX that R212 to R215 give by hand. -/
theorem witness_FirstFailingFieldIsReported_each_kind :
    ∀ c ∈ [(Kind.serialNumber, patch 46 "G" vSN, Raised.mk .badHexDigit 46), (.manufacturerInfo, patch 33 "G" vMI, ⟨.badHexDigit, 33⟩),
        (.manufacturerInfo, patch 76 "G" vMI, ⟨.badHexDigit, 76⟩), (.protocolVersion, patch 1 "G" vPV, ⟨.badHexDigit, 1⟩),
        (.softwareVersion, patch 24 "G" vSW, ⟨.badHexDigit, 24⟩), (.systemParameters, patch 15 "G" vSP, ⟨.badHexDigit, 15⟩),
        (.systemParameters, patch 58 "G" vSP, ⟨.badHexDigit, 58⟩), (.alarmInfo, patch 18 "G" vAL, ⟨.badHexDigit, 18⟩),
        (.chargeManagementInfo, patch 32 "G" vCM, ⟨.badHexDigit, 32⟩)],
      DecodeReady c.1 (validated c.1 c.2.1) ∧ firstFailure (validated c.1 c.2.1) c.1 = some c.2.2 := by decide +kernel

/-- An overrun of an early row before a bad digit of a later one (R215), the AlarmInfo range one character short, and the
orders of AnalogValue: the temperature before the discriminator (R215's example), the discriminator, the capacity. -/
theorem witness_FirstFailingFieldIsReported :
    (∀ c ∈ [(Kind.serialNumber, line "~20024600C0120250505442483032FA6D", Raised.mk .decodeOverrun 15),
        (.alarmInfo, vAL.take 76, ⟨.decodeOverrun, 73⟩),
        (.analogValue, patch 81 "0G" (patch 113 "03" vAV2), ⟨.badHexDigit, 82⟩),
        (.analogValue, patch 113 "03" vAV2, ⟨.unsupportedVariant, 3⟩), (.analogValue, patch 113 "04" vAV2, ⟨.decodeOverrun, 123⟩)],
      DecodeReady c.1 (validated c.1 c.2.1) ∧ firstFailure (validated c.1 c.2.1) c.1 = some c.2.2) ∧
    ∀ c ∈ [(Kind.serialNumber, vSN), (.analogValue, vAV2), (.analogValue, vAV4)],
      DecodeReady c.1 (validated c.1 c.2) ∧ firstFailure (validated c.1 c.2) c.1 = none := by decide +kernel

/-- V-AL, and V-AL with its last examined character not `0`. -/
theorem witness_DecodeAlarmInfoFields :
    (DecodeReady .alarmInfo (validated .alarmInfo vAL) ∧ 77 ≤ (validated .alarmInfo vAL).rxLen.toNat ∧
      hexField (validated .alarmInfo vAL) 17 2 = some 15 ∧ AlarmRangesZero (validated .alarmInfo vAL)) ∧
    (DecodeReady .alarmInfo (validated .alarmInfo (patch 76 "1" vAL)) ∧
      ¬ AlarmRangesZero (validated .alarmInfo (patch 76 "1" vAL))) := by decide +kernel

theorem witness_DecodeChargeManagementInfoFields :
    DecodeReady .chargeManagementInfo (validated .chargeManagementInfo vCM) ∧
    hexField (validated .chargeManagementInfo vCM) 15 4 = some 53250 ∧
    hexField (validated .chargeManagementInfo vCM) 19 4 = some 45000 ∧
    hexField (validated .chargeManagementInfo vCM) 23 4 = some 250 ∧
    hexField (validated .chargeManagementInfo vCM) 27 4 = some 65286 ∧
    hexField (validated .chargeManagementInfo vCM) 31 2 = some 0xC0 := by decide +kernel

/-- Both capacity layouts. -/
theorem witness_DecodeAnalogValueFields :
    (DecodeReady .analogValue (validated .analogValue vAV2) ∧
      AnalogFields (validated .analogValue vAV2) 15 (fun i => valueOf (validated .analogValue vAV2) (19 + 4 * i) 4)
        (fun j => valueOf (validated .analogValue vAV2) (81 + 4 * j) 4) 0xFFFF 54000 2 ∧
      AnalogCapacities (validated .analogValue vAV2) 2 50000 50000) ∧
    (DecodeReady .analogValue (validated .analogValue vAV4) ∧
      AnalogFields (validated .analogValue vAV4) 15 (fun i => valueOf (validated .analogValue vAV4) (19 + 4 * i) 4)
        (fun j => valueOf (validated .analogValue vAV4) (81 + 4 * j) 4) 0x32 54000 4 ∧
      AnalogCapacities (validated .analogValue vAV4) 4 100000 200000) := by decide +kernel

theorem witness_OtherDiscriminatorIsUnsupported :
    DecodeReady .analogValue (validated .analogValue (patch 113 "03" vAV2)) ∧
    AnalogFields (validated .analogValue (patch 113 "03" vAV2)) 15
      (fun i => valueOf (validated .analogValue vAV2) (19 + 4 * i) 4)
      (fun j => valueOf (validated .analogValue vAV2) (81 + 4 * j) 4) 0xFFFF 54000 3 := by decide +kernel

theorem witness_IllegalWordOnlyWritesStatus :
    ({ State.reset with cmdIn := [0x0085#16] } : State).cmdIn = [0x0085#16] ∧ legalWord 0x0085#16 = false := by decide

theorem witness_ResetStateIsAllZero :
    (∃ p, State.reset = State.resetWith p) ∧ ∃ u, exec .softReset u = .next State.reset :=
  ⟨⟨_, rfl⟩, validated .alarmInfo vAL, rfl⟩

theorem witness_StepRunsTheDecodedCommand :
    ready.cmdIn = [0x0056#16] ∧ Instr.decodeAlarmInfo.wellFormed = true ∧
    encode ready.params.cidTable .decodeAlarmInfo = .command 0x0056#16 ∧ State.reset.cmdIn = [] := by decide

theorem witness_EveryStepKeepsTheInvariant : ready.Inv ∧ ∃ t, step ready = .next t :=
  ⟨witness_invariant, _, rfl⟩

theorem witness_EveryCommandCompletes : ready.Inv := witness_invariant

theorem witness_NoCommandChangesTheParameters : ∃ t, exec .softReset ready = .next t := ⟨_, rfl⟩

theorem witness_BuffersAreWrittenByTheirCommandsOnly :
    writesTransmit (.rxByte 0x30) = false ∧ (∃ t, exec (.rxByte 0x30) State.reset = .next t) ∧
    ∃ t, exec .rxTimeout State.reset = .next t := ⟨rfl, ⟨_, rfl⟩, ⟨_, rfl⟩⟩

theorem witness_ResultsAreWrittenByTheirCommandsOnly :
    decodedKind .rxReset = none ∧ ∃ t, exec .rxReset ready = .next t := ⟨rfl, _, rfl⟩

theorem witness_StatusCodesAreTheTablesOwn : ∃ t, exec (.illegal 0xFFFF#16) ready = .next t := ⟨_, rfl⟩

theorem witness_CommandsButRxByteAreIdempotent : ready.Inv ∧ ∃ t, exec .rxTimeout ready = .next t :=
  ⟨witness_invariant, _, rfl⟩

/-- A byte from an earlier response stays above RX_LEN. -/
theorem witness_ElementsAboveRxLenAreNeverRead :
    (∀ j < (received vPV).rxLen.toNat, Memory.read ((received vPV).rxbuf ++ [(18, 0x41#8)]) j = (received vPV).rxbuf.read j) ∧
    ∃ t, exec .rxTimeout (received vPV) = .next t := ⟨by decide +kernel, _, rfl⟩

/-- V-PV through a noisy stream, into an accumulator it just fits, at its MINLEN. -/
theorem witness_ExchangeDecodesTheDeliveredResponse :
    let s : State := State.resetWith { paramsDefault with rxMax := 18 }
    let bs : List Byte := 0x0A#8 :: ascii "~35024" ++ [0x00#8, 0x61#8] ++ ascii "6000000FDAC" ++ [0x0D#8, 0x7E#8]
    Supported s 6 ∧ acceptedBytes bs = vPV ∧ shapeOk (acceptedBytes bs) = true ∧
    slice (acceptedBytes bs) 7 2 = [0x30#8, 0x30#8] ∧ 10 ≤ (acceptedBytes bs).length ∧
    (s.params.minLen.get .protocolVersion).toNat ≤ (acceptedBytes bs).length ∧
    (acceptedBytes bs).length ≤ s.params.rxMax.toNat := by decide +kernel

/-- Each clause: the addresses beside the range, streams without CR of which the longest just fits, and one byte too many. -/
theorem witness_FailedReceptionEndsTheExchange :
    let s : State := State.resetWith { paramsDefault with rxMax := 4 }
    (¬ Supported s 0 ∧ ¬ Supported s 7) ∧
    (Supported s 6 ∧ cr ∉ ascii "~2a00" ∧ (acceptedBytes (ascii "~2a00")).length = s.params.rxMax.toNat ∧
      (acceptedBytes []).length ≤ s.params.rxMax.toNat) ∧
    (Supported s 1 ∧ (acceptedBytes (line "~200")).length = s.params.rxMax.toNat + 1) := by decide +kernel

/-- An AnalogValue group with a meaningful cell. -/
theorem witness_RenderedDecimalsAreExact :
    after .decodeAnalogValue (validated .analogValue (patch 17 "04" vAV2))
      (fun t => ((3 : Fin 15).val < t.analogValue.avNCells.toNat : Bool)) = some true := by decide +kernel

/-- Both sides of the sign boundary. -/
theorem witness_PackCurrentIsSigned : (0x7FFF#16).toNat < 0x8000 ∧ 0x8000 ≤ (0x8000#16).toNat := by decide

end Sys2Proof.Machine
end

section
/-! The word of a well-formed instruction, read by `step`: the decoder undoes the encoder on command words, and it does so
for every CID table, since a command word carries no CID (R100; a wire request is no word). -/

namespace Sys2Proof

/-! ### The decoder on the encoder's words -/

theorem decodeWord_buildWord (k : Kind) (a : Byte) : decodeWord (buildWord k a) = .build k a := by
  rw [buildWord, commandWord_append, decodeWord_append]
  cases k <;> rfl

theorem decodeWord_rxByteWord (b : Byte) : decodeWord (commandWord 0x3 0 b) = .rxByte b := by
  rw [show commandWord 0x3 0 b = b ++ 0x03#8 from rfl, decodeWord_append]
  simp

theorem decodeWord_validateWord (k : Kind) : decodeWord (commandWord 0x5 k.number 0) = .validate k := by
  cases k <;> rfl

theorem decodeWord_decodeInstrWord (k : Kind) : decodeWord (commandWord 0x6 k.number 0) = decodeInstr k := by
  cases k <;> rfl

/-- A word that R102's conditions refuse matches none of its rows. Only whether ARG is 0 counts, so each half is a
statement about the 256 low bytes. -/
theorem decodeWord_of_not_legalWord {w : Word16} (h : legalWord w = false) : decodeWord w = .illegal w := by
  obtain ⟨arg, low, rfl⟩ : ∃ arg low : Byte, arg ++ low = w := ⟨_, _, bytes_of_word w⟩
  rw [legalWord_append] at h
  rw [decodeWord_append]
  by_cases ha : arg = 0#8
  · subst ha
    revert low; decide +kernel
  · have unmatched : ¬ low &&& 0x8F#8 = 0x01#8 ∧ ¬ low = 0x03#8 := by
      rw [beq_eq_false_iff_ne.mpr ha] at h
      revert low; decide +kernel
    simp [ha, unmatched]

/-- The decoder gives back the well-formed instruction that a command word encodes. -/
theorem decodeWord_of_encode {cids : PerKind CidPair} {i : Instr} {w : Word16} (hi : i.wellFormed = true)
    (hw : encode cids i = .command w) : decodeWord w = i := by
  obtain ⟨k, a, rfl⟩ | ⟨k, a, rfl⟩ | ⟨k, rfl⟩ | ⟨k, rfl⟩ | rfl | ⟨b, rfl⟩ | rfl | rfl | ⟨v, rfl⟩ := Machine.Instr.shapes i
  · cases hw; exact decodeWord_buildWord k a
  · cases k <;> cases hw
  · rw [← decodeWord_decodeInstrWord k]
    cases k <;> cases hw <;> rfl
  · cases hw; exact decodeWord_validateWord k
  · cases hw; rfl
  · cases hw; exact decodeWord_rxByteWord b
  · cases hw; rfl
  · cases hw; rfl
  · cases hw; exact decodeWord_of_not_legalWord (by simpa [Instr.wellFormed] using hi)

end Sys2Proof

namespace Sys2Proof.Machine

/-- Settles O46: a step with a pending word and an idle step are the two equations of `step`; the word of a well-formed
instruction decodes to it. -/
theorem stepRunsTheDecodedCommand : Obligations.StepRunsTheDecodedCommand := by
  unfold Obligations.StepRunsTheDecodedCommand
  refine ⟨fun s w ws hc => step_of_command hc, fun s i w ws hi hw hc => ?_, fun s hc => step_of_idle hc⟩
  rw [step_of_command hc, decodeWord_of_encode hi hw]

end Sys2Proof.Machine
end

section
/-! What each instruction leaves unchanged (10_state.md R32, the "written by" column): one frame per meaning, from which the
statements about who writes a register follow by the nine shapes of `Instr.shapes`. -/

namespace Sys2Proof.Machine

/-! ### The classes of the two families of rows -/

@[simp] theorem writesTransmit_requestInstr (k : Kind) (a : Byte) : writesTransmit (requestInstr k a) = true := by
  cases k <;> rfl

@[simp] theorem decodedKind_requestInstr (k : Kind) (a : Byte) : decodedKind (requestInstr k a) = none := by
  cases k <;> rfl

@[simp] theorem decodedKind_decodeInstr (k : Kind) : decodedKind (decodeInstr k) = some k := by
  cases k <;> rfl

/-! ### Frames -/

/-- The two ways BUILD can end (R160). -/
theorem buildRequest_cases {k : Kind} {a : Byte} {s t : State} (h : buildRequest k a s = .next t) :
    (addressSupported s.params a = true ∧
      t = { s with
        txbuf := s.txbuf.writeString 0 (requestFrame s.params.cidTable k a), txLen := 20,
        txChk := requestChecksum s.params.cidTable k a, status := statusWord .ok 0 }) ∨
    (addressSupported s.params a = false ∧
      t = { s with txLen := 0, status := statusWord .invalidAddress (a.setWidth 16) }) := by
  cases ha : addressSupported s.params a with
  | true => rw [buildRequest_of_supported ha] at h; cases h; exact .inl ⟨rfl, rfl⟩
  | false => rw [buildRequest_of_unsupported ha] at h; cases h; exact .inr ⟨rfl, rfl⟩

/-- BUILD changes TXBUF, TX_LEN, TX_CHK and STATUS only (R160). -/
theorem buildRequest_frame {k : Kind} {a : Byte} {s t : State} (h : buildRequest k a s = .next t) :
    t = { s with txbuf := t.txbuf, txLen := t.txLen, txChk := t.txChk, status := t.status } := by
  rcases buildRequest_cases h with ⟨-, rfl⟩ | ⟨-, rfl⟩ <;> rfl

/-- RX_BYTE changes RXBUF, RX_LEN, RXSTAT and STATUS only (R281). -/
theorem execRxByte_frame {b : Byte} {s t : State} (h : execRxByte b s = .next t) :
    t = { s with rxbuf := t.rxbuf, rxLen := t.rxLen, rxstat := t.rxstat, status := t.status } := by
  rcases execRxByte_cases h with rfl | ⟨-, -, -, rfl⟩ | ⟨-, -, -, rfl⟩ <;> rfl

/-- The two ways RX_TIMEOUT can end (R285). -/
theorem execRxTimeout_cases {s t : State} (h : execRxTimeout s = .next t) :
    t = s ∨ (s.frozen = false ∧ t = { s with rxstat := setTimeout s.rxstat, status := statusWord .readTimeout 0 }) := by
  cases hf : s.frozen with
  | true => rw [execRxTimeout_of_frozen hf] at h; cases h; exact .inl rfl
  | false => rw [execRxTimeout_of_open hf] at h; cases h; exact .inr ⟨rfl, rfl⟩

/-- RX_TIMEOUT changes RXSTAT and STATUS only (R285). -/
theorem execRxTimeout_frame {s t : State} (h : execRxTimeout s = .next t) :
    t = { s with rxstat := t.rxstat, status := t.status } := by
  rcases execRxTimeout_cases h with rfl | ⟨-, rfl⟩ <;> rfl

/-- DECODE changes field registers, DEC_VALID and STATUS only (R210). -/
theorem exec_decodeInstr_frame {k : Kind} {s t : State} (h : exec (decodeInstr k) s = .next t) :
    t = { s with
      serialNumber := t.serialNumber, manufacturerInfo := t.manufacturerInfo, protocolVersion := t.protocolVersion,
      softwareVersion := t.softwareVersion, systemParameters := t.systemParameters, alarmInfo := t.alarmInfo,
      chargeManagementInfo := t.chargeManagementInfo, analogValue := t.analogValue,
      decValid := t.decValid, status := t.status } := by
  rcases exec_decodeInstr_cases h with ⟨-, rfl⟩ | ⟨-, -, -, ⟨_, -, -, rfl⟩ | hd⟩
  · rfl
  · rfl
  · rw [hd.frame]

/-- No instruction changes the parameters or the words still to be executed (R363; log entry 5). -/
theorem exec_params_cmdIn {i : Instr} {s t : State} (h : exec i s = .next t) :
    t.params = s.params ∧ t.cmdIn = s.cmdIn := by
  obtain ⟨k, a, rfl⟩ | ⟨k, a, rfl⟩ | ⟨k, rfl⟩ | ⟨k, rfl⟩ | rfl | ⟨b, rfl⟩ | rfl | rfl | ⟨w, rfl⟩ := Instr.shapes i
  · rw [buildRequest_frame h]; exact ⟨rfl, rfl⟩
  · rw [exec_requestInstr] at h; rw [buildRequest_frame h]; exact ⟨rfl, rfl⟩
  · rw [exec_decodeInstr_frame h]; exact ⟨rfl, rfl⟩
  · rw [execValidate_frame h]; exact ⟨rfl, rfl⟩
  · cases h; exact ⟨rfl, rfl⟩
  · rw [execRxByte_frame h]; exact ⟨rfl, rfl⟩
  · rw [execRxTimeout_frame h]; exact ⟨rfl, rfl⟩
  · cases h; exact ⟨rfl, rfl⟩
  · cases h; exact ⟨rfl, rfl⟩

/-- Settles O51: each shape's frame leaves out the registers that the shape does not write. -/
theorem buffersAreWrittenByTheirCommandsOnly : Obligations.BuffersAreWrittenByTheirCommandsOnly := by
  unfold Obligations.BuffersAreWrittenByTheirCommandsOnly
  intro i s t h
  obtain ⟨k, a, rfl⟩ | ⟨k, a, rfl⟩ | ⟨k, rfl⟩ | ⟨k, rfl⟩ | rfl | ⟨b, rfl⟩ | rfl | rfl | ⟨w, rfl⟩ := Instr.shapes i
  · rw [buildRequest_frame h]; simp [writesTransmit]
  · rw [exec_requestInstr] at h; rw [buildRequest_frame h]; simp
  · rw [exec_decodeInstr_frame h]; simp
  · rw [execValidate_frame h]; simp
  · cases h; simp
  · rw [execRxByte_frame h]; simp
  · rw [execRxTimeout_frame h]; simp
  · cases h; simp [writesTransmit]
  · cases h; simp

/-- Settles O52: each shape's frame leaves out the registers that the shape does not write; a DECODE that succeeds keeps the
groups of the other kinds. -/
theorem resultsAreWrittenByTheirCommandsOnly : Obligations.ResultsAreWrittenByTheirCommandsOnly := by
  unfold Obligations.ResultsAreWrittenByTheirCommandsOnly
  intro i s t h hr
  obtain ⟨k, a, rfl⟩ | ⟨k, a, rfl⟩ | ⟨k, rfl⟩ | ⟨k, rfl⟩ | rfl | ⟨b, rfl⟩ | rfl | rfl | ⟨w, rfl⟩ := Instr.shapes i
  · rw [buildRequest_frame h]; simp
  · rw [exec_requestInstr] at h; rw [buildRequest_frame h]; simp
  · rcases exec_decodeInstr_cases h with ⟨-, rfl⟩ | ⟨-, -, -, ⟨_, -, -, rfl⟩ | hd⟩
    · simp
    · simp
    · refine ⟨fun _ => ?_, by simp, ?_⟩
      · rw [hd.frame]; simp
      · simpa using ⟨hd.serialNumber, hd.manufacturerInfo, hd.protocolVersion, hd.softwareVersion, hd.systemParameters,
          hd.alarmInfo, hd.chargeManagementInfo, hd.analogValue⟩
  · rw [execValidate_frame h]; simp
  · cases h; simp
  · rw [execRxByte_frame h]; simp
  · rw [execRxTimeout_frame h]; simp
  · exact absurd rfl hr
  · cases h; simp

/-! ### STATUS and DEC_VALID -/

theorem mayWriteStatus_requestInstr {k : Kind} {a : Byte} {s : State} {c : StatusCode} {aux : Word16} :
    MayWriteStatus (requestInstr k a) s c aux ↔ MayWriteStatus (.build k a) s c aux := by
  cases k <;> rfl

/-- The two codes that DECODE of any kind writes with AUX 0 (R41). -/
theorem mayWriteStatus_decodeInstr {k : Kind} {s : State} {c : StatusCode} (h : c ∈ [.ok, .notValidated]) :
    MayWriteStatus (decodeInstr k) s c 0 := by
  cases k <;> exact .inl ⟨h, rfl⟩

/-- The first failing row's failure is one that DECODE of its kind may write (R41, R215). -/
theorem mayWriteStatus_of_failure {k : Kind} {s : State} {e : Raised} (h : DecodeFailure k e)
    (hf : firstFailure s k = some e) : MayWriteStatus (decodeInstr k) s e.code e.aux := by
  have field {l : List StatusCode} (he : FieldFailure e) :
      e.code ∈ .decodeOverrun :: .badHexDigit :: l := by
    rcases he with he | he <;> simp [he]
  rcases h with he | ⟨rfl, _, -, -, rfl⟩
  · cases k <;> exact .inr ⟨field he, hf⟩
  · exact .inr ⟨by simp, hf⟩

theorem buildRequest_status {k : Kind} {a : Byte} {s t : State} (h : buildRequest k a s = .next t) :
    ∃ c aux, MayWriteStatus (.build k a) s c aux ∧ t.status = statusWord c aux := by
  rcases buildRequest_cases h with ⟨-, rfl⟩ | ⟨-, rfl⟩
  · exact ⟨_, _, .inl ⟨rfl, rfl⟩, rfl⟩
  · exact ⟨_, _, .inr ⟨rfl, rfl⟩, rfl⟩

theorem execValidate_status {k : Kind} {s t : State} (h : execValidate k s = .next t) :
    ∃ c aux, MayWriteStatus (.validate k) s c aux ∧ t.status = statusWord c aux := by
  rcases execValidate_cases h with ⟨-, rfl⟩ | ⟨-, -, rfl⟩ |
    ⟨-, -, -, ⟨-, rfl⟩ | ⟨-, ⟨-, rfl⟩ | ⟨-, ⟨-, rfl⟩ | ⟨-, -, rfl⟩ | ⟨-, r, -, -, rfl⟩⟩⟩⟩
  · exact ⟨_, _, .inl ⟨by simp, rfl⟩, rfl⟩
  · exact ⟨_, _, .inl ⟨by simp, rfl⟩, rfl⟩
  · exact ⟨_, _, .inl ⟨by simp, rfl⟩, rfl⟩
  · exact ⟨_, _, .inr ⟨rfl, rfl⟩, rfl⟩
  · exact ⟨_, _, .inl ⟨by simp, rfl⟩, rfl⟩
  · exact ⟨_, _, .inl ⟨by simp, rfl⟩, rfl⟩
  · exact ⟨_, _, .inl ⟨by split <;> simp, rfl⟩, rfl⟩

theorem exec_decodeInstr_status {k : Kind} {s t : State} (h : exec (decodeInstr k) s = .next t) :
    ∃ c aux, MayWriteStatus (decodeInstr k) s c aux ∧ t.status = statusWord c aux := by
  rcases exec_decodeInstr_cases h with ⟨-, rfl⟩ | ⟨-, -, -, ⟨e, he, hf, rfl⟩ | hd⟩
  · exact ⟨_, _, mayWriteStatus_decodeInstr (by simp), rfl⟩
  · exact ⟨_, _, mayWriteStatus_of_failure he hf, rfl⟩
  · exact ⟨_, _, mayWriteStatus_decodeInstr (by simp), congrArg State.status hd.frame⟩

/-- Settles O53: each way a meaning can end writes a row of R41, or is an RX_BYTE or RX_TIMEOUT that ends without STATUS. -/
theorem statusCodesAreTheTablesOwn : Obligations.StatusCodesAreTheTablesOwn := by
  unfold Obligations.StatusCodesAreTheTablesOwn
  intro i s t h
  obtain ⟨k, a, rfl⟩ | ⟨k, a, rfl⟩ | ⟨k, rfl⟩ | ⟨k, rfl⟩ | rfl | ⟨b, rfl⟩ | rfl | rfl | ⟨w, rfl⟩ := Instr.shapes i
  · exact .inr (buildRequest_status h)
  · rw [exec_requestInstr] at h
    simp only [mayWriteStatus_requestInstr]
    exact .inr (buildRequest_status h)
  · exact .inr (exec_decodeInstr_status h)
  · exact .inr (execValidate_status h)
  · cases h; exact .inr ⟨_, _, ⟨rfl, rfl⟩, rfl⟩
  · rcases execRxByte_cases h with rfl | ⟨-, -, -, rfl⟩ | ⟨-, -, -, rfl⟩
    · exact .inl ⟨.inl ⟨b, rfl⟩, rfl⟩
    · exact .inr ⟨_, _, ⟨rfl, rfl⟩, rfl⟩
    · exact .inl ⟨.inl ⟨b, rfl⟩, rfl⟩
  · rcases execRxTimeout_cases h with rfl | ⟨-, rfl⟩
    · exact .inl ⟨.inr rfl, rfl⟩
    · exact .inr ⟨_, _, ⟨rfl, rfl⟩, rfl⟩
  · cases h; exact .inr ⟨_, _, ⟨rfl, rfl⟩, rfl⟩
  · cases h; exact .inr ⟨_, _, ⟨rfl, rfl⟩, rfl⟩

/-- A failure of DECODE does not read as OK in STATUS.CODE (R41, R311). -/
theorem codeBits_ne_ok_of_failure {k : Kind} {e : Raised} (h : DecodeFailure k e) : codeBits e.code ≠ 0x1#4 := by
  rcases h with (he | he) | ⟨-, _, -, -, rfl⟩
  · rw [he]; decide
  · rw [he]; decide
  · exact show codeBits .unsupportedVariant ≠ 0x1#4 by decide

/-- A DECODE that fails clears its bit (R45). -/
theorem decValid_of_failed_decode {k : Kind} {s t : State} {c : StatusCode} {aux : Word16} (hc : codeBits c ≠ 0x1#4)
    (ht : t = { s with decValid := clearDecoded s.decValid k, status := statusWord c aux }) :
    (t.decoded k = true ↔ t.code = 0x1#4) ∧ ∀ j, j ≠ k → t.decoded j = s.decoded j := by
  subst ht
  refine ⟨?_, fun j hj => ?_⟩
  · simp [State.decoded, State.code, clearDecoded_bit, hc]
  · simp [State.decoded, clearDecoded_bit, hj]

/-- Settles O30: the two failing ends of DECODE clear the bit, the succeeding one sets it. -/
theorem decodeSetsOrClearsItsValidBit : Obligations.DecodeSetsOrClearsItsValidBit := by
  unfold Obligations.DecodeSetsOrClearsItsValidBit
  refine ⟨State.resetWith_decValid, fun k s t h => ?_⟩
  rcases exec_decodeInstr_cases h with ⟨-, ht⟩ | ⟨-, -, -, ⟨e, he, -, ht⟩ | hd⟩
  · exact decValid_of_failed_decode (by decide) ht
  · exact decValid_of_failed_decode (codeBits_ne_ok_of_failure he) ht
  · have hv : t.decValid = setDecoded s.decValid k := congrArg State.decValid hd.frame
    have hs : t.status = statusWord .ok 0 := congrArg State.status hd.frame
    refine ⟨?_, fun j hj => ?_⟩
    · simp [State.decoded, State.code, hv, hs, setDecoded_bit, codeBits]
    · simp [State.decoded, hv, setDecoded_bit, hj]

end Sys2Proof.Machine
end

section
/-! What VALIDATE leaves in VALSTAT and RX_CHK (42_validate.md R180, R185), once for all its ends. -/

namespace Sys2Proof.Machine

/-- A shape character, as R181 lists them. -/
theorem isShapeChar_iff {b : Byte} :
    isShapeChar b = true ↔
      b = 0x7E#8 ∨ (0x41 ≤ b.toNat ∧ b.toNat ≤ 0x5A) ∨ (0x30 ≤ b.toNat ∧ b.toNat ≤ 0x39) := by
  simp [isShapeChar, isCapital, isDecimalDigit, soi, or_assoc]

theorem Memory.readString_one (m : Memory) (i : Nat) : m.readString i 1 = [m.read i] := rfl

/-- The shape check of the accumulated response is R181's, element by element. -/
theorem shapeOk_rxFrame (s : State) : shapeOk s.rxFrame = true ↔ ResponseShape s := by
  by_cases h2 : 2 ≤ s.rxLen.toNat
  · have first : slice s.rxFrame 0 1 = [s.rxbuf.read 0] :=
      Memory.slice_readString s.rxbuf (by omega)
    have last : slice s.rxFrame (s.rxLen.toNat - 1) 1 = [s.rxbuf.read (s.rxLen.toNat - 1)] := by
      rw [State.rxFrame, Memory.slice_readString _ (by omega), Nat.zero_add, Memory.readString_one]
    have front : s.rxFrame.take (s.rxLen.toNat - 1) = s.rxbuf.readString 0 (s.rxLen.toNat - 1) :=
      Memory.slice_readString s.rxbuf (a := 0) (by omega)
    simp only [ResponseShape, ← isShapeChar_iff, shapeOk, length_rxFrame, first, last, front]
    simp [Memory.readString, h2, soi, cr, and_assoc]
  · simp [shapeOk, ResponseShape, h2]

/-- VALIDATE reaches its checksum step on a response of at least 6 characters (R185). -/
def State.recordsChecksum (s : State) : Bool :=
  !s.rxOverflowed && !s.rxTimedOut && shapeOk s.rxFrame && decide (6 ≤ s.rxLen.toNat)

theorem recordsChecksum_iff {s : State} :
    s.recordsChecksum = true ↔
      s.rxOverflowed = false ∧ s.rxTimedOut = false ∧ ResponseShape s ∧ 6 ≤ s.rxLen.toNat := by
  simp only [State.recordsChecksum, Bool.and_eq_true, Bool.not_eq_true', decide_eq_true_eq, shapeOk_rxFrame, and_assoc]

/-- What the checksum step leaves of a well-shaped response, long enough or not (R185). -/
theorem recordChecksum_clearResults {s : State} (ho : s.rxOverflowed = false) (ht : s.rxTimedOut = false)
    (hs : shapeOk s.rxFrame = true) :
    recordChecksum s.rxFrame (clearResults s) =
      { clearResults s with
        rxChk := if s.recordsChecksum then checksum (checkedChars s.rxFrame) else 0,
        valstat := valstatWord false s.recordsChecksum (s.recordsChecksum && checksumMatches s.rxFrame) 0 } := by
  by_cases h6 : 6 ≤ s.rxLen.toNat
  · simp [recordChecksum_of_long, State.recordsChecksum, ho, ht, hs, h6]
  · simp [recordChecksum_of_short, State.recordsChecksum, h6]; rfl

/-- VALSTAT and RX_CHK after every VALIDATE: the checksum fields are those of the checksum step, 0 where it is not reached,
and OK needs the shape and 10 characters (R180, R185). -/
theorem execValidate_results {k : Kind} {s t : State} (h : execValidate k s = .next t) :
    ∃ o kind,
      t.valstat = valstatWord o s.recordsChecksum (s.recordsChecksum && checksumMatches s.rxFrame) kind ∧
      t.rxChk = (if s.recordsChecksum then checksum (checkedChars s.rxFrame) else 0) ∧
      (o = true → shapeOk s.rxFrame = true ∧ 10 ≤ s.rxLen.toNat) := by
  rcases execValidate_cases h with ⟨ho, rfl⟩ | ⟨-, ht, rfl⟩ | ⟨ho, ht, -, ⟨hs, rfl⟩ | ⟨hs, h⟩⟩
  · exact ⟨false, 0, by simp [State.recordsChecksum, ho]; rfl, by simp [State.recordsChecksum, ho], nofun⟩
  · exact ⟨false, 0, by simp [State.recordsChecksum, ht]; rfl, by simp [State.recordsChecksum, ht], nofun⟩
  · exact ⟨false, 0, by simp [State.recordsChecksum, hs]; rfl, by simp [State.recordsChecksum, hs], nofun⟩
  · rw [recordChecksum_clearResults ho ht hs] at h
    rcases h with ⟨-, rfl⟩ | ⟨-, ⟨-, rfl⟩ | ⟨h10, -, rfl⟩ | ⟨-, r, -, -, rfl⟩⟩
    · exact ⟨false, 0, rfl, rfl, nofun⟩
    · exact ⟨false, 0, rfl, rfl, nofun⟩
    · exact ⟨true, k.number, by simp [State.chkValid, State.chkMatch], rfl, fun _ => ⟨hs, by simpa using h10⟩⟩
    · exact ⟨false, 0, rfl, rfl, nofun⟩

/-- The checksum input and the received characters of a response, as elements of RXBUF (R185). -/
theorem checkedChars_rxFrame {s : State} (h : 6 ≤ s.rxLen.toNat) :
    checkedChars s.rxFrame = s.rxbuf.readString 1 (s.rxLen.toNat - 6) := by
  rw [checkedChars, length_rxFrame, State.rxFrame, Memory.slice_readString _ (by omega)]

theorem checksumChars_rxFrame {s : State} (h : 6 ≤ s.rxLen.toNat) :
    checksumChars s.rxFrame = s.rxbuf.readString (s.rxLen.toNat - 5) 4 := by
  rw [checksumChars, length_rxFrame, State.rxFrame, Memory.slice_readString _ (by omega), Nat.zero_add]

/-- Settles O25: the results of every VALIDATE, read off for a response that reaches the checksum step and for one that
does not. -/
theorem validateComputesTheResponseChecksum : Obligations.ValidateComputesTheResponseChecksum := by
  unfold Obligations.ValidateComputesTheResponseChecksum
  refine ⟨State.resetWith_rxChk, fun k s t h => ?_⟩
  obtain ⟨o, kind, hv, hc, -⟩ := execValidate_results h
  rw [← recordsChecksum_iff]
  refine ⟨fun hr => ?_, fun hr => ?_⟩
  · obtain ⟨-, -, -, h6⟩ := recordsChecksum_iff.mp hr
    rw [hr, if_pos rfl, checkedChars_rxFrame h6] at hc
    refine ⟨hc, by simp [State.chkValid, hv, hr], ?_⟩
    rw [← checksumChars_rxFrame h6, hc, ← checkedChars_rxFrame h6]
    simp [State.chkMatch, hv, hr, checksumMatches]
  · rw [Bool.not_eq_true] at hr
    exact ⟨by simpa [hr] using hc, by simp [State.chkValid, hv, hr], by simp [State.chkMatch, hv, hr]⟩

end Sys2Proof.Machine
end

section
/-! The invariant of the block (10_state.md R34 to R53, 42_validate.md R187), part by part: each part is kept by every
instruction, since the frames say which instructions can touch it. -/

namespace Sys2Proof.Machine

@[simp] theorem writesTransmit_decodeInstr (k : Kind) : writesTransmit (decodeInstr k) = false := by
  cases k <;> rfl

/-- TXBUF, TX_LEN and TX_CHK are written by BUILD, the request rows and SOFT_RESET (R32). -/
theorem writesTransmit_cases {i : Instr} (h : writesTransmit i = true) :
    (∃ k a, i = .build k a) ∨ (∃ k a, i = requestInstr k a) ∨ i = .softReset := by
  obtain hb | hq | ⟨k, rfl⟩ | ⟨_, rfl⟩ | rfl | ⟨_, rfl⟩ | rfl | hr | ⟨_, rfl⟩ := Instr.shapes i
  · exact .inl hb
  · exact .inr (.inl hq)
  · simp at h
  · simp [writesTransmit] at h
  · simp [writesTransmit] at h
  · simp [writesTransmit] at h
  · simp [writesTransmit] at h
  · exact .inr (.inr hr)
  · simp [writesTransmit] at h

/-- Only the DECODE of a kind may change that kind's registers. -/
theorem decodedKind_eq_some {i : Instr} {k : Kind} : decodedKind i = some k ↔ i = decodeInstr k := by
  refine ⟨fun h => ?_, fun h => by simp [h]⟩
  obtain ⟨_, _, rfl⟩ | ⟨_, _, rfl⟩ | ⟨j, rfl⟩ | ⟨_, rfl⟩ | rfl | ⟨_, rfl⟩ | rfl | rfl | ⟨_, rfl⟩ := Instr.shapes i
  · simp [decodedKind] at h
  · simp at h
  · rw [decodedKind_decodeInstr] at h; rw [Option.some.inj h]
  all_goals simp [decodedKind] at h

/-! ### Reset -/

/-- Reset meets the invariant for every legal choice of the parameters, whatever command words are pending (R360). -/
theorem resetWith_inv {p : Params} (hp : p.Legal) (ws : List Word16) :
    State.Inv { State.resetWith p with cmdIn := ws } where
  params_legal := hp
  tx :=
    { txbuf_wf := Memory.wf_nil
      txbuf_space := by simp
      txLen_values := .inl rfl
      frame_soi := by simp
      frame_checksum := by simp
      frame_eoi := by simp }
  rx :=
    { rxbuf_wf := Memory.wf_nil
      rxbuf_space := by simp
      rxLen_le := by simp
      one_flag := .inl rfl
      done_cr := by simp [State.rxDone]
      overflow_full := by simp [State.rxOverflowed]
      alphabet := by simp
      cr_last := by simp }
  result :=
    { status_reserved := by simp
      status_code := by simp [State.code]
      valstat_reserved := by simp
      valOk_done := by simp [State.valOk]
      valOk_length := by simp [State.valOk]
      match_valid := by simp [State.chkMatch] }
  fields :=
    { serial_width := by simp [State.resetWith]
      ncells := rfl
      cells_above := fun i _ => by simp [State.resetWith]
      udi := by simp [State.decoded] }

/-! ### The transmit state -/

theorem State.TxInv.congr {s t : State} (hs : s.TxInv) (hb : t.txbuf = s.txbuf) (hl : t.txLen = s.txLen)
    (hc : t.txChk = s.txChk) : t.TxInv where
  txbuf_wf := by rw [hb]; exact hs.txbuf_wf
  txbuf_space := by rw [hb]; exact hs.txbuf_space
  txLen_values := by rw [hl]; exact hs.txLen_values
  frame_soi := by rw [hb, hl]; exact hs.frame_soi
  frame_checksum := by rw [hb, hl, hc]; exact hs.frame_checksum
  frame_eoi := by rw [hb, hl]; exact hs.frame_eoi

/-- A part of the frame just written is read back from TXBUF (R104). -/
theorem readString_written_frame (m : Memory) (cids : PerKind CidPair) (k : Kind) (a : Byte) {i n : Nat}
    (h : i + n ≤ 20) :
    (m.writeString 0 (requestFrame cids k a)).readString i n = slice (requestFrame cids k a) i n := by
  conv_rhs => rw [← txFrame_written m cids k a, Memory.slice_readString _ h, Nat.zero_add]

theorem read_written_frame (m : Memory) (cids : PerKind CidPair) (k : Kind) (a : Byte) {i : Nat} {b : Byte} (hi : i < 20)
    (h : slice (requestFrame cids k a) i 1 = [b]) : (m.writeString 0 (requestFrame cids k a)).read i = b := by
  rw [← readString_written_frame m cids k a (by omega), Memory.readString_one] at h
  exact List.singleton_inj.mp h

/-- BUILD leaves either no frame or the one it announces (R33, R34, R35). -/
theorem buildRequest_txInv {k : Kind} {a : Byte} {s t : State} (hs : s.TxInv) (h : buildRequest k a s = .next t) :
    t.TxInv := by
  rcases buildRequest_cases h with ⟨-, rfl⟩ | ⟨-, rfl⟩
  · refine ⟨Memory.wf_writeString hs.txbuf_wf 0 _, ?_, .inr rfl, fun _ => ?_, fun _ => ?_, fun _ => ?_⟩
    · exact Memory.space_writeString _ hs.txbuf_space (by simp)
    · exact read_written_frame _ _ _ _ (by omega) (slice_requestFrame_soi _ _ _)
    · exact (readString_written_frame _ _ _ _ (by omega)).trans (slice_requestFrame_checksum _ _ _)
    · exact read_written_frame _ _ _ _ (by omega) (slice_requestFrame_eoi _ _ _)
  · exact ⟨hs.txbuf_wf, hs.txbuf_space, .inl rfl, by simp, by simp, by simp⟩

theorem exec_txInv {i : Instr} {s t : State} (hs : s.Inv) (h : exec i s = .next t) : t.TxInv := by
  cases hw : writesTransmit i with
  | false =>
    obtain ⟨hb, hl, hc⟩ := (buffersAreWrittenByTheirCommandsOnly i s t h).1 hw
    exact hs.tx.congr hb hl hc
  | true =>
    obtain ⟨k, a, rfl⟩ | ⟨k, a, rfl⟩ | rfl := writesTransmit_cases hw
    · exact buildRequest_txInv hs.tx h
    · rw [exec_requestInstr] at h
      exact buildRequest_txInv hs.tx h
    · cases h; exact (resetWith_inv hs.params_legal _).tx

/-! ### The receive state -/

theorem State.RxInv.congr {s t : State} (hs : s.RxInv) (hp : t.params = s.params) (hb : t.rxbuf = s.rxbuf)
    (hl : t.rxLen = s.rxLen) (hf : t.rxstat = s.rxstat) : t.RxInv where
  rxbuf_wf := by rw [hb]; exact hs.rxbuf_wf
  rxbuf_space := by rw [hb, hp]; exact hs.rxbuf_space
  rxLen_le := by rw [hl, hp]; exact hs.rxLen_le
  one_flag := by rw [hf]; exact hs.one_flag
  done_cr := by rw [State.rxDone, hf, hl, hb]; exact hs.done_cr
  overflow_full := by rw [State.rxOverflowed, hf, hl, hp]; exact hs.overflow_full
  alphabet := by rw [hl, hb]; exact hs.alphabet
  cr_last := by rw [State.rxDone, hf, hl, hb]; exact hs.cr_last

/-- An accumulator that is not frozen has RXSTAT 0 (R38, R286). -/
theorem State.RxInv.rxstat_of_open {s : State} (hs : s.RxInv) (hf : s.frozen = false) : s.rxstat = 0#8 := by
  rcases hs.one_flag with h | h | h | h
  · exact h
  all_goals simp [State.frozen, State.rxDone, State.rxTimedOut, State.rxOverflowed, h] at hf

/-- No accepted byte of an open accumulator is CR (R39). -/
theorem State.RxInv.no_cr_of_open {s : State} (hs : s.RxInv) (hf : s.frozen = false) {i : Nat} (hi : i < s.rxLen.toNat) :
    s.rxbuf.read i ≠ cr := fun hc => by
  have := (hs.cr_last i hi hc).1
  rw [(flags_of_not_frozen hf).1] at this
  exact absurd this (by decide)

/-- Ending the read without CR keeps the form of the accumulator: TIMEOUT at any length, OVERFLOW when it is full (R39). -/
theorem State.RxInv.stopped {s : State} (hs : s.RxInv) (hf : s.frozen = false) {v : Byte} {st : Word32}
    (hv : v = 0x02#8 ∨ (v = 0x04#8 ∧ s.rxLen = s.params.rxMax)) : State.RxInv { s with rxstat := v, status := st } where
  rxbuf_wf := hs.rxbuf_wf
  rxbuf_space := hs.rxbuf_space
  rxLen_le := hs.rxLen_le
  one_flag := by rcases hv with h | ⟨h, -⟩ <;> simp [h]
  done_cr := by rcases hv with h | ⟨h, -⟩ <;> simp [State.rxDone, h]
  overflow_full := by rcases hv with h | ⟨h, hm⟩ <;> simp [State.rxOverflowed, *]
  alphabet := hs.alphabet
  cr_last := fun i hi hc => absurd hc (hs.no_cr_of_open hf hi)

/-- An appended byte stands at RX_LEN, below the bytes already there (R281, R283). -/
theorem State.RxInv.append {s : State} (hs : s.RxInv) (hf : s.frozen = false) {b : Byte} (hb : inAlphabet b = true)
    (hm : s.rxLen.toNat < s.params.rxMax.toNat) :
    State.RxInv { s with
      rxbuf := s.rxbuf.write s.rxLen.toNat b, rxLen := s.rxLen + 1,
      rxstat := if b = cr then setDone s.rxstat else s.rxstat } := by
  have hlen : (s.rxLen + 1).toNat = s.rxLen.toNat + 1 := by
    have := s.params.rxMax.isLt
    simp [BitVec.toNat_add]; omega
  have last : (s.rxbuf.write s.rxLen.toNat b).read s.rxLen.toNat = b :=
    Memory.read_write_nonzero _ _ (ne_zero_of_inAlphabet hb)
  have before {i : Nat} (hi : i < s.rxLen.toNat) : (s.rxbuf.write s.rxLen.toNat b).read i = s.rxbuf.read i :=
    Memory.read_write_other _ _ (by omega)
  rw [hs.rxstat_of_open hf, show setDone 0#8 = 0x01#8 from rfl]
  constructor
  · exact Memory.wf_write hs.rxbuf_wf _ _
  · exact Memory.space_write _ hs.rxbuf_space hm
  · simp only [hlen]; omega
  · by_cases hc : b = cr <;> simp [hc]
  · intro hd
    have hc : b = cr := by by_contra hc; simp [State.rxDone, hc] at hd
    simp only [hlen, Nat.add_sub_cancel, last]
    exact ⟨by omega, hc⟩
  · intro ho
    by_cases hc : b = cr <;> simp [State.rxOverflowed, hc] at ho
  · intro i hi
    simp only [hlen] at hi
    rcases Nat.lt_succ_iff_lt_or_eq.mp hi with hi | rfl
    · rw [before hi]; exact hs.alphabet i hi
    · rw [last]; exact hb
  · intro i hi hc
    simp only [hlen] at hi ⊢
    rcases Nat.lt_succ_iff_lt_or_eq.mp hi with hi | rfl
    · rw [before hi] at hc; exact absurd hc (hs.no_cr_of_open hf hi)
    · rw [last] at hc; exact ⟨by simp [State.rxDone, hc], rfl⟩

theorem execRxByte_rxInv {b : Byte} {s t : State} (hs : s.RxInv) (h : execRxByte b s = .next t) : t.RxInv := by
  rcases execRxByte_cases h with rfl | ⟨hf, -, hm, rfl⟩ | ⟨hf, hb, hm, rfl⟩
  · exact hs
  · exact hs.stopped hf (.inr ⟨by rw [hs.rxstat_of_open hf]; rfl, hm⟩)
  · exact hs.append hf hb hm

theorem execRxTimeout_rxInv {s t : State} (hs : s.RxInv) (h : execRxTimeout s = .next t) : t.RxInv := by
  rcases execRxTimeout_cases h with rfl | ⟨hf, rfl⟩
  · exact hs
  · exact hs.stopped hf (.inl (by rw [hs.rxstat_of_open hf]; rfl))

/-- RX_RESET keeps the elements of RXBUF and accepts none of them (R36, R280). -/
theorem execRxReset_rxInv {s t : State} (hs : s.RxInv) (h : execRxReset s = .next t) : t.RxInv := by
  cases h
  exact
    { rxbuf_wf := hs.rxbuf_wf
      rxbuf_space := hs.rxbuf_space
      rxLen_le := by simp
      one_flag := .inl rfl
      done_cr := by simp [State.rxDone]
      overflow_full := by simp [State.rxOverflowed]
      alphabet := by simp
      cr_last := by simp }

theorem exec_rxInv {i : Instr} {s t : State} (hs : s.Inv) (h : exec i s = .next t) : t.RxInv := by
  by_cases hb : ∃ b, i = .rxByte b
  · obtain ⟨b, rfl⟩ := hb
    exact execRxByte_rxInv hs.rx h
  by_cases ht : i = .rxTimeout
  · subst ht; exact execRxTimeout_rxInv hs.rx h
  by_cases hr : i = .rxReset
  · subst hr; exact execRxReset_rxInv hs.rx h
  by_cases h0 : i = .softReset
  · subst h0; cases h; exact (resetWith_inv hs.params_legal _).rx
  · obtain ⟨hbuf, hrest⟩ := (buffersAreWrittenByTheirCommandsOnly i s t h).2 h0 (not_exists.mp hb)
    obtain ⟨hlen, hstat⟩ := hrest hr
    exact hs.rx.congr (exec_params_cmdIn h).1 hbuf hlen (hstat ht)

/-! ### STATUS and VALSTAT -/

/-- The reserved parts of STATUS stay 0 and unused (R40, R41). -/
theorem exec_status_reserved {i : Instr} {s t : State} (hs : s.ResultInv) (h : exec i s = .next t) :
    t.status.extractLsb' 4 12 = 0#12 ∧ t.code.toNat ≤ 0xD := by
  rcases statusCodesAreTheTablesOwn i s t h with ⟨-, he⟩ | ⟨c, aux, -, he⟩
  · rw [State.code, he]; exact ⟨hs.status_reserved, hs.status_code⟩
  · rw [State.code, he, statusWord_code]; exact ⟨statusWord_reserved c aux, codeBits_le c⟩

/-- What the invariant says of VALSTAT (R43, R180, R187). -/
structure State.ValstatInv (s : State) : Prop where
  reserved : s.valstat.getLsbD 3 = false ∧ s.valstat.getLsbD 7 = false
  ok_done : s.valOk = true → s.rxDone = true
  ok_length : s.valOk = true → 10 ≤ s.rxLen.toNat
  match_valid : s.chkMatch = true → s.chkValid = true

theorem State.ResultInv.valstatInv {s : State} (hs : s.ResultInv) : s.ValstatInv :=
  ⟨hs.valstat_reserved, hs.valOk_done, hs.valOk_length, hs.match_valid⟩

theorem valstatInv_of_zero {s : State} (h : s.valstat = 0) : s.ValstatInv := by
  constructor <;> simp [State.valOk, State.chkMatch, h]

/-- A complete response is frozen, so RX_BYTE and RX_TIMEOUT leave the block as it is (R286). -/
theorem frozen_of_rxDone {s : State} (h : s.rxDone = true) : s.frozen = true := by
  simp [State.frozen, h]

/-- Of the instructions that keep VALSTAT, none takes a complete response away (R286). -/
theorem exec_keeps_done {i : Instr} {s t : State} (hr : i ≠ .rxReset) (h0 : i ≠ .softReset) (h : exec i s = .next t)
    (hd : s.rxDone = true) : t.rxDone = true ∧ t.rxLen = s.rxLen := by
  by_cases hb : ∃ b, i = .rxByte b
  · obtain ⟨b, rfl⟩ := hb
    cases (execRxByte_of_frozen (frozen_of_rxDone hd)).symm.trans h
    exact ⟨hd, rfl⟩
  by_cases ht : i = .rxTimeout
  · subst ht
    cases (execRxTimeout_of_frozen (frozen_of_rxDone hd)).symm.trans h
    exact ⟨hd, rfl⟩
  · obtain ⟨-, hrest⟩ := (buffersAreWrittenByTheirCommandsOnly i s t h).2 h0 (not_exists.mp hb)
    obtain ⟨hlen, hstat⟩ := hrest hr
    exact ⟨by rw [State.rxDone, hstat ht]; exact hd, hlen⟩

/-- VALIDATE sets OK only on a response that ends with CR, which the accumulator holds only when DONE (R39, R180, R187). -/
theorem execValidate_valstatInv {k : Kind} {s t : State} (hs : s.RxInv) (h : execValidate k s = .next t) :
    t.ValstatInv := by
  obtain ⟨o, kind, hv, -, hok⟩ := execValidate_results h
  have ho : t.valOk = o := by simp [State.valOk, hv]
  have done : t.rxDone = s.rxDone := by rw [execValidate_frame h]; rfl
  have len : t.rxLen = s.rxLen := by rw [execValidate_frame h]
  refine ⟨by rw [hv]; exact valstatWord_reserved .., fun h1 => ?_, fun h1 => ?_, ?_⟩
  · obtain ⟨hsh, h10⟩ := hok (ho.symm.trans h1)
    obtain ⟨-, -, hcr, -⟩ := (shapeOk_rxFrame s).mp hsh
    exact done.trans (hs.cr_last _ (by omega) hcr).1
  · rw [len]; exact (hok (ho.symm.trans h1)).2
  · simp [State.chkMatch, State.chkValid, hv]
    exact fun h1 _ => h1

theorem exec_valstatInv {i : Instr} {s t : State} (hs : s.Inv) (h : exec i s = .next t) : t.ValstatInv := by
  by_cases hv : ∃ k, i = .validate k
  · obtain ⟨k, rfl⟩ := hv
    exact execValidate_valstatInv hs.rx h
  by_cases hr : i = .rxReset
  · subst hr; cases h; exact valstatInv_of_zero rfl
  by_cases h0 : i = .softReset
  · subst h0; cases h; exact valstatInv_of_zero rfl
  · obtain ⟨hkeep, -⟩ := resultsAreWrittenByTheirCommandsOnly i s t h h0
    obtain ⟨-, -, hval⟩ := hkeep (not_exists.mp hv)
    have hold := hs.result.valstatInv
    have stays (hok : t.valOk = true) : s.valOk = true := by rwa [State.valOk, hval hr] at hok
    refine ⟨by rw [hval hr]; exact hold.reserved, fun hok => ?_, fun hok => ?_, ?_⟩
    · exact (exec_keeps_done hr h0 h (hold.ok_done (stays hok))).1
    · rw [(exec_keeps_done hr h0 h (hold.ok_done (stays hok))).2]; exact hold.ok_length (stays hok)
    · rw [State.chkMatch, State.chkValid, hval hr]; exact hold.match_valid

theorem exec_resultInv {i : Instr} {s t : State} (hs : s.Inv) (h : exec i s = .next t) : t.ResultInv := by
  obtain ⟨hres, hcode⟩ := exec_status_reserved hs.result h
  obtain ⟨hval, hdone, hlen, hmatch⟩ := exec_valstatInv hs h
  exact ⟨hres, hcode, hval, hdone, hlen, hmatch⟩

/-! ### The field registers -/

/-- Each element of a vector is what its own read answered (R215). -/
theorem readVec_getElem {α : Type} {n : Nat} {r : Nat → Except Raised α} {v : Vector α n} (h : readVec n r = .ok v)
    {i : Nat} (hi : i < n) : r i = .ok v[i] := by
  induction n with
  | zero => omega
  | succ n ih =>
    rw [readVec] at h
    cases hv : readVec n r with
    | error e => simp [hv] at h
    | ok u =>
      cases hx : r n with
      | error e => simp [hv, hx] at h
      | ok x =>
        obtain rfl : u.push x = v := by simpa [hv, hx] using h
        by_cases hin : i < n
        · rw [ih hv hin, Vector.getElem_push_lt hin]
        · obtain rfl : i = n := by omega
          rw [hx, Vector.getElem_push_eq]

/-- A serial number fills its register (R46). -/
theorem readSerialNumber_width {s : State} {g : SerialNumberGroup} (h : readSerialNumber s = .ok g) :
    g.snByte.length = s.params.snChars / 2 := by
  obtain ⟨b, -, h⟩ := bind_ok h
  cases h
  simp

/-- Only discriminators 2 and 4 have capacities (R227). -/
theorem readCapacities_udi {s : State} {udi : Byte} {c : Word24 × Word24} (h : readCapacities s udi = .ok c) :
    udi = 2 ∨ udi = 4 := by
  by_contra hu
  obtain ⟨h2, h4⟩ := not_or.mp hu
  rw [readCapacities, if_neg h2, if_neg h4] at h
  cases h

/-- A decoded AnalogValue group: AV_NCELLS, the cells above it, and the discriminator (R53, R227). -/
theorem readAnalogValue_group {s : State} {g : AnalogValueGroup} (h : readAnalogValue s = .ok g) :
    g.avNCells.toNat = min g.avCellCount.toNat 15 ∧
    (∀ i : Fin 15, g.avNCells.toNat ≤ i.val → g.avCell[i] = 0) ∧ (g.avUdi = 2 ∨ g.avUdi = 4) := by
  obtain ⟨count, -, h⟩ := bind_ok h
  obtain ⟨cells, hcells, h⟩ := bind_ok h
  obtain ⟨temps, -, h⟩ := bind_ok h
  obtain ⟨current, -, h⟩ := bind_ok h
  obtain ⟨packV, -, h⟩ := bind_ok h
  obtain ⟨udi, -, h⟩ := bind_ok h
  obtain ⟨caps, hcaps, h⟩ := bind_ok h
  cases h
  have hn : (BitVec.ofNat 4 (cellsDecoded count)).toNat = cellsDecoded count := by
    have : cellsDecoded count ≤ 15 := Nat.min_le_right ..
    simp [BitVec.toNat_ofNat]; omega
  refine ⟨hn, fun i hi => ?_, readCapacities_udi hcaps⟩
  have hr := readVec_getElem hcells i.isLt
  rw [readCell, if_neg (by rw [hn] at hi; omega)] at hr
  exact (Except.ok.inj hr).symm

/-- A DEC_VALID bit is written by DECODE of its own kind and SOFT_RESET only (R45). -/
theorem exec_decoded_other {i : Instr} {k : Kind} {s t : State} (h : exec i s = .next t) (h0 : i ≠ .softReset)
    (hk : decodedKind i ≠ some k) : t.decoded k = s.decoded k := by
  cases hj : decodedKind i with
  | none => rw [State.decoded, (resultsAreWrittenByTheirCommandsOnly i s t h h0).2.1 hj]; rfl
  | some j =>
    obtain rfl := decodedKind_eq_some.mp hj
    exact (decodeSetsOrClearsItsValidBit.2 j s t h).2 k (by rintro rfl; exact hk hj)

/-- The serial number keeps its width, whichever instruction ran (R46). -/
theorem exec_serialNumber_width {i : Instr} {s t : State} (hs : s.FieldInv) (h0 : i ≠ .softReset)
    (h : exec i s = .next t) : t.serialNumber.snByte.length = s.params.snChars / 2 := by
  by_cases hk : decodedKind i = some .serialNumber
  · obtain rfl := decodedKind_eq_some.mp hk
    change execDecodeSerialNumber s = .next t at h
    rcases decodeGroup_cases h with ⟨-, rfl⟩ | ⟨-, -, -, ⟨_, -, rfl⟩ | ⟨g, hg, rfl⟩⟩
    · exact hs.serial_width
    · exact hs.serial_width
    · exact readSerialNumber_width hg
  · obtain ⟨-, -, hserial, -⟩ := resultsAreWrittenByTheirCommandsOnly i s t h h0
    rw [hserial hk]; exact hs.serial_width

/-- The AnalogValue group keeps its form, whichever instruction ran (R53). -/
theorem exec_analogValue_group {i : Instr} {s t : State} (hs : s.FieldInv) (h0 : i ≠ .softReset)
    (h : exec i s = .next t) :
    t.analogValue.avNCells.toNat = min t.analogValue.avCellCount.toNat 15 ∧
    (∀ i : Fin 15, t.analogValue.avNCells.toNat ≤ i.val → t.analogValue.avCell[i] = 0) ∧
    (t.decoded .analogValue = true → t.analogValue.avUdi = 2 ∨ t.analogValue.avUdi = 4) := by
  by_cases hk : decodedKind i = some .analogValue
  · obtain rfl := decodedKind_eq_some.mp hk
    change execDecodeAnalogValue s = .next t at h
    rcases decodeGroup_cases h with ⟨-, rfl⟩ | ⟨-, -, -, ⟨_, -, rfl⟩ | ⟨g, hg, rfl⟩⟩
    · exact ⟨hs.ncells, hs.cells_above, by simp [State.decoded, clearDecoded_bit]⟩
    · exact ⟨hs.ncells, hs.cells_above, by simp [State.decoded, clearDecoded_bit]⟩
    · obtain ⟨hn, hc, hu⟩ := readAnalogValue_group hg
      exact ⟨hn, hc, fun _ => hu⟩
  · obtain ⟨-, -, -, -, -, -, -, -, -, hanalog⟩ := resultsAreWrittenByTheirCommandsOnly i s t h h0
    rw [hanalog hk, exec_decoded_other h h0 hk]
    exact ⟨hs.ncells, hs.cells_above, hs.udi⟩

theorem exec_fieldInv {i : Instr} {s t : State} (hs : s.Inv) (h : exec i s = .next t) : t.FieldInv := by
  by_cases h0 : i = .softReset
  · subst h0; cases h; exact (resetWith_inv hs.params_legal _).fields
  · obtain ⟨hn, hc, hu⟩ := exec_analogValue_group hs.fields h0 h
    exact ⟨by rw [(exec_params_cmdIn h).1]; exact exec_serialNumber_width hs.fields h0 h, hn, hc, hu⟩

/-! ### Every step -/

/-- Every instruction keeps the invariant. -/
theorem exec_inv {i : Instr} {s t : State} (hs : s.Inv) (h : exec i s = .next t) : t.Inv where
  params_legal := by rw [(exec_params_cmdIn h).1]; exact hs.params_legal
  tx := exec_txInv hs h
  rx := exec_rxInv hs h
  result := exec_resultInv hs h
  fields := exec_fieldInv hs h

/-- The invariant says nothing of the words still to be executed. -/
theorem State.Inv.withCmdIn {s : State} (hs : s.Inv) (ws : List Word16) : State.Inv { s with cmdIn := ws } where
  params_legal := hs.params_legal
  tx := { hs.tx with }
  rx := { hs.rx with }
  result := { hs.result with }
  fields := { hs.fields with }

/-- Settles O48: a step is idle or executes one decoded word, and every instruction keeps the invariant. -/
theorem everyStepKeepsTheInvariant : Obligations.EveryStepKeepsTheInvariant := by
  unfold Obligations.EveryStepKeepsTheInvariant
  intro s t hs h
  rcases step_cases h with ⟨-, rfl⟩ | ⟨w, ws, -, h⟩
  · exact hs
  · exact exec_inv (hs.withCmdIn ws) h

end Sys2Proof.Machine
end

section
/-! The elements of RXBUF from RX_LEN up (10_state.md R36, 20_memory.md R81): no meaning reads them, so a run from a state with
other bytes there goes the same way. -/

namespace Sys2Proof.Machine

/-- A read does not depend on the elements of RXBUF from RX_LEN up (R81). -/
def ReadsFrameOnly {α : Type} (read : State → α) : Prop :=
  ∀ (s : State) (m : Memory), (∀ j < s.rxLen.toNat, m.read j = s.rxbuf.read j) → read { s with rxbuf := m } = read s

/-- A read that is made of field reads depends on what `memRead` answers only. -/
theorem readsFrameOnly_of_memRead {α : Type} {read : State → α}
    (h : ∀ (s : State) (m : Memory), memRead { s with rxbuf := m } = memRead s → read { s with rxbuf := m } = read s) :
    ReadsFrameOnly read := fun s m hm =>
  h s m (memRead_congr (s := s) (s' := { s with rxbuf := m }) rfl hm)

theorem readsFrameOnly_readSerialNumber : ReadsFrameOnly readSerialNumber :=
  readsFrameOnly_of_memRead fun _ _ h => by simp only [readSerialNumber, readBytes_congr h]

theorem readsFrameOnly_readManufacturerInfo : ReadsFrameOnly readManufacturerInfo :=
  readsFrameOnly_of_memRead fun _ _ h => by simp only [readManufacturerInfo, readBytes_congr h, readReg_congr 8 h]

theorem readsFrameOnly_readProtocolVersion : ReadsFrameOnly readProtocolVersion :=
  readsFrameOnly_of_memRead fun _ _ h => by simp only [readProtocolVersion, readReg_congr 4 h]

theorem readsFrameOnly_readSoftwareVersion : ReadsFrameOnly readSoftwareVersion :=
  readsFrameOnly_of_memRead fun _ _ h => by simp only [readSoftwareVersion, readReg_congr 8 h]

theorem readsFrameOnly_readSystemParameters : ReadsFrameOnly readSystemParameters :=
  readsFrameOnly_of_memRead fun _ _ h => by simp only [readSystemParameters, readReg_congr 16 h]

theorem readsFrameOnly_readAlarmInfo : ReadsFrameOnly readAlarmInfo :=
  readsFrameOnly_of_memRead fun _ _ h => by simp only [readAlarmInfo, readReg_congr 8 h, zeroRun_congr h]

theorem readsFrameOnly_readChargeManagementInfo : ReadsFrameOnly readChargeManagementInfo :=
  readsFrameOnly_of_memRead fun _ _ h => by
    simp only [readChargeManagementInfo, readReg_congr 8 h, readReg_congr 16 h]

theorem readsFrameOnly_readAnalogValue : ReadsFrameOnly readAnalogValue :=
  readsFrameOnly_of_memRead fun _ _ h => by
    simp only [readAnalogValue, readReg_congr 8 h, readReg_congr 16 h, readCell_congr h, readCapacities_congr h]

/-! ### The commands that keep RXBUF -/

/-- A meaning that keeps RXBUF and goes the same way with other bytes from RX_LEN up. -/
def IgnoresBytesAbove (f : State → Outcome) : Prop :=
  ∀ (s t : State) (m : Memory), (∀ j < s.rxLen.toNat, m.read j = s.rxbuf.read j) → f s = .next t →
    f { s with rxbuf := m } = .next { t with rxbuf := m } ∧ t.rxbuf = s.rxbuf ∧ t.rxLen.toNat ≤ s.rxLen.toNat

theorem ignoresBytesAbove_buildRequest (k : Kind) (a : Byte) : IgnoresBytesAbove (buildRequest k a) := by
  intro s t m _ h
  rcases buildRequest_cases h with ⟨ha, rfl⟩ | ⟨ha, rfl⟩
  · exact ⟨buildRequest_of_supported (s := { s with rxbuf := m }) ha, rfl, le_rfl⟩
  · exact ⟨buildRequest_of_unsupported (s := { s with rxbuf := m }) ha, rfl, le_rfl⟩

theorem ignoresBytesAbove_execRxTimeout : IgnoresBytesAbove execRxTimeout := by
  intro s t m _ h
  cases hf : s.frozen with
  | true =>
    cases (execRxTimeout_of_frozen hf).symm.trans h
    exact ⟨execRxTimeout_of_frozen (s := { s with rxbuf := m }) hf, rfl, le_rfl⟩
  | false =>
    cases (execRxTimeout_of_open hf).symm.trans h
    exact ⟨execRxTimeout_of_open (s := { s with rxbuf := m }) hf, rfl, le_rfl⟩

theorem ignoresBytesAbove_decodeGroup {α : Type} {k : Kind} {read : State → Except Raised α} {commit : α → State → State}
    (hr : ReadsFrameOnly read)
    (hc : ∀ g s m, commit g { s with rxbuf := m } = { commit g s with rxbuf := m })
    (hk : ∀ g s, (commit g s).rxbuf = s.rxbuf ∧ (commit g s).rxLen = s.rxLen) :
    IgnoresBytesAbove (decodeGroup k read commit) := by
  intro s t m hm h
  have hread := hr s m hm
  rcases decodeGroup_cases h with ⟨hv, rfl⟩ | ⟨hv, hn, hl, ⟨e, he, rfl⟩ | ⟨g, hg, rfl⟩⟩
  · exact ⟨decodeGroup_of_unvalidated (s := { s with rxbuf := m }) hv, rfl, le_rfl⟩
  · exact ⟨decodeGroup_of_error (s := { s with rxbuf := m }) hv hn hl (hread.trans he), rfl, le_rfl⟩
  · obtain ⟨hbuf, hlen⟩ := hk g s
    refine ⟨?_, hbuf, le_of_eq (congrArg BitVec.toNat hlen)⟩
    rw [decodeGroup_of_ok (s := { s with rxbuf := m }) hv hn hl (hread.trans hg), hc]

theorem ignoresBytesAbove_decodeInstr (k : Kind) : IgnoresBytesAbove (exec (decodeInstr k)) := by
  cases k
  · exact ignoresBytesAbove_decodeGroup readsFrameOnly_readSerialNumber (fun _ _ _ => rfl) fun _ _ => ⟨rfl, rfl⟩
  · exact ignoresBytesAbove_decodeGroup readsFrameOnly_readManufacturerInfo (fun _ _ _ => rfl) fun _ _ => ⟨rfl, rfl⟩
  · exact ignoresBytesAbove_decodeGroup readsFrameOnly_readProtocolVersion (fun _ _ _ => rfl) fun _ _ => ⟨rfl, rfl⟩
  · exact ignoresBytesAbove_decodeGroup readsFrameOnly_readSoftwareVersion (fun _ _ _ => rfl) fun _ _ => ⟨rfl, rfl⟩
  · exact ignoresBytesAbove_decodeGroup readsFrameOnly_readSystemParameters (fun _ _ _ => rfl) fun _ _ => ⟨rfl, rfl⟩
  · exact ignoresBytesAbove_decodeGroup readsFrameOnly_readAlarmInfo (fun _ _ _ => rfl) fun _ _ => ⟨rfl, rfl⟩
  · exact ignoresBytesAbove_decodeGroup readsFrameOnly_readChargeManagementInfo (fun _ _ _ => rfl) fun _ _ => ⟨rfl, rfl⟩
  · exact ignoresBytesAbove_decodeGroup readsFrameOnly_readAnalogValue (fun _ _ _ => rfl) fun _ _ => ⟨rfl, rfl⟩

/-! ### VALIDATE -/

theorem recordChecksum_rxbuf_update (f : List Byte) (s : State) (m : Memory) :
    recordChecksum f { s with rxbuf := m } = { recordChecksum f s with rxbuf := m } := by
  unfold recordChecksum; split <;> rfl

theorem classify_rxbuf_update (k : Kind) (r : ReturnCode) (s : State) (m : Memory) :
    classify k r { s with rxbuf := m } = andThen (classify k r s) fun t => .next { t with rxbuf := m } := by
  by_cases hr : r = ReturnCode.normal
  · rw [hr, classify_of_normal, classify_of_normal]; rfl
  · rw [classify_of_other hr, classify_of_other hr]; rfl

/-- VALIDATE's verdict depends on the response and not on the buffer it stands in (R180). -/
theorem validateFrame_rxbuf_update (k : Kind) (f : List Byte) (s : State) (m : Memory) :
    validateFrame k f { s with rxbuf := m } = andThen (validateFrame k f s) fun t => .next { t with rxbuf := m } := by
  simp only [validateFrame, recordChecksum_rxbuf_update]
  split
  · rfl
  · split
    · rfl
    · cases returnCode f with
      | none => rfl
      | some r => exact classify_rxbuf_update k r _ m

theorem ignoresBytesAbove_execValidate (k : Kind) : IgnoresBytesAbove (execValidate k) := by
  intro s t m hm h
  refine ⟨?_, by rw [execValidate_frame h], by rw [execValidate_frame h]⟩
  rcases execValidate_cases h with ⟨ho, rfl⟩ | ⟨ho, ht, rfl⟩ | ⟨ho, ht, hl, -⟩
  · exact execValidate_of_overflow (s := { s with rxbuf := m }) ho
  · exact execValidate_of_timeout (s := { s with rxbuf := m }) ho ht
  · have hframe : State.rxFrame { s with rxbuf := m } = s.rxFrame :=
      rxFrame_congr (s := s) (s' := { s with rxbuf := m }) rfl hm
    rw [execValidate_of_open ho ht hl] at h
    rw [execValidate_of_open (s := { s with rxbuf := m }) ho ht hl, hframe]
    exact (validateFrame_rxbuf_update k s.rxFrame (clearResults s) m).trans (by rw [h]; rfl)

/-! ### Every instruction -/

theorem ignoresBytesAbove_execRxReset : IgnoresBytesAbove execRxReset := by
  intro s t m _ h
  cases h
  exact ⟨rfl, rfl, Nat.zero_le _⟩

theorem ignoresBytesAbove_execIllegal (w : Word16) : IgnoresBytesAbove (execIllegal w) := by
  intro s t m _ h
  cases h
  exact ⟨rfl, rfl, le_rfl⟩

/-- Two runs from states that agree below RX_LEN end with the same state but for RXBUF, and agree below the new RX_LEN. -/
def EndsAlike (f : State → Outcome) (s t : State) (m : Memory) : Prop :=
  ∃ t', f { s with rxbuf := m } = .next t' ∧ t' = { t with rxbuf := t'.rxbuf } ∧
    ∀ j < t.rxLen.toNat, t'.rxbuf.read j = t.rxbuf.read j

theorem IgnoresBytesAbove.endsAlike {f : State → Outcome} (hf : IgnoresBytesAbove f) {s t : State} {m : Memory}
    (hm : ∀ j < s.rxLen.toNat, m.read j = s.rxbuf.read j) (h : f s = .next t) : EndsAlike f s t m := by
  obtain ⟨hrun, hbuf, hlen⟩ := hf s t m hm h
  exact ⟨_, hrun, rfl, fun j hj => by rw [hbuf]; exact hm j (by omega)⟩

theorem execRxByte_of_missing {b : Byte} {s : State} (hf : s.frozen = false) (hb : inAlphabet b = true)
    (h : s.params.rxMax.toNat < s.rxLen.toNat) : execRxByte b s = .fault (.rxbufElement s.rxLen.toNat) := by
  have hne : s.rxLen ≠ s.params.rxMax := fun e => by simp [e] at h
  simp [execRxByte, appendByte, hf, hb, hne, Nat.not_lt_of_gt h]

/-- The same byte appended to two buffers that agree below `n` makes them agree below `n + 1`. -/
theorem Memory.read_write_congr {m m' : Memory} {n : Nat} {b : Byte} (hb : b ≠ 0#8)
    (h : ∀ j < n, m'.read j = m.read j) {j : Nat} (hj : j < n + 1) : (m'.write n b).read j = (m.write n b).read j := by
  rcases Nat.lt_succ_iff_lt_or_eq.mp hj with hj | rfl
  · rw [Memory.read_write_other _ _ (by omega), Memory.read_write_other _ _ (by omega), h j hj]
  · rw [Memory.read_write_nonzero _ _ hb, Memory.read_write_nonzero _ _ hb]

/-- RX_BYTE writes at RX_LEN and reads nothing (R281). -/
theorem execRxByte_endsAlike {b : Byte} {s t : State} {m : Memory} (hm : ∀ j < s.rxLen.toNat, m.read j = s.rxbuf.read j)
    (h : execRxByte b s = .next t) : EndsAlike (execRxByte b) s t m := by
  cases hf : s.frozen with
  | true =>
    cases (execRxByte_of_frozen hf).symm.trans h
    exact ⟨_, execRxByte_of_frozen (s := { s with rxbuf := m }) hf, rfl, hm⟩
  | false =>
    cases hb : inAlphabet b with
    | false =>
      cases (execRxByte_of_noise hb).symm.trans h
      exact ⟨_, execRxByte_of_noise hb, rfl, hm⟩
    | true =>
      rcases Nat.lt_trichotomy s.rxLen.toNat s.params.rxMax.toNat with hl | he | hl
      · cases (execRxByte_of_room hf hb hl).symm.trans h
        refine ⟨_, execRxByte_of_room (s := { s with rxbuf := m }) hf hb hl, rfl, fun j hj => ?_⟩
        refine Memory.read_write_congr (ne_zero_of_inAlphabet hb) hm (Nat.lt_of_lt_of_le hj ?_)
        exact (BitVec.toNat_add ..).le.trans (Nat.mod_le ..)
      · have hfull := BitVec.eq_of_toNat_eq he
        cases (execRxByte_of_full hf hb hfull).symm.trans h
        exact ⟨_, execRxByte_of_full (s := { s with rxbuf := m }) hf hb hfull, rfl, hm⟩
      · cases (execRxByte_of_missing hf hb hl).symm.trans h

/-- Settles O55: RX_BYTE only appends, SOFT_RESET forgets RXBUF, and every other meaning keeps RXBUF and ignores the bytes from
RX_LEN up. -/
theorem elementsAboveRxLenAreNeverRead : Obligations.ElementsAboveRxLenAreNeverRead := by
  unfold Obligations.ElementsAboveRxLenAreNeverRead
  intro i s t m hm h
  obtain ⟨k, a, rfl⟩ | ⟨k, a, rfl⟩ | ⟨k, rfl⟩ | ⟨k, rfl⟩ | rfl | ⟨b, rfl⟩ | rfl | rfl | ⟨w, rfl⟩ := Instr.shapes i
  · exact (ignoresBytesAbove_buildRequest k a).endsAlike hm h
  · rw [exec_requestInstr] at h ⊢
    exact (ignoresBytesAbove_buildRequest k a).endsAlike hm h
  · exact (ignoresBytesAbove_decodeInstr k).endsAlike hm h
  · exact (ignoresBytesAbove_execValidate k).endsAlike hm h
  · exact ignoresBytesAbove_execRxReset.endsAlike hm h
  · exact execRxByte_endsAlike hm h
  · exact ignoresBytesAbove_execRxTimeout.endsAlike hm h
  · cases h; exact ⟨_, rfl, rfl, fun _ _ => rfl⟩
  · exact (ignoresBytesAbove_execIllegal w).endsAlike hm h

end Sys2Proof.Machine
end

section
/-! What the spaces of 20_memory.md rule out: no instruction writes the parameters (R91), and the commands that access RXBUF stop
at an element that does not exist (R80; log entry 6). -/

namespace Sys2Proof.Machine

/-- Settles O50: the frames leave out the parameters and the pending words. -/
theorem noCommandChangesTheParameters : Obligations.NoCommandChangesTheParameters := by
  unfold Obligations.NoCommandChangesTheParameters
  intro i s t h
  exact exec_params_cmdIn h

/-- The receive filter's alphabet, as R112 lists it. -/
theorem inAlphabet_iff {b : Byte} : inAlphabet b = true ↔ ProtocolByte b := by
  simp [inAlphabet, isShapeChar_iff, ProtocolByte, cr, or_assoc]

theorem execValidate_of_missing {k : Kind} {s : State} (ho : s.rxOverflowed = false) (ht : s.rxTimedOut = false)
    (hl : s.params.rxMax.toNat < s.rxLen.toNat) : execValidate k s = .fault (.rxbufElement s.params.rxMax.toNat) := by
  simp [execValidate, ho, ht, withRxFrame_of_lt (s := clearResults s) hl]

/-- Settles O19: each command that accesses RXBUF has its own equation for a missing element. -/
theorem missingElementFaults : Obligations.MissingElementFaults := by
  unfold Obligations.MissingElementFaults
  intro s hl
  refine ⟨fun b hf hb => ?_, fun k ho ht => ?_, fun k hv hk => ?_⟩
  · exact execRxByte_of_missing hf (inAlphabet_iff.mpr hb) hl
  · exact execValidate_of_missing ho ht hl
  · exact exec_decodeInstr_of_missing hv hk hl

end Sys2Proof.Machine
end

section
/-! Running a command twice (20_memory.md R86): each meaning but RX_BYTE's either reads none of the registers it writes, or its own
result leads it to write the same values again. -/

namespace Sys2Proof.Machine

/-! ### BUILD -/

/-- Writing a string again over itself changes nothing. -/
theorem Memory.writeString_writeString {m : Memory} (hm : m.wf) (i : Nat) {bs : List Byte} (hb : ∀ b ∈ bs, b ≠ 0#8) :
    (m.writeString i bs).writeString i bs = m.writeString i bs := by
  have hw := Memory.wf_writeString hm i bs
  refine Memory.ext_of_wf (Memory.wf_writeString hw i bs) hw fun j => ?_
  by_cases hj : j < i ∨ i + bs.length ≤ j
  · exact Memory.read_writeString_other _ bs hj
  · rw [not_or, not_lt, not_le] at hj
    obtain ⟨d, rfl⟩ := Nat.exists_eq_add_of_le hj.1
    rw [Memory.read_writeString_at _ i hb (by omega), Memory.read_writeString_at _ i hb (by omega)]

/-- BUILD reads only the parameters, and a frame has no 0x00, so the same frame goes over itself (R160). -/
theorem buildRequest_again {k : Kind} {a : Byte} {s t : State} (hm : s.txbuf.wf) (h : buildRequest k a s = .next t) :
    buildRequest k a t = .next t := by
  rcases buildRequest_cases h with ⟨ha, rfl⟩ | ⟨ha, rfl⟩
  · refine (buildRequest_of_supported ?_).trans ?_
    · exact ha
    · rw [Memory.writeString_writeString hm 0 requestFrame_ne_zero]
  · exact buildRequest_of_unsupported ha

/-! ### Reception -/

/-- A second RX_TIMEOUT finds the accumulator frozen by the first (R285, R286). -/
theorem execRxTimeout_again {s t : State} (h : execRxTimeout s = .next t) : execRxTimeout t = .next t := by
  rcases execRxTimeout_cases h with rfl | ⟨-, rfl⟩
  · exact h
  · exact execRxTimeout_of_frozen (by simp [State.frozen, State.rxTimedOut, setTimeout])

/-! ### VALIDATE -/

theorem recordChecksum_status_update (f : List Byte) (s : State) (st : Word32) :
    recordChecksum f { s with status := st } = { recordChecksum f s with status := st } := by
  unfold recordChecksum; split <;> rfl

theorem raise_status_update (c : StatusCode) (aux : Word16) (s : State) (st : Word32) :
    raise c aux { s with status := st } = raise c aux s := rfl

theorem classify_status_update (k : Kind) (r : ReturnCode) (s : State) (st : Word32) :
    classify k r { s with status := st } = classify k r s := rfl

/-- Every end of the checks writes STATUS, so what stood there does not matter (R180). -/
theorem validateFrame_status_update (k : Kind) (f : List Byte) (s : State) (st : Word32) :
    validateFrame k f { s with status := st } = validateFrame k f s := by
  simp only [validateFrame, recordChecksum_status_update, classify_status_update, raise_status_update]

/-- VALIDATE reads none of the registers it writes (R180). -/
theorem execValidate_results_update (k : Kind) (s : State) (v : Byte) (r c : Word16) (st : Word32) :
    execValidate k { s with valstat := v, rtn := r, rxChk := c, status := st } = execValidate k s := by
  show (if s.rxOverflowed then raise .rxOverflow 0 (clearResults s)
    else if s.rxTimedOut then raise .readTimeout 0 (clearResults s)
    else withRxFrame s (validateFrame k s.rxFrame { clearResults s with status := st })) = _
  rw [validateFrame_status_update]
  rfl

theorem execValidate_again {k : Kind} {s t : State} (h : execValidate k s = .next t) : execValidate k t = .next t :=
  calc execValidate k t
    _ = execValidate k { s with valstat := t.valstat, rtn := t.rtn, rxChk := t.rxChk, status := t.status } :=
      congrArg (execValidate k) (execValidate_frame h)
    _ = execValidate k s := execValidate_results_update ..
    _ = .next t := h

/-! ### DECODE -/

theorem clearDecoded_clearDecoded (v : Byte) (k : Kind) : clearDecoded (clearDecoded v k) k = clearDecoded v k := by
  simp [clearDecoded, BitVec.and_assoc]

theorem setDecoded_setDecoded (v : Byte) (k : Kind) : setDecoded (setDecoded v k) k = setDecoded v k := by
  simp [setDecoded, BitVec.or_assoc]

/-- DECODE reads none of the registers it writes but DEC_VALID, where it sets or clears the same bit again (R210). -/
theorem decodeGroup_again {α : Type} {k : Kind} {read : State → Except Raised α} {commit : α → State → State}
    (hread : ∀ s v st, read { s with decValid := v, status := st } = read s)
    (hkeep : ∀ g s, read (commit g s) = read s ∧ (commit g s).params = s.params ∧ (commit g s).rxLen = s.rxLen ∧
      (commit g s).valstat = s.valstat)
    (hcommit : ∀ g s v st, commit g { commit g s with decValid := v, status := st } =
      { commit g s with decValid := v, status := st })
    {s t : State} (h : decodeGroup k read commit s = .next t) : decodeGroup k read commit t = .next t := by
  rcases decodeGroup_cases h with ⟨hv, rfl⟩ | ⟨hv, hk, hl, ⟨e, he, rfl⟩ | ⟨g, hg, rfl⟩⟩
  · refine (decodeGroup_of_unvalidated ?_).trans ?_
    · exact hv
    · rw [clearDecoded_clearDecoded]
  · refine (decodeGroup_of_error ?_ ?_ ?_ ((hread ..).trans he)).trans ?_
    · exact hv
    · exact hk
    · exact hl
    · rw [clearDecoded_clearDecoded]
  · obtain ⟨hr, hp, hlen, hval⟩ := hkeep g s
    rw [← hp, ← hlen] at hl
    rw [State.valOk, ← hval] at hv
    rw [State.valKind, ← hval] at hk
    refine (decodeGroup_of_ok ?_ ?_ ?_ ((hread ..).trans (hr.trans hg))).trans ?_
    · exact hv
    · exact hk
    · exact hl
    · rw [hcommit, setDecoded_setDecoded]

theorem exec_decodeInstr_again {k : Kind} {s t : State} (h : exec (decodeInstr k) s = .next t) :
    exec (decodeInstr k) t = .next t := by
  cases k
  all_goals
    simp only [decodeInstr, exec, execDecodeSerialNumber, execDecodeManufacturerInfo, execDecodeProtocolVersion,
      execDecodeSoftwareVersion, execDecodeSystemParameters, execDecodeAlarmInfo, execDecodeChargeManagementInfo,
      execDecodeAnalogValue] at h ⊢
    refine decodeGroup_again ?_ ?_ ?_ h
    · exact fun _ _ _ => rfl
    · exact fun _ _ => ⟨rfl, rfl, rfl, rfl⟩
    · exact fun _ _ _ _ => rfl

/-! ### Every instruction -/

/-- Settles O54: by the nine shapes of `Instr.shapes`; only BUILD needs the invariant, for TXBUF's canonical form. -/
theorem commandsButRxByteAreIdempotent : Obligations.CommandsButRxByteAreIdempotent := by
  unfold Obligations.CommandsButRxByteAreIdempotent
  intro i s t hs hb h
  obtain ⟨k, a, rfl⟩ | ⟨k, a, rfl⟩ | ⟨k, rfl⟩ | ⟨k, rfl⟩ | rfl | ⟨b, rfl⟩ | rfl | rfl | ⟨w, rfl⟩ := Instr.shapes i
  · exact buildRequest_again hs.tx.txbuf_wf h
  · rw [exec_requestInstr] at h ⊢
    exact buildRequest_again hs.tx.txbuf_wf h
  · exact exec_decodeInstr_again h
  · exact execValidate_again h
  · cases h; rfl
  · exact absurd rfl (hb b)
  · exact execRxTimeout_again h
  · cases h; rfl
  · cases h; rfl

end Sys2Proof.Machine
end

section
/-! Wire requests (30_encoding.md R104–R110): what the decoder asks of a string of characters, said once in both directions. A
request frame meets it, and a string that meets it is the request frame of the kind and address that it names. -/

namespace Sys2Proof

/-! ### The header and the address -/

@[simp] theorem hexByte_hex2 (v : Byte) : hexByte (hex2 v) = some v := by
  simp [hexByte]

theorem hex2_injective : Function.Injective hex2 := fun v w h => by
  simpa using congrArg hexByte h

/-- Two hex digits are the spelling of the byte read from them. -/
theorem hex2_of_hexByte {s : List Byte} {v : Byte} (hl : s.length = 2) (h : hexByte s = some v) : hex2 v = s := by
  obtain ⟨n, hn, rfl⟩ := Option.map_eq_some_iff.mp h
  exact (hex2_of_hexval hl hn).1

theorem cidChars_injective : Function.Injective cidChars := fun c d h => by
  obtain ⟨h1, h2⟩ := List.append_inj h rfl
  cases c; cases d
  rw [CidPair.mk.injEq]
  exact ⟨hex2_injective h1, hex2_injective h2⟩

theorem adrOf_sub_one (a : Byte) : adrOf a - 1#8 = a := by
  unfold adrOf; bv_omega

theorem adrOf_of_sub_one (adr : Byte) : adrOf (adr - 1#8) = adr := by
  unfold adrOf; bv_omega

/-- The ADR bytes of encodable addresses are those from 0x02 up (R109). -/
theorem encodableAddress_iff (a : Byte) : encodableAddress a = true ↔ 2 ≤ (adrOf a).toNat := by
  have key : (adrOf a).toNat = (a.toNat + 1) % 256 := by unfold adrOf; bv_omega
  have := a.isLt
  rw [key, encodableAddress, Bool.and_eq_true, decide_eq_true_eq, decide_eq_true_eq]
  omega

/-- A header that names a kind is the header of that kind's requests (R107, R108). -/
theorem header_of_kindOfHeader {cids : PerKind CidPair} {ver cid : List Byte} {k : Kind}
    (h : kindOfHeader cids ver cid = some k) : requestVer k = ver ∧ cidChars (cids.get k) = cid := by
  simpa using List.find?_some h

theorem eq_of_cidsDistinct {cids : PerKind CidPair} (h : cidsDistinct cids = true) {j k : Kind}
    (hv : requestVer j = requestVer k) (hc : cids.get j = cids.get k) : j = k := by
  have hjk := List.all_eq_true.mp (List.all_eq_true.mp h j j.mem_all) k k.mem_all
  simpa [hv, hc] using hjk

/-- Where the kinds can be told apart, the header of a request names its kind. -/
theorem kindOfHeader_request {cids : PerKind CidPair} (h : cidsDistinct cids = true) (k : Kind) :
    kindOfHeader cids (requestVer k) (cidChars (cids.get k)) = some k := by
  cases hj : kindOfHeader cids (requestVer k) (cidChars (cids.get k)) with
  | none => simpa using List.find?_eq_none.mp hj k k.mem_all
  | some j =>
    obtain ⟨hv, hc⟩ := header_of_kindOfHeader hj
    rw [eq_of_cidsDistinct h hv (cidChars_injective hc)]

/-! ### The decoder -/

/-- What the decoder asks of a wire request, part by part of the table's pattern (R104–R110), and what it answers. -/
theorem decodeWire_eq_ok {cids : PerKind CidPair} {f : List Byte} {i : Instr} :
    decodeWire cids f = .ok i ↔
      f.length = 20 ∧ slice f 0 1 = [soi] ∧ slice f 19 1 = [cr] ∧
      slice f 9 4 = [0x45#8, 0x30#8, 0x30#8, 0x32#8] ∧ slice f 13 2 = slice f 3 2 ∧
      slice f 15 4 = fmt4 (checksum (slice f 1 14)) ∧
      ∃ k adr, kindOfHeader cids (slice f 1 2) (slice f 5 4) = some k ∧ hexByte (slice f 3 2) = some adr ∧
        2 ≤ adr.toNat ∧ requestInstr k (adr - 1#8) = i := by
  unfold decodeWire
  split_ifs
  case neg =>
    simp only [ne_eq, not_not] at *
    cases hk : kindOfHeader cids (slice f 1 2) (slice f 5 4) with
    | none => simp
    | some k =>
      cases ha : hexByte (slice f 3 2) with
      | none => simp
      | some adr =>
        by_cases h2 : 2 ≤ adr.toNat
        · simp [*, Nat.not_lt.mpr h2]
        · simp [*, Nat.not_le.mp h2]
  all_goals simp [*]

/-- The frame of a request is read back as that request (R104). -/
theorem decodeWire_requestFrame {cids : PerKind CidPair} (h : cidsDistinct cids = true) {k : Kind} {a : Byte}
    (ha : encodableAddress a = true) : decodeWire cids (requestFrame cids k a) = .ok (requestInstr k a) := by
  rw [decodeWire_eq_ok]
  refine ⟨length_requestFrame cids k a, slice_requestFrame_soi cids k a, slice_requestFrame_eoi cids k a,
    slice_requestFrame_length cids k a, ?_, ?_, k, adrOf a, ?_, ?_, (encodableAddress_iff a).mp ha, ?_⟩
  · rw [slice_requestFrame_info, slice_requestFrame_adr]
  · rw [slice_requestFrame_checksum, slice_requestFrame_body, requestChecksum]
  · rw [slice_requestFrame_ver, slice_requestFrame_cid, kindOfHeader_request h]
  · rw [slice_requestFrame_adr, hexByte_hex2]
  · rw [adrOf_sub_one]

theorem slice_append_slice (s : List Byte) (a m n : Nat) : slice s a m ++ slice s (a + m) n = slice s a (m + n) := by
  rw [slice, slice, slice, List.take_add, List.drop_drop]

theorem length_slice {s : List Byte} {a w : Nat} (h : a + w ≤ s.length) : (slice s a w).length = w := by
  simp only [slice, List.length_take, List.length_drop]; omega

/-- Offsets 1 to 14 of a frame, cut at the fields of R104. -/
theorem slice_body_eq (f : List Byte) :
    slice f 1 14 = slice f 1 2 ++ slice f 3 2 ++ slice f 5 4 ++ slice f 9 4 ++ slice f 13 2 := by
  simp only [slice_append_slice f 1, Nat.reduceAdd]

/-- A frame of 20 characters, cut into SOI, body, CHECKSUM and EOI (R104). -/
theorem frame_eq_slices {f : List Byte} (h : f.length = 20) :
    f = slice f 0 1 ++ slice f 1 14 ++ slice f 15 4 ++ slice f 19 1 := by
  simp only [slice_append_slice f 0 1 14, slice_append_slice f 0 15 4, slice_append_slice f 0 19 1, Nat.reduceAdd]
  simp [slice, h]

/-- What the decoder reads as a request is the frame of that request, for an address that has an ADR byte. -/
theorem requestFrame_of_decodeWire {cids : PerKind CidPair} {f : List Byte} {i : Instr}
    (h : decodeWire cids f = .ok i) :
    ∃ k a, encodableAddress a = true ∧ i = requestInstr k a ∧ f = requestFrame cids k a := by
  obtain ⟨hlen, hsoi, heoi, hlength, hinfo, hchk, k, adr, hk, hadr, h2, rfl⟩ := decodeWire_eq_ok.mp h
  obtain ⟨hver, hcid⟩ := header_of_kindOfHeader hk
  have hspell := hex2_of_hexByte (length_slice (by omega)) hadr
  refine ⟨k, adr - 1#8, ?_, rfl, ?_⟩
  · rwa [encodableAddress_iff, adrOf_of_sub_one]
  · have hbody : slice f 1 14 = requestBody cids k (adr - 1#8) := by
      rw [slice_body_eq, hinfo, hlength, ← hver, ← hcid, ← hspell]
      simp only [requestBody, adrOf_of_sub_one, lengthChars_hex2]
    rw [hbody] at hchk
    rw [frame_eq_slices hlen, hsoi, hbody, hchk, heoi, requestFrame, requestChecksum]

/-! ### The encoder -/

@[simp] theorem encode_requestInstr (cids : PerKind CidPair) (k : Kind) (a : Byte) :
    encode cids (requestInstr k a) = .wire (requestFrame cids k a) := by
  cases k <;> rfl

@[simp] theorem wellFormed_requestInstr (k : Kind) (a : Byte) :
    (requestInstr k a).wellFormed = encodableAddress a := by
  cases k <;> rfl

@[simp] theorem encode_decodeInstr (cids : PerKind CidPair) (k : Kind) :
    encode cids (decodeInstr k) = .command (commandWord 0x6 k.number 0) := by
  cases k <;> rfl

@[simp] theorem wellFormed_decodeInstr (k : Kind) : (decodeInstr k).wellFormed = true := by
  cases k <;> rfl

/-- The instructions encoded as wire characters are the request rows. -/
theorem requestInstr_of_encode_wire {cids : PerKind CidPair} {i : Instr} {f : List Byte} (h : encode cids i = .wire f) :
    ∃ k a, i = requestInstr k a ∧ f = requestFrame cids k a := by
  obtain ⟨k, a, rfl⟩ | ⟨k, a, rfl⟩ | ⟨k, rfl⟩ | ⟨k, rfl⟩ | rfl | ⟨b, rfl⟩ | rfl | rfl | ⟨v, rfl⟩ := Machine.Instr.shapes i
  case inr.inl =>
    rw [encode_requestInstr] at h
    cases h
    exact ⟨k, a, rfl, rfl⟩
  case inr.inr.inl => rw [encode_decodeInstr] at h; cases h
  all_goals cases h

end Sys2Proof

namespace Sys2Proof.Machine

/-- Settles O3: a command word by the decoder's undoing of each command's encoding, a wire request by reading its frame back. -/
theorem decodeOfEncodeIsTheInstruction : Obligations.DecodeOfEncodeIsTheInstruction := by
  unfold Obligations.DecodeOfEncodeIsTheInstruction
  intro cids hd i hi
  cases he : encode cids i with
  | command w => rw [decode, decodeWord_of_encode hi he]
  | wire f =>
    obtain ⟨k, a, rfl, rfl⟩ := requestInstr_of_encode_wire he
    rw [wellFormed_requestInstr] at hi
    exact decodeWire_requestFrame hd hi

end Sys2Proof.Machine
end

section
/-! Command words (30_encoding.md R100–R102): which row of R102 a word matches, and that the encoder gives back the word that
the decoder read. ARG enters only as whether it is 0, so each fact about all words is one about that bit and the low byte. -/

namespace Sys2Proof.Machine

/-! ### The rows of R102 -/

/-- A row fits a word by the bits of its low byte, and leaves ARG free or asks for ARG 0. -/
theorem row_fits_append (h l : Byte) {r : Word16 × Word16} (hr : r ∈ commandRows) :
    ((h ++ l) &&& r.1 == r.2) =
      ((h == 0#8 || r.1.extractLsb' 8 8 == 0#8) && l &&& r.1.extractLsb' 0 8 == r.2.extractLsb' 0 8) := by
  have high : ∀ r ∈ commandRows, r.2.extractLsb' 8 8 = 0#8 ∧
      (r.1.extractLsb' 8 8 = 0#8 ∨ r.1.extractLsb' 8 8 = 0xFF#8) := by simp [commandRows]
  obtain ⟨hmatch, hmask⟩ := high r hr
  have e := masked_append h l (r.1.extractLsb' 8 8) (r.1.extractLsb' 0 8) (r.2.extractLsb' 8 8) (r.2.extractLsb' 0 8)
  rw [bytes_of_word, bytes_of_word, hmatch] at e
  have ones : h &&& 0xFF#8 = h := BitVec.and_allOnes
  rw [Bool.eq_iff_iff, beq_iff_eq, e]
  rcases hmask with hm | hm
  · simp [hm]
  · simp [hm, ones]

/-- One row fits a word that R102's conditions allow, and none fits one that they refuse. -/
theorem length_fitting_rows (w : Word16) :
    (commandRows.filter fun r => w &&& r.1 == r.2).length = if legalWord w then 1 else 0 := by
  obtain ⟨arg, low, rfl⟩ : ∃ arg low : Byte, arg ++ low = w := ⟨_, _, bytes_of_word w⟩
  rw [List.filter_congr fun r hr => row_fits_append arg low hr, legalWord_append]
  generalize (arg == 0#8) = argZero
  revert argZero low
  decide +kernel

theorem legalWord_eq_false_iff {w : Word16} : legalWord w = false ↔ ∀ r ∈ commandRows, w &&& r.1 ≠ r.2 := by
  have fits : (∀ r ∈ commandRows, w &&& r.1 ≠ r.2) ↔ (commandRows.filter fun r => w &&& r.1 == r.2).length = 0 := by
    simp
  rw [fits, length_fitting_rows]
  cases legalWord w <;> simp

theorem decodeInstr_ne_illegal (k : Kind) (w : Word16) : decodeInstr k ≠ .illegal w := by
  cases k <;> simp [decodeInstr]

/-- The decoder answers `illegal` where no row fits. -/
theorem decodeWord_eq_illegal_iff {w : Word16} :
    decodeWord w = .illegal w ↔ ∀ r ∈ commandRows, w &&& r.1 ≠ r.2 := by
  unfold decodeWord
  split_ifs <;> simp [commandRows, decodeInstr_ne_illegal, *]

/-- Settles O2: the rows by the low byte and whether ARG is 0; the decoder answers `illegal` just where no row fits. -/
theorem exactlyOneRowMatchesEachLegalWord : Obligations.ExactlyOneRowMatchesEachLegalWord := by
  unfold Obligations.ExactlyOneRowMatchesEachLegalWord
  exact fun w => ⟨length_fitting_rows w, decodeWord_eq_illegal_iff.trans legalWord_eq_false_iff.symm⟩

/-! ### The encoder on the decoder's answers -/

/-- The low byte of a word whose bits 3:0 are OP and whose bit 7 is 0 (R100). -/
theorem low_byte_eq {l : Byte} {op : BitVec 4} (h : l &&& 0x8F#8 = 0#4 ++ op) :
    (0#1 ++ ((kindOfNumber (l.extractLsb' 4 3)).number ++ op) : Byte) = l := by
  rw [number_kindOfNumber]
  revert l op
  decide +kernel

/-- The word that the decoder read is the encoding of its answer. -/
theorem encode_decodeWord (cids : PerKind CidPair) (w : Word16) : encode cids (decodeWord w) = .command w := by
  obtain ⟨arg, low, rfl⟩ : ∃ arg low : Byte, arg ++ low = w := ⟨_, _, bytes_of_word w⟩
  rw [decodeWord_append]
  split_ifs with hbuild hreset hbyte htimeout hvalidate hdecode hsoft
  · rw [encode, buildWord, commandWord_append, low_byte_eq hbuild]
  · obtain ⟨rfl, rfl⟩ := hreset; rfl
  · rw [hbyte]; rfl
  · obtain ⟨rfl, rfl⟩ := htimeout; rfl
  · rw [encode, commandWord_append, low_byte_eq hvalidate.2, hvalidate.1]
  · rw [encode_decodeInstr, commandWord_append, low_byte_eq hdecode.2, hdecode.1]
  · obtain ⟨rfl, rfl⟩ := hsoft; rfl
  · rfl

theorem wellFormed_decodeWord (w : Word16) : (decodeWord w).wellFormed = true := by
  unfold decodeWord
  split_ifs
  · rfl
  · rfl
  · rfl
  · rfl
  · rfl
  · exact wellFormed_decodeInstr _
  · rfl
  · have hl : legalWord w = false := legalWord_eq_false_iff.mpr (by simp [commandRows, *])
    rw [Instr.wellFormed, hl]
    rfl

/-- Settles O4: the encoder undoes the decoder on every word; a string that the decoder accepts is the frame of its answer. -/
theorem encodeOfDecodeIsTheEncoding : Obligations.EncodeOfDecodeIsTheEncoding := by
  unfold Obligations.EncodeOfDecodeIsTheEncoding
  intro cids e i h
  cases e with
  | command w =>
    cases h
    exact ⟨encode_decodeWord cids w, wellFormed_decodeWord w⟩
  | wire f =>
    obtain ⟨k, a, ha, rfl, rfl⟩ := requestFrame_of_decodeWire h
    rw [encode_requestInstr, wellFormed_requestInstr]
    exact ⟨rfl, ha⟩

/-- Settles O1: ten closed words, each read by evaluating the decoder. -/
theorem commandWordsDecode : Obligations.CommandWordsDecode := by
  unfold Obligations.CommandWordsDecode
  decide

end Sys2Proof.Machine
end

section
/-! What the block's frame and the host's stream leave, read back: TXBUF by the wire decoder (30_encoding.md R104), RXBUF as the
accepted bytes (R114). -/

namespace Sys2Proof.Machine

theorem addressSupported_iff {s : State} {a : Byte} : addressSupported s.params a = true ↔ Supported s a := by
  simp [addressSupported]

/-- Legal bounds on the addresses leave only encodable ones (R7, R109). -/
theorem encodableAddress_of_supported {s : State} {a : Byte} (hp : s.params.Legal) (h : Supported s a) :
    encodableAddress a = true := by
  have hmin := hp.addrMin_pos
  have hmax := hp.addrMax_le
  obtain ⟨hlo, hhi⟩ := h
  simp only [encodableAddress, Bool.and_eq_true, decide_eq_true_eq]
  omega

/-- Settles O10: TXBUF holds the request frame, which the wire decoder reads back. -/
theorem builtFrameDecodesAsItsRequest : Obligations.BuiltFrameDecodesAsItsRequest := by
  unfold Obligations.BuiltFrameDecodesAsItsRequest
  intro k a s hp hd hs
  refine ⟨_, buildRequest_of_supported (addressSupported_iff.mpr hs), ?_⟩
  rw [decode, State.txFrame, txFrame_written]
  exact decodeWire_requestFrame hd (encodableAddress_of_supported hp hs)

/-- The accepted bytes of a stream are read back from an accumulator that was empty. -/
theorem rxFrame_accumulate {s : State} {bs : List Byte} (hl : s.rxLen = 0)
    (h : (acceptedBytes bs).length < 65536) : (s.accumulate bs).rxFrame = acceptedBytes bs := by
  have hlen : (s.accumulate bs).rxLen.toNat = (acceptedBytes bs).length := by
    simp [State.accumulate, hl, Nat.mod_eq_of_lt h]
  have hbuf : (s.accumulate bs).rxbuf = s.rxbuf.writeString 0 (acceptedBytes bs) := by
    simp [State.accumulate, hl]
  rw [State.rxFrame, hlen, hbuf]
  exact Memory.readString_writeString s.rxbuf 0 fun _ hb => ne_zero_of_mem_acceptedBytes hb

/-- Settles O18: the stream leaves `State.accumulate`, whose buffer holds the accepted bytes from index 0. -/
theorem streamLeavesItsAcceptedBytes : Obligations.StreamLeavesItsAcceptedBytes := by
  unfold Obligations.StreamLeavesItsAcceptedBytes
  intro bs s hs hl h
  have hm := s.params.rxMax.isLt
  refine ⟨_, execAll_rxString hs ?_, ?_, rxFrame_accumulate hl (by omega), fun i hi => ?_⟩
  · simpa [hl] using h
  · simp [State.accumulate, hl]
  · have hout : s.rxLen.toNat + (acceptedBytes bs).length ≤ i := by simpa [hl] using hi
    exact Memory.read_writeString_other s.rxbuf (acceptedBytes bs) (.inr hout)

end Sys2Proof.Machine
end

section
/-! The arithmetic of 40_checksum.md: the checksum as the negated byte sum (R140, R141, R147), LENGTH as its two parts (R144). -/

namespace Sys2Proof.Machine

/-! ### The byte sum -/

theorem byteSum_eq_of_perm {s t : List Byte} (h : s.Perm t) : byteSum s = byteSum t :=
  (h.map BitVec.toNat).sum_eq

/-- Bytes of at most `m` each sum to at most `m` times their number. -/
theorem byteSum_le {s : List Byte} {m : Nat} (h : ∀ b ∈ s, b.toNat ≤ m) : byteSum s ≤ s.length * m := by
  simpa [byteSum] using List.sum_le_card_nsmul (s.map BitVec.toNat) m (by simpa using h)

/-- Bytes of at least `m` each sum to at least `m` times their number. -/
theorem le_byteSum {s : List Byte} {m : Nat} (h : ∀ b ∈ s, m ≤ b.toNat) : s.length * m ≤ byteSum s := by
  simpa [byteSum] using List.card_nsmul_le_sum (s.map BitVec.toNat) m (by simpa using h)

/-! ### The checksum -/

/-- Complement and increment negate the sum (R140). -/
theorem checksum_eq_neg (s : List Byte) : checksum s = -BitVec.ofNat 16 (byteSum s) :=
  (BitVec.neg_eq_not_add _).symm

theorem toNat_checksum (s : List Byte) : (checksum s).toNat = (65536 - byteSum s % 65536) % 65536 := by
  rw [checksum_eq_neg, BitVec.toNat_neg, BitVec.toNat_ofNat]

/-- Settles O11: the checksum is the negated sum in 16 bits, which is 0 where the sum is. -/
theorem checksumNegatesTheSum : Obligations.ChecksumNegatesTheSum := by
  unfold Obligations.ChecksumNegatesTheSum
  refine fun s => ⟨toNat_checksum s, fun h => BitVec.eq_of_toNat_eq ?_⟩
  rw [toNat_checksum, h]
  rfl

/-- The checksum and the sum cancel (R147). -/
theorem toNat_checksum_add_byteSum (s : List Byte) : ((checksum s).toNat + byteSum s) % 65536 = 0 := by
  rw [toNat_checksum]
  omega

/-! ### The request's checksum -/

/-- The 14 characters from VER through INFO are spelled hex digits, whatever the CID bytes (R104). -/
theorem exists_hexChar_of_mem_requestBody {cids : PerKind CidPair} {k : Kind} {a b : Byte}
    (h : b ∈ requestBody cids k a) : ∃ v, hexChar v = b := by
  have hex2_mem : ∀ {v : Byte}, b ∈ hex2 v → ∃ v, hexChar v = b := by
    simp only [hex2, List.mem_cons, List.not_mem_nil, or_false]
    rintro v (rfl | rfl) <;> exact ⟨_, rfl⟩
  have fmt4_mem : ∀ {v : Word16}, b ∈ fmt4 v → ∃ v, hexChar v = b := by
    simp only [fmt4, List.mem_cons, List.not_mem_nil, or_false]
    rintro v (rfl | rfl | rfl | rfl) <;> exact ⟨_, rfl⟩
  have ver_hex2 : ∃ v, requestVer k = hex2 v := by
    cases k
    case protocolVersion => exact ⟨0x00#8, rfl⟩
    all_goals exact ⟨0x20#8, rfl⟩
  obtain ⟨v, hv⟩ := ver_hex2
  simp only [requestBody, cidChars, lengthChars, hv, List.mem_append] at h
  obtain (((hver | hadr) | hcid1 | hcid2) | hlength) | hinfo := h
  · exact hex2_mem hver
  · exact hex2_mem hadr
  · exact hex2_mem hcid1
  · exact hex2_mem hcid2
  · exact fmt4_mem hlength
  · exact hex2_mem hinfo

/-- Each character of the body is a hex digit between `0` and `F` (R147). -/
theorem requestBody_range {cids : PerKind CidPair} {k : Kind} {a b : Byte} (h : b ∈ requestBody cids k a) :
    (hexdig b).isSome = true ∧ 0x30 ≤ b.toNat ∧ b.toNat ≤ 0x46 := by
  obtain ⟨v, rfl⟩ := exists_hexChar_of_mem_requestBody h
  exact ⟨by simp, hexChar_range v⟩

theorem byteSum_requestBody_range (cids : PerKind CidPair) (k : Kind) (a : Byte) :
    0x2A0 ≤ byteSum (requestBody cids k a) ∧ byteSum (requestBody cids k a) ≤ 0x3D4 := by
  have hlo := le_byteSum fun b (hb : b ∈ requestBody cids k a) => (requestBody_range hb).2.1
  have hhi := byteSum_le fun b (hb : b ∈ requestBody cids k a) => (requestBody_range hb).2.2
  rw [length_requestBody] at hlo hhi
  exact ⟨hlo, hhi⟩

theorem requestChecksum_range (cids : PerKind CidPair) (k : Kind) (a : Byte) :
    0xFC2C ≤ (requestChecksum cids k a).toNat ∧ (requestChecksum cids k a).toNat ≤ 0xFD60 := by
  obtain ⟨hlo, hhi⟩ := byteSum_requestBody_range cids k a
  rw [requestChecksum, toNat_checksum]
  omega

/-- Four bits of a word from position `i` up, as the digit of its value. -/
theorem extractLsb'_eq_of_toNat {v : Word16} {i : Nat} {d : BitVec 4} (h : v.toNat / 2 ^ i % 16 = d.toNat) :
    v.extractLsb' i 4 = d := by
  apply BitVec.eq_of_toNat_eq
  rw [BitVec.extractLsb'_toNat, Nat.shiftRight_eq_div_pow]
  exact h

/-- The words from 0xFC00 to 0xFDFF are those spelled "FC.." and "FD..": the upper byte decides. -/
theorem take_two_fmt4 {v : Word16} (hlo : 0xFC00 ≤ v.toNat) (hhi : v.toNat ≤ 0xFDFF) :
    (fmt4 v).take 2 = ascii "FC" ∨ (fmt4 v).take 2 = ascii "FD" := by
  have first : v.extractLsb' 12 4 = 0xF#4 := extractLsb'_eq_of_toNat (by change _ = 15; omega)
  rw [fmt4, first]
  by_cases hC : v.toNat < 0xFD00
  · have second : v.extractLsb' 8 4 = 0xC#4 := extractLsb'_eq_of_toNat (by change _ = 12; omega)
    left; rw [second]; rfl
  · have second : v.extractLsb' 8 4 = 0xD#4 := extractLsb'_eq_of_toNat (by change _ = 13; omega)
    right; rw [second]; rfl

/-- Settles O12: three facts about the sum of any string; a request's body is 14 hex digits, which bounds its sum. -/
theorem checksumProperties : Obligations.ChecksumProperties := by
  unfold Obligations.ChecksumProperties
  refine ⟨fun s t h => ?_, toNat_checksum_add_byteSum, fun s hlen hb => ?_, fun cids k a => ?_⟩
  · rw [checksum, byteSum_eq_of_perm h, checksum]
  · have := byteSum_le hb
    omega
  · obtain ⟨hslo, hshi⟩ := byteSum_requestBody_range cids k a
    obtain ⟨hclo, hchi⟩ := requestChecksum_range cids k a
    exact ⟨length_requestBody cids k a, fun _ => requestBody_range, hslo, hshi, hclo, hchi,
      take_two_fmt4 (by omega) (by omega)⟩

/-! ### LENGTH -/

/-- Complement and increment negate the sum of the nibbles (R144). -/
theorem toNat_lchksum (lenid : BitVec 12) :
    (lchksum lenid).toNat =
      (16 - (lenid.toNat / 256 + lenid.toNat / 16 % 16 + lenid.toNat % 16) % 16) % 16 := by
  have high : lenid.toNat / 256 % 16 = lenid.toNat / 256 := by omega
  rw [lchksum, ← BitVec.neg_eq_not_add, BitVec.toNat_neg]
  simp [Nat.shiftRight_eq_div_pow, high]

theorem toNat_lengthField (lenid : BitVec 12) :
    (lengthField lenid).toNat = (lchksum lenid).toNat * 4096 + lenid.toNat := by
  rw [lengthField, BitVec.toNat_append, ← Nat.shiftLeft_add_eq_or_of_lt lenid.isLt, Nat.shiftLeft_eq]

/-- Settles O13: the nibble sum negated in 4 bits, and LENGTH as an append; LENID 2 is evaluated. -/
theorem lengthFieldPacking : Obligations.LengthFieldPacking := by
  unfold Obligations.LengthFieldPacking
  exact ⟨fun lenid => ⟨toNat_lchksum lenid, toNat_lengthField lenid⟩, by decide⟩

end Sys2Proof.Machine
end

section
/-! What BUILD leaves of a request (41_build.md R160–R163): the state after it, said once, the fields of the frame in TXBUF
(30_encoding.md R104–R110), and what the next address changes in them. -/

namespace Sys2Proof.Machine

/-! ### The state after BUILD -/

/-- The state that BUILD of kind `k` leaves for a supported address `a` (R160). -/
def State.built (s : State) (k : Kind) (a : Byte) : State :=
  { s with
    txbuf := s.txbuf.writeString 0 (requestFrame s.params.cidTable k a)
    txLen := 20
    txChk := requestChecksum s.params.cidTable k a
    status := statusWord .ok 0 }

theorem buildRequest_eq_built {k : Kind} {a : Byte} {s : State} (h : Supported s a) :
    buildRequest k a s = .next (s.built k a) :=
  buildRequest_of_supported (addressSupported_iff.mpr h)

theorem exec_build_eq_built {k : Kind} {a : Byte} {s : State} (h : Supported s a) :
    exec (.build k a) s = .next (s.built k a) :=
  buildRequest_eq_built h

/-- Any other address leaves TX_LEN 0 and INVALID_ADDRESS with the address in AUX (R160). -/
theorem buildRequest_of_not_supported {k : Kind} {a : Byte} {s : State} (h : ¬ Supported s a) :
    buildRequest k a s = .next { s with txLen := 0, status := a.setWidth 16 ++ 0x0008#16 } := by
  rw [← addressSupported_iff, Bool.not_eq_true] at h
  exact buildRequest_of_unsupported h

/-- BUILD writes TXBUF, TX_LEN, TX_CHK and STATUS only; STATUS reads OK (R160). -/
theorem built_frame (s : State) (k : Kind) (a : Byte) :
    s.built k a =
      { s with txbuf := (s.built k a).txbuf, txLen := 20, txChk := (s.built k a).txChk, status := 0x00000001#32 } := rfl

@[simp] theorem built_txChk (s : State) (k : Kind) (a : Byte) :
    (s.built k a).txChk = requestChecksum s.params.cidTable k a := rfl

@[simp] theorem built_txFrame (s : State) (k : Kind) (a : Byte) :
    (s.built k a).txFrame = requestFrame s.params.cidTable k a :=
  txFrame_written s.txbuf s.params.cidTable k a

/-- A part of TXBUF is the same part of the frame (R104). -/
theorem readString_built (s : State) (k : Kind) (a : Byte) {i n : Nat} (h : i + n ≤ 20) :
    (s.built k a).txbuf.readString i n = slice (requestFrame s.params.cidTable k a) i n :=
  readString_written_frame s.txbuf s.params.cidTable k a h

/-- Offsets 1 to 14 of the frame are the checksum's input (R143). -/
theorem built_body (s : State) (k : Kind) (a : Byte) :
    ((s.built k a).txFrame.drop 1).take 14 = requestBody s.params.cidTable k a := by
  rw [built_txFrame]
  exact slice_requestFrame_body s.params.cidTable k a

theorem built_txChk_eq_checksum (s : State) (k : Kind) (a : Byte) :
    (s.built k a).txChk = checksum (((s.built k a).txFrame.drop 1).take 14) := by
  rw [built_body, built_txChk, requestChecksum]

/-- Beyond the 20 characters TXBUF keeps its bytes. -/
theorem read_built_of_le (s : State) (k : Kind) (a : Byte) {i : Nat} (h : 20 ≤ i) :
    (s.built k a).txbuf.read i = s.txbuf.read i :=
  Memory.read_writeString_other _ _ (.inr (by simpa using h))

/-! ### The frame -/

theorem requestVer_eq (k : Kind) :
    requestVer k = if k = .protocolVersion then [0x30#8, 0x30#8] else [0x32#8, 0x30#8] := by
  cases k <;> rfl

/-- The fields of a request frame in their order, LENGTH evaluated (R104). -/
theorem requestFrame_eq (cids : PerKind CidPair) (k : Kind) (a : Byte) :
    requestFrame cids k a =
      [soi] ++ requestVer k ++ hex2 (adrOf a) ++ hex2 (cids.get k).cid1 ++ hex2 (cids.get k).cid2 ++
        [0x45#8, 0x30#8, 0x30#8, 0x32#8] ++ hex2 (adrOf a) ++ fmt4 (requestChecksum cids k a) ++ [cr] := by
  simp only [requestFrame, requestBody, cidChars, lengthChars_hex2, List.append_assoc]

/-- A kind enters its frames through VER and the CID pair only (R162). -/
theorem requestFrame_congr {cids cids' : PerKind CidPair} {j k : Kind} (a : Byte) (hv : requestVer j = requestVer k)
    (hc : cids.get j = cids'.get k) : requestFrame cids j a = requestFrame cids' k a := by
  simp only [requestFrame, requestChecksum, requestBody, hv, hc]

/-- Settles O5: the decoder's first row, the fields of the written frame, and the two ends of BUILD. -/
theorem buildWritesTheRequestFrame : Obligations.BuildWritesTheRequestFrame := by
  unfold Obligations.BuildWritesTheRequestFrame
  refine ⟨fun w h => ?_, fun k a s => ⟨fun hs => ?_, buildRequest_of_not_supported⟩⟩
  · rw [decodeWord, if_pos h]
  · refine ⟨s.built k a, exec_build_eq_built hs, built_frame s k a, built_txChk_eq_checksum s k a, ?_,
      fun i => read_built_of_le s k a⟩
    rw [built_txFrame, requestFrame_eq, requestVer_eq, built_txChk, adrOf, soi, cr]

/-- Settles O9: a request row does what BUILD of its kind does, and its encoding is the frame that BUILD writes. -/
theorem requestRowsProduceTheirFrames : Obligations.RequestRowsProduceTheirFrames := by
  unfold Obligations.RequestRowsProduceTheirFrames
  intro k a s
  rw [exec_requestInstr, encode_requestInstr]
  exact ⟨fun hs => ⟨s.built k a, buildRequest_eq_built hs, built_frame s k a, by rw [built_txFrame],
    built_txChk_eq_checksum s k a, fun i => read_built_of_le s k a⟩, buildRequest_of_not_supported⟩

/-- Settles O7: the frame, its length, its checksum and STATUS are those of `State.built`, which reads the parameters only. -/
theorem buildDependsOnItsOperandsAlone : Obligations.BuildDependsOnItsOperandsAlone := by
  unfold Obligations.BuildDependsOnItsOperandsAlone
  intro k a s s' hp hs
  have hs' : Supported s' a := by rwa [Supported, hp]
  refine ⟨_, _, exec_build_eq_built hs, exec_build_eq_built hs', ?_, rfl, ?_, rfl⟩
  · rw [built_txFrame, built_txFrame, hp]
  · rw [built_txChk, built_txChk, hp]

/-! ### The frame table -/

/-- The frames of R163's table are those of the default CID table. -/
theorem frameTable_eq (k : Kind) (n : Fin 6) :
    (frameTable k)[n.val]?.map (fun f => ascii f ++ [0x0D#8]) =
      some (requestFrame cidTableDefault k (BitVec.ofNat 8 (n.val + 1))) := by
  cases k <;> revert n <;> decide +kernel

/-- Settles O6: addresses 1 to 6 are supported, and the frames written are the table's. -/
theorem buildProducesTheFrameTable : Obligations.BuildProducesTheFrameTable := by
  unfold Obligations.BuildProducesTheFrameTable
  intro s hc hmin hmax k n
  have hn : (BitVec.ofNat 8 (n.val + 1)).toNat = n.val + 1 := by
    rw [BitVec.toNat_ofNat]; omega
  have hs : Supported s (BitVec.ofNat 8 (n.val + 1)) := by
    rw [Supported, hmin, hmax, hn]
    exact ⟨Nat.le_add_left 1 n, n.isLt⟩
  refine ⟨_, exec_build_eq_built hs, ?_⟩
  rw [built_txFrame, hc, frameTable_eq]

/-! ### What the address changes -/

/-- Two frames that agree in a field leave TXBUF equal in that field. -/
theorem read_built_of_slice {s : State} {k : Kind} {a b : Byte} (j n : Nat) {i : Nat}
    (h : slice (requestFrame s.params.cidTable k b) j n = slice (requestFrame s.params.cidTable k a) j n)
    (hn : j + n ≤ 20) (hj : j ≤ i) (hi : i < j + n) :
    (s.built k b).txbuf.read i = (s.built k a).txbuf.read i := by
  rw [← readString_built s k b hn, ← readString_built s k a hn] at h
  obtain ⟨d, rfl⟩ := Nat.exists_eq_add_of_le hj
  have hd : d < n := by omega
  simpa [Memory.readString, hd] using congrArg (·[d]?) h

/-- The address enters TXBUF through the two ADR spellings and the checksum only (R162). -/
theorem read_built_other {s : State} {k : Kind} {a b : Byte} {i : Nat} (h : i ∉ [3, 4, 13, 14, 15, 16, 17, 18]) :
    (s.built k b).txbuf.read i = (s.built k a).txbuf.read i := by
  have fields : i < 1 ∨ (1 ≤ i ∧ i < 3) ∨ (5 ≤ i ∧ i < 9) ∨ (9 ≤ i ∧ i < 13) ∨ i = 19 ∨ 20 ≤ i := by
    simp only [List.mem_cons, List.not_mem_nil, or_false] at h
    omega
  obtain hsoi | ⟨hlo, hhi⟩ | ⟨hlo, hhi⟩ | ⟨hlo, hhi⟩ | rfl | hout := fields
  · exact read_built_of_slice 0 1 (by rw [slice_requestFrame_soi, slice_requestFrame_soi]) (by omega) (Nat.zero_le i) hsoi
  · exact read_built_of_slice 1 2 (by rw [slice_requestFrame_ver, slice_requestFrame_ver]) (by omega) hlo hhi
  · exact read_built_of_slice 5 4 (by rw [slice_requestFrame_cid, slice_requestFrame_cid]) (by omega) hlo hhi
  · exact read_built_of_slice 9 4 (by rw [slice_requestFrame_length, slice_requestFrame_length]) (by omega) hlo hhi
  · exact read_built_of_slice 19 1 (by rw [slice_requestFrame_eoi, slice_requestFrame_eoi]) (by omega) le_rfl (by omega)
  · rw [read_built_of_le _ _ _ hout, read_built_of_le _ _ _ hout]

/-- A byte up to 9 is spelled `0` and its digit (R10). -/
theorem hex2_of_le_nine {v : Byte} (h : v.toNat ≤ 9) : hex2 v = [0x30#8, 0x30#8 + v] := by
  revert v; decide +kernel

theorem adrOf_add_one (a : Byte) : adrOf (a + 1) = adrOf a + 1 := by
  unfold adrOf; bv_omega

/-- Both ADR spellings of TXBUF while ADR is at most 0x09 (R109, R110). -/
theorem read_built_adr {s : State} {k : Kind} {a : Byte} (h : (adrOf a).toNat ≤ 9) :
    (s.built k a).txbuf.read 3 = 0x30#8 ∧ (s.built k a).txbuf.read 4 = 0x30#8 + adrOf a ∧
    (s.built k a).txbuf.read 13 = 0x30#8 ∧ (s.built k a).txbuf.read 14 = 0x30#8 + adrOf a := by
  have adr : (s.built k a).txbuf.readString 3 2 = [0x30#8, 0x30#8 + adrOf a] := by
    rw [readString_built s k a (by omega), slice_requestFrame_adr, hex2_of_le_nine h]
  have info : (s.built k a).txbuf.readString 13 2 = [0x30#8, 0x30#8 + adrOf a] := by
    rw [readString_built s k a (by omega), slice_requestFrame_info, hex2_of_le_nine h]
  obtain ⟨h3, h4⟩ := List.cons_eq_cons.mp adr
  obtain ⟨h13, h14⟩ := List.cons_eq_cons.mp info
  exact ⟨h3, List.singleton_inj.mp h4, h13, List.singleton_inj.mp h14⟩

theorem byteSum_append (s t : List Byte) : byteSum (s ++ t) = byteSum s + byteSum t := by
  simp [byteSum]

theorem byteSum_hex2_of_le_nine {v : Byte} (h : v.toNat ≤ 9) : byteSum (hex2 v) = 0x60 + v.toNat := by
  revert v; decide +kernel

/-- ADR enters the byte sum of the body twice (R110). -/
theorem byteSum_requestBody (cids : PerKind CidPair) (k : Kind) (a : Byte) :
    byteSum (requestBody cids k a) =
      byteSum (requestVer k ++ cidChars (cids.get k) ++ [0x45#8, 0x30#8, 0x30#8, 0x32#8]) +
        2 * byteSum (hex2 (adrOf a)) := by
  simp only [requestBody, lengthChars_hex2, byteSum_append]
  omega

/-- While ADR stays at or below 0x09, the next address adds 2 to the byte sum (R162). -/
theorem byteSum_requestBody_add_one (cids : PerKind CidPair) (k : Kind) {a : Byte} (h : (adrOf a).toNat + 1 ≤ 9) :
    byteSum (requestBody cids k (a + 1)) = byteSum (requestBody cids k a) + 2 := by
  have hnext : (adrOf (a + 1)).toNat = (adrOf a).toNat + 1 := by
    rw [adrOf_add_one]; bv_omega
  rw [byteSum_requestBody, byteSum_requestBody, byteSum_hex2_of_le_nine (by omega), byteSum_hex2_of_le_nine (by omega),
    hnext]
  omega

/-- What is added to the byte sum is taken from the checksum (R140). -/
theorem checksum_eq_sub {s t : List Byte} {n : Nat} (h : byteSum t = byteSum s + n) :
    checksum t = checksum s - BitVec.ofNat 16 n := by
  rw [checksum_eq_neg, checksum_eq_neg, h, BitVec.ofNat_add]
  ring

/-- Settles O8: the frames' fields one by one; ADR's last digit counts up, and is summed twice. -/
theorem framesDependOnKindAndAddressOnlySo : Obligations.FramesDependOnKindAndAddressOnlySo := by
  unfold Obligations.FramesDependOnKindAndAddressOnlySo
  refine ⟨fun j k a s s' hs hs' hv hc => ?_, fun k a b s ha hb => ?_, fun k a s ha hb h => ?_⟩
  · refine ⟨_, _, exec_build_eq_built hs, exec_build_eq_built hs', ?_⟩
    rw [built_txFrame, built_txFrame, requestFrame_congr a hv hc]
  · exact ⟨_, _, exec_build_eq_built ha, exec_build_eq_built hb, fun i => read_built_other⟩
  · have hnext : (adrOf (a + 1)).toNat ≤ 9 := by
      rw [adrOf_add_one]; bv_omega
    obtain ⟨h3, h4, h13, h14⟩ := read_built_adr (s := s) (k := k) (a := a) (by omega)
    obtain ⟨n3, n4, n13, n14⟩ := read_built_adr (s := s) (k := k) hnext
    have sum := byteSum_requestBody_add_one s.params.cidTable k h
    refine ⟨_, _, exec_build_eq_built ha, exec_build_eq_built hb, fun i hi => ?_, ?_, ?_, ?_, checksum_eq_sub sum⟩
    · by_cases i3 : i = 3
      · rw [i3, h3, n3]
      · by_cases i13 : i = 13
        · rw [i13, h13, n13]
        · exact read_built_other (by simpa [i3, i13] using hi)
    · rw [h4, n4, adrOf_add_one, BitVec.add_assoc]
    · rw [h14, n14, adrOf_add_one, BitVec.add_assoc]
    · rw [built_body, built_body, sum]

end Sys2Proof.Machine
end

section
/-! The ends of VALIDATE that 42_validate.md R180 to R187 speak of: the state after the checksum step, which every end behind the
shape check starts from, one equation per end, and two responses that differ in their CHECKSUM characters. -/

namespace Sys2Proof.Machine

/-! ### The checksum step -/

/-- The state that VALIDATE's length check starts from: results cleared, the response's checksum recorded (R180). -/
def State.checksummed (s : State) : State :=
  recordChecksum s.rxFrame (clearResults s)

theorem checksummed_frame (s : State) :
    s.checksummed = { s with valstat := s.checksummed.valstat, rtn := 0, rxChk := s.checksummed.rxChk } :=
  recordChecksum_frame s.rxFrame (clearResults s)

@[simp] theorem checksummed_params (s : State) : s.checksummed.params = s.params :=
  recordChecksum_params s.rxFrame (clearResults s)

@[simp] theorem checksummed_valOk (s : State) : s.checksummed.valOk = false :=
  recordChecksum_valOk s.rxFrame s

theorem checksummed_of_long {s : State} (h : 6 ≤ s.rxLen.toNat) :
    s.checksummed =
      { clearResults s with
        rxChk := checksum (checkedChars s.rxFrame), valstat := valstatWord false true (checksumMatches s.rxFrame) 0 } :=
  recordChecksum_of_long (clearResults s) (by simpa using h)

/-! ### The ends of VALIDATE -/

theorem execValidate_of_malformed {k : Kind} {s : State} (ho : s.rxOverflowed = false) (ht : s.rxTimedOut = false)
    (hl : s.rxLen.toNat ≤ s.params.rxMax.toNat) (hs : ¬ ResponseShape s) :
    execValidate k s = .next { clearResults s with status := statusWord .malformed 0 } := by
  rw [← shapeOk_rxFrame, Bool.not_eq_true] at hs
  rw [execValidate_of_open ho ht hl, validateFrame_of_malformed hs]

theorem execValidate_of_short {k : Kind} {s : State} (ho : s.rxOverflowed = false) (ht : s.rxTimedOut = false)
    (hl : s.rxLen.toNat ≤ s.params.rxMax.toNat) (hs : ResponseShape s)
    (hm : s.rxLen.toNat < (s.params.minLen.get k).toNat) :
    execValidate k s = .next { s.checksummed with status := statusWord .tooShort (s.params.minLen.get k) } := by
  rw [execValidate_of_open ho ht hl, validateFrame_of_short ((shapeOk_rxFrame s).mpr hs) (by simpa using hm)]
  rfl

theorem execValidate_of_noCode {k : Kind} {s : State} (ho : s.rxOverflowed = false) (ht : s.rxTimedOut = false)
    (hl : s.rxLen.toNat ≤ s.params.rxMax.toNat) (hs : ResponseShape s)
    (hm : (s.params.minLen.get k).toNat ≤ s.rxLen.toNat) (h10 : s.rxLen.toNat < 10) :
    execValidate k s = .next { s.checksummed with status := statusWord .unknownData 0 } := by
  rw [execValidate_of_open ho ht hl, validateFrame_of_noCode ((shapeOk_rxFrame s).mpr hs) (by simpa using hm)
    (returnCode_of_short (by simpa using h10))]
  rfl

/-- A response that reaches step 3 is judged by its characters 7 and 8 (R183). -/
theorem execValidate_of_code {k : Kind} {s : State} (h : ReachesReturnCode k s) :
    execValidate k s = classify k ⟨s.rxbuf.read 7, s.rxbuf.read 8⟩ s.checksummed := by
  obtain ⟨hl, ho, ht, hs, hm, h10⟩ := h
  rw [execValidate_of_open ho ht hl, validateFrame_of_code ((shapeOk_rxFrame s).mpr hs) (by simpa using hm)
    (returnCode_rxFrame h10)]
  rfl

theorem execValidate_of_normal {k : Kind} {s : State} (h : ReachesReturnCode k s) (h7 : s.rxbuf.read 7 = 0x30#8)
    (h8 : s.rxbuf.read 8 = 0x30#8) :
    execValidate k s =
      .next { s.checksummed with
        rtn := rtnWord ReturnCode.normal,
        valstat := valstatWord true s.checksummed.chkValid s.checksummed.chkMatch k.number, status := statusWord .ok 0 } := by
  rw [execValidate_of_code h, h7, h8]
  exact classify_of_normal

theorem returnCode_ne_normal {a b : Byte} (h : ¬ (a = 0x30#8 ∧ b = 0x30#8)) : (⟨a, b⟩ : ReturnCode) ≠ ReturnCode.normal := by
  simpa [ReturnCode.normal] using h

theorem execValidate_of_other {k : Kind} {s : State} (h : ReachesReturnCode k s)
    (hn : ¬ (s.rxbuf.read 7 = 0x30#8 ∧ s.rxbuf.read 8 = 0x30#8)) :
    execValidate k s =
      .next { s.checksummed with
        rtn := rtnWord ⟨s.rxbuf.read 7, s.rxbuf.read 8⟩,
        status := statusWord
          (if ⟨s.rxbuf.read 7, s.rxbuf.read 8⟩ ∈ s.params.rtnKnown then .deviceReported else .unknownData) 0 } := by
  rw [execValidate_of_code h, ← checksummed_params s]
  exact classify_of_other (returnCode_ne_normal hn)

/-- Settles O20: one equation per flag, and the one of the failed shape check. -/
theorem validateChecksFlagsThenShape : Obligations.ValidateChecksFlagsThenShape := by
  unfold Obligations.ValidateChecksFlagsThenShape
  intro k s
  exact ⟨execValidate_of_overflow, execValidate_of_timeout, execValidate_of_malformed⟩

/-- Settles O21: the two ends before step 3, both on the state after the checksum step. -/
theorem validateChecksLengthBeforeReturnCode : Obligations.ValidateChecksLengthBeforeReturnCode := by
  unfold Obligations.ValidateChecksLengthBeforeReturnCode
  intro k s ho ht hl hs
  refine ⟨fun hm => ⟨_, execValidate_of_short ho ht hl hs hm, ?_, checksummed_valOk s⟩,
    fun hm h10 => ⟨_, execValidate_of_noCode ho ht hl hs hm h10, ?_, checksummed_valOk s⟩⟩
  · rw [checksummed_frame]; rfl
  · rw [checksummed_frame]; rfl

/-- Settles O22: the end with return code "00". -/
theorem validateAcceptsNormalReturnCode : Obligations.ValidateAcceptsNormalReturnCode := by
  unfold Obligations.ValidateAcceptsNormalReturnCode
  intro k s h h7 h8
  refine ⟨_, execValidate_of_normal h h7 h8, ?_, ?_, ?_, valstatWord_reserved ..⟩
  · rw [checksummed_frame]; rfl
  · exact valstatWord_ok ..
  · exact valstatWord_kind ..

/-- Settles O24: the end with any other return code, its STATUS word split by RTN_KNOWN. -/
theorem validateClassifiesOtherReturnCodes : Obligations.ValidateClassifiesOtherReturnCodes := by
  unfold Obligations.ValidateClassifiesOtherReturnCodes
  intro k s h hn
  refine ⟨_, execValidate_of_other h hn, ?_, checksummed_valOk s⟩
  rw [checksummed_frame, apply_ite (statusWord · 0)]
  rfl

/-! ### The report of a known code -/

/-- RTN holds the two characters of the return code (R42). -/
theorem returnCode_of_rtn {t : State} {r : ReturnCode} (h : t.rtn = rtnWord r) : t.returnCode = r := by
  obtain ⟨a, b⟩ := r
  simp only [State.returnCode, h, rtnWord, ReturnCode.mk.injEq]
  exact ⟨BitVec.extractLsb'_append_eq_left, BitVec.extractLsb'_append_eq_right⟩

theorem deviceReportText_of_reported (texts : RtnTexts) {t : State} {r : ReturnCode}
    (hc : t.code = codeBits .deviceReported) (hr : t.rtn = rtnWord r) : deviceReportText texts t = rtnText texts r := by
  rw [deviceReportText, if_pos hc, returnCode_of_rtn hr]

theorem execValidate_of_known {k : Kind} {s : State} (h : ReachesReturnCode k s)
    (hk : ⟨s.rxbuf.read 7, s.rxbuf.read 8⟩ ∈ s.params.rtnKnown)
    (hn : ¬ (s.rxbuf.read 7 = 0x30#8 ∧ s.rxbuf.read 8 = 0x30#8)) :
    ∃ t, execValidate k s = .next t ∧ t.code = codeBits .deviceReported ∧
      t.rtn = rtnWord ⟨s.rxbuf.read 7, s.rxbuf.read 8⟩ := by
  refine ⟨_, execValidate_of_other h hn, ?_, rfl⟩
  rw [State.code, if_pos hk]
  exact statusWord_code .deviceReported 0

/-- Settles O23: a known code other than "00" ends DEVICE_REPORTED with its characters in RTN, from which the host's text is
looked up. -/
theorem knownReturnCodeIsReportedWithItsText : Obligations.KnownReturnCodeIsReportedWithItsText := by
  unfold Obligations.KnownReturnCodeIsReportedWithItsText
  refine ⟨fun texts k s h hk hn => ?_, fun texts s h => if_neg h, by decide⟩
  obtain ⟨t, run, hcode, hrtn⟩ := execValidate_of_known h hk hn
  have text := deviceReportText_of_reported texts hcode hrtn
  refine ⟨t, run, hcode, text, fun h7 h8 => ?_⟩
  rw [text, h7, h8]
  exact if_pos rfl

/-! ### Responses that differ in their CHECKSUM characters -/

/-- Two ends of VALIDATE agree in all its results but CHK_VALID and CHK_MATCH (R185). -/
def SameVerdict (t t' : State) : Prop :=
  t'.status = t.status ∧ t'.rtn = t.rtn ∧ t'.rxChk = t.rxChk ∧ t'.valOk = t.valOk ∧ t'.valKind = t.valKind

/-- Outside `RXBUF[L-5..L-2]` the buffer `m` holds the response of `s` (R185). -/
def State.AgreesOutsideChecksum (s : State) (m : Memory) : Prop :=
  ∀ i < s.rxLen.toNat, i + 5 < s.rxLen.toNat ∨ i + 1 = s.rxLen.toNat → m.read i = s.rxbuf.read i

/-- The shape check tells no two shape characters apart (R181). -/
theorem responseShape_congr {s : State} {m : Memory} (h14 : 14 ≤ s.rxLen.toNat) (hm : s.AgreesOutsideChecksum m)
    (hc : ∀ i, s.rxLen.toNat ≤ i + 5 → i + 2 ≤ s.rxLen.toNat →
      isShapeChar (m.read i) = true ∧ isShapeChar (s.rxbuf.read i) = true) :
    ResponseShape { s with rxbuf := m } ↔ ResponseShape s := by
  have first : m.read 0 = s.rxbuf.read 0 := hm 0 (by omega) (by omega)
  have last : m.read (s.rxLen.toNat - 1) = s.rxbuf.read (s.rxLen.toNat - 1) := hm _ (by omega) (by omega)
  have front (i : Nat) (hi : i < s.rxLen.toNat - 1) : isShapeChar (m.read i) = isShapeChar (s.rxbuf.read i) := by
    by_cases h5 : i + 5 < s.rxLen.toNat
    · rw [hm i (by omega) (.inl h5)]
    · obtain ⟨h1, h2⟩ := hc i (by omega) (by omega)
      rw [h1, h2]
  simp only [ResponseShape, ← isShapeChar_iff, first, last]
  refine and_congr_right fun _ => and_congr_right fun _ => and_congr_right fun _ => ?_
  exact forall₂_congr fun i hi => by rw [front i hi]

/-- The checksum's input ends before the CHECKSUM characters (R143, R185). -/
theorem checkedChars_congr {s : State} {m : Memory} (h6 : 6 ≤ s.rxLen.toNat) (hm : s.AgreesOutsideChecksum m) :
    checkedChars (State.rxFrame { s with rxbuf := m }) = checkedChars s.rxFrame := by
  rw [checkedChars_rxFrame h6, checkedChars_rxFrame (s := { s with rxbuf := m }) h6]
  refine Memory.readString_congr fun j (hj : j < s.rxLen.toNat - 6) => ?_
  exact hm _ (by omega) (by omega)

/-- The received CHECKSUM characters enter CHK_MATCH only (R185). -/
theorem sameVerdict_checksummed {s : State} {m : Memory} (h6 : 6 ≤ s.rxLen.toNat) (hm : s.AgreesOutsideChecksum m) :
    SameVerdict s.checksummed (State.checksummed { s with rxbuf := m }) := by
  rw [checksummed_of_long h6, checksummed_of_long (s := { s with rxbuf := m }) h6, checkedChars_congr h6 hm]
  refine ⟨rfl, rfl, rfl, ?_, ?_⟩
  · simp [State.valOk]
  · simp [State.valKind]

/-- Step 3 reads neither CHK_VALID nor CHK_MATCH but to keep them (R183, R184). -/
theorem classify_sameVerdict (k : Kind) (r : ReturnCode) {c c' : State} (hp : c'.params = c.params)
    (h : SameVerdict c c') :
    ∃ t t', classify k r c = .next t ∧ classify k r c' = .next t' ∧ SameVerdict t t' := by
  obtain ⟨-, -, hchk, hok, hkind⟩ := h
  by_cases hr : r = ReturnCode.normal
  · subst hr
    refine ⟨_, _, classify_of_normal, classify_of_normal, rfl, rfl, hchk, ?_, ?_⟩
    · simp [State.valOk]
    · simp [State.valKind]
  · refine ⟨_, _, classify_of_other hr, classify_of_other hr, ?_, rfl, hchk, hok, hkind⟩
    rw [hp]

/-- Settles O26: the two runs take the same end, since flags, shape, length and return code agree; from the state after the
checksum step on, they differ in CHK_MATCH only. -/
theorem checksumNeverGatesTheVerdict : Obligations.ChecksumNeverGatesTheVerdict := by
  unfold Obligations.ChecksumNeverGatesTheVerdict
  intro k s m h14 hl hm hc
  have shape := responseShape_congr h14 hm hc
  have checked := sameVerdict_checksummed (by omega) hm
  cases ho : s.rxOverflowed with
  | true => exact ⟨_, _, execValidate_of_overflow ho, execValidate_of_overflow ho, rfl, rfl, rfl, rfl, rfl⟩
  | false =>
  cases ht : s.rxTimedOut with
  | true => exact ⟨_, _, execValidate_of_timeout ho ht, execValidate_of_timeout ho ht, rfl, rfl, rfl, rfl, rfl⟩
  | false =>
  by_cases hs : ResponseShape s
  · have hs' := shape.mpr hs
    by_cases hmin : s.rxLen.toNat < (s.params.minLen.get k).toNat
    · obtain ⟨-, verdict⟩ := checked
      exact ⟨_, _, execValidate_of_short ho ht hl hs hmin, execValidate_of_short ho ht hl hs' hmin, rfl, verdict⟩
    · have h10 : 10 ≤ s.rxLen.toNat := by omega
      have run := execValidate_of_code (k := k) ⟨hl, ho, ht, hs, Nat.not_lt.mp hmin, h10⟩
      have run' := execValidate_of_code (k := k) (s := { s with rxbuf := m })
        ⟨hl, ho, ht, hs', Nat.not_lt.mp hmin, h10⟩
      obtain ⟨t, t', h, h', verdict⟩ := classify_sameVerdict k ⟨s.rxbuf.read 7, s.rxbuf.read 8⟩
        (by rw [checksummed_params, checksummed_params]) checked
      refine ⟨t, t', run.trans h, run'.trans ?_, verdict⟩
      rw [hm 7 (by omega) (by omega), hm 8 (by omega) (by omega)]
      exact h'
  · have hs' := mt shape.mp hs
    exact ⟨_, _, execValidate_of_malformed ho ht hl hs, execValidate_of_malformed ho ht hl hs', rfl, rfl, rfl, rfl, rfl⟩

/-! ### OK and DONE -/

/-- Settles O27: VALIDATE sets OK on a complete response only, the two resets clear OK, and no other instruction that keeps OK
takes a complete response away. -/
theorem okOnlyWhenDone : Obligations.OkOnlyWhenDone := by
  unfold Obligations.OkOnlyWhenDone
  intro i s t hs hold h hok
  by_cases hv : ∃ k, i = .validate k
  · obtain ⟨k, rfl⟩ := hv
    exact (execValidate_valstatInv hs h).ok_done hok
  by_cases hr : i = .rxReset
  · subst hr; cases h; exact (valstatInv_of_zero rfl).ok_done hok
  by_cases h0 : i = .softReset
  · subst h0; cases h; exact (valstatInv_of_zero rfl).ok_done hok
  · obtain ⟨hkeep, -⟩ := resultsAreWrittenByTheirCommandsOnly i s t h h0
    obtain ⟨-, -, hval⟩ := hkeep (not_exists.mp hv)
    have hok' : s.valOk = true := by rwa [State.valOk, hval hr] at hok
    exact (exec_keeps_done hr h0 h (hold hok')).1

end Sys2Proof.Machine
end

section
/-! Field reads (43_decode.md R212, R214): a field of hex digits has the value that R10 writes, and the failure of a hex row is
its overrun or its first bad digit. -/

namespace Sys2Proof.Machine

/-! ### Values -/

theorem Memory.readString_succ (m : Memory) (i w : Nat) :
    m.readString i (w + 1) = m.read i :: m.readString (i + 1) w := by
  simp [Memory.readString, List.range_succ_eq_map, Function.comp_def, Nat.add_assoc, Nat.add_comm 1]

/-- Digits read on after `acc` are `acc` shifted up by them and their big-endian sum (R10, R212). -/
theorem hexvalFrom_readString {m : Memory} {off w acc : Nat} {d : Nat → Nat}
    (h : ∀ i < w, hexdig (m.read (off + i)) = some (d i)) :
    hexvalFrom acc (m.readString off w) = some (acc * 16 ^ w + ∑ i ∈ Finset.range w, d i * 16 ^ (w - 1 - i)) := by
  induction w generalizing off acc d with
  | zero => simp [Memory.readString]
  | succ w ih =>
    have head : hexdig (m.read off) = some (d 0) := h 0 (by omega)
    have tail : ∀ i < w, hexdig (m.read (off + 1 + i)) = some (d (i + 1)) := fun i hi => by
      rw [Nat.add_assoc, Nat.add_comm 1]
      exact h (i + 1) (by omega)
    have exponent (i : Nat) : w + 1 - 1 - (i + 1) = w - 1 - i := by omega
    rw [Memory.readString_succ, hexvalFrom_cons, head, Option.bind_some, ih tail, Finset.sum_range_succ']
    simp only [exponent]
    congr 1
    simp
    ring

theorem hexField_of_digits {s : State} {off w : Nat} {d : Nat → Nat} (hle : off + w ≤ s.rxLen.toNat)
    (h : ∀ i < w, hexdig (s.rxbuf.read (off + i)) = some (d i)) :
    hexField s off w = some (∑ i ∈ Finset.range w, d i * 16 ^ (w - 1 - i)) := by
  rw [hexField, memRead_of_le hle, Option.bind_some, hexval, hexvalFrom_readString h, Nat.zero_mul, Nat.zero_add]

/-- A field of one character has that digit's value (R222). -/
theorem hexField_one {s : State} {off d : Nat} (hle : off + 1 ≤ s.rxLen.toNat) (h : hexdig (s.rxbuf.read off) = some d) :
    hexField s off 1 = some d := by
  simpa using hexField_of_digits (d := fun _ => d) hle fun i hi => by rw [Nat.lt_one_iff.mp hi]; exact h

/-! ### Failures -/

theorem hexRow_failure_of_lt {s : State} {off w : Nat} (h : s.rxLen.toNat < off + w) :
    (FieldRow.hex off w).failure s = some (overrun off) :=
  if_pos h

theorem hexRow_failure_of_le {s : State} {off w : Nat} (h : off + w ≤ s.rxLen.toNat) :
    (FieldRow.hex off w).failure s = firstBadDigit s off w :=
  if_neg (Nat.not_lt.mpr h)

theorem firstBadDigit_of_first {s : State} {off w i : Nat} (hi : i < w)
    (before : ∀ j < i, (hexdig (s.rxbuf.read (off + j))).isSome = true) (bad : hexdig (s.rxbuf.read (off + i)) = none) :
    firstBadDigit s off w = some ⟨.badHexDigit, BitVec.ofNat 16 (off + i)⟩ := by
  have first : ((List.range w).find? fun i => (hexdig (s.rxbuf.read (off + i))).isNone) = some i := by
    simpa [List.find?_range_eq_some, bad, hi] using before
  rw [firstBadDigit, first, Option.map_some]

theorem readHex_of_failure {s : State} {off w : Nat} {e : Raised} (h : (FieldRow.hex off w).failure s = some e) :
    readHex s off w = .error e :=
  failureOf_eq_some.mp ((failureOf_readHex s off w).trans h)

/-- Settles O28: the two failures are those of a hex row, and the value is the digits' sum. -/
theorem readHexChecksThenReads : Obligations.ReadHexChecksThenReads := by
  unfold Obligations.ReadHexChecksThenReads
  intro s off w
  refine ⟨fun h => ?_, fun i hi hle before bad => ?_, fun d hle h => ?_⟩
  · exact readHex_of_failure (hexRow_failure_of_lt h)
  · exact readHex_of_failure ((hexRow_failure_of_le hle).trans (firstBadDigit_of_first hi before bad))
  · exact readHex_ok.mpr (hexField_of_digits hle h)

end Sys2Proof.Machine
end

section
/-! How DECODE of any kind ends (43_decode.md R210, R215): without its validation, with its table's first failure, or OK. -/

namespace Sys2Proof.Machine

/-- Each DECODE instruction is `decodeGroup` of a read that fails as the kind's offset table does. -/
theorem exec_decodeInstr_eq_decodeGroup (k : Kind) :
    ∃ (α : Type) (read : State → Except Raised α) (commit : α → State → State),
      exec (decodeInstr k) = decodeGroup k read commit ∧ ∀ s, failureOf (read s) = firstFailure s k := by
  cases k
  case serialNumber => exact ⟨_, readSerialNumber, _, rfl, failureOf_readSerialNumber⟩
  case manufacturerInfo => exact ⟨_, readManufacturerInfo, _, rfl, failureOf_readManufacturerInfo⟩
  case protocolVersion => exact ⟨_, readProtocolVersion, _, rfl, failureOf_readProtocolVersion⟩
  case softwareVersion => exact ⟨_, readSoftwareVersion, _, rfl, failureOf_readSoftwareVersion⟩
  case systemParameters => exact ⟨_, readSystemParameters, _, rfl, failureOf_readSystemParameters⟩
  case alarmInfo => exact ⟨_, readAlarmInfo, _, rfl, failureOf_readAlarmInfo⟩
  case chargeManagementInfo => exact ⟨_, readChargeManagementInfo, _, rfl, failureOf_readChargeManagementInfo⟩
  case analogValue => exact ⟨_, readAnalogValue, _, rfl, failureOf_readAnalogValue⟩

theorem exec_decodeInstr_of_failure {k : Kind} {s : State} {e : Raised} (h : DecodeReady k s)
    (hf : firstFailure s k = some e) :
    exec (decodeInstr k) s =
      .next { s with decValid := clearDecoded s.decValid k, status := statusWord e.code e.aux } := by
  obtain ⟨hv, hk, hl⟩ := h
  obtain ⟨_, read, commit, hexec, hfail⟩ := exec_decodeInstr_eq_decodeGroup k
  rw [hexec]
  exact decodeGroup_of_error hv hk hl (failureOf_eq_some.mp ((hfail s).trans hf))

theorem exec_decodeInstr_of_no_failure {k : Kind} {s : State} (h : DecodeReady k s) (hf : firstFailure s k = none) :
    ∃ t, exec (decodeInstr k) s = .next t ∧ t.status = statusWord .ok 0 ∧ t.decoded k = true := by
  obtain ⟨hv, hk, hl⟩ := h
  obtain ⟨_, read, commit, hexec, hfail⟩ := exec_decodeInstr_eq_decodeGroup k
  obtain ⟨g, hg⟩ := failureOf_eq_none.mp ((hfail s).trans hf)
  rw [hexec]
  exact ⟨_, decodeGroup_of_ok hv hk hl hg, rfl, by simp [State.decoded, setDecoded_bit]⟩

/-- Settles O38: DECODE answers its read's failure, which is that of the table's first failing row. -/
theorem firstFailingFieldIsReported : Obligations.FirstFailingFieldIsReported := by
  unfold Obligations.FirstFailingFieldIsReported
  intro k s h
  exact ⟨fun _ hf => exec_decodeInstr_of_failure h hf, exec_decodeInstr_of_no_failure h⟩

/-- Settles O29: DECODE checks the validation before it reads a field. -/
theorem decodeNeedsItsValidation : Obligations.DecodeNeedsItsValidation := by
  unfold Obligations.DecodeNeedsItsValidation
  intro k s h
  exact exec_decodeInstr_of_unvalidated h

/-- STATUS.CODE of a field failure, UNSUPPORTED_VARIANT for AnalogValue only (R41, R311). -/
theorem codeBits_of_decodeFailure {k : Kind} {e : Raised} (h : DecodeFailure k e) :
    (codeBits e.code = 0x7#4 ∧ k = .analogValue) ∨ codeBits e.code = 0xA#4 ∨ codeBits e.code = 0xB#4 := by
  rcases h with (he | he) | ⟨hk, _, -, -, rfl⟩
  · exact .inr (.inl (congrArg codeBits he))
  · exact .inr (.inr (congrArg codeBits he))
  · exact .inl ⟨rfl, hk⟩

/-- Settles O31: both failing ends of DECODE clear the bit and write STATUS only. -/
theorem failedDecodeKeepsEveryField : Obligations.FailedDecodeKeepsEveryField := by
  unfold Obligations.FailedDecodeKeepsEveryField
  intro k s t h hc
  rcases exec_decodeInstr_cases h with ⟨-, rfl⟩ | ⟨-, -, -, ⟨e, he, -, rfl⟩ | hd⟩
  · exact ⟨rfl, by simp [State.code, codeBits]⟩
  · refine ⟨rfl, ?_⟩
    rcases codeBits_of_decodeFailure he with ⟨hb, hk⟩ | hb | hb
    · simp [State.code, hb, hk]
    · simp [State.code, hb]
    · simp [State.code, hb]
  · have hs : t.status = statusWord .ok 0 := congrArg State.status hd.frame
    exact absurd (by simp [State.code, hs, codeBits]) hc

end Sys2Proof.Machine
end

section
/-! What DECODE of each kind stores (43_decode.md R220–R227): the group its fields spell, or the failure of one of them. -/

namespace Sys2Proof.Machine

theorem decodeGroup_of_read {α : Type} {k : Kind} {read : State → Except Raised α} {commit : α → State → State}
    {s : State} {g : α} (h : DecodeReady k s) (hg : read s = .ok g) :
    decodeGroup k read commit s =
      .next { commit g s with decValid := setDecoded s.decValid k, status := statusWord .ok 0 } := by
  obtain ⟨hv, hk, hl⟩ := h
  exact decodeGroup_of_ok hv hk hl hg

/-! ### SerialNumber -/

theorem toList_ofFn_range {α : Type} (n : Nat) (f : Nat → α) :
    (Vector.ofFn fun i : Fin n => f i).toList = (List.range n).map f := by
  apply List.ext_getElem <;> simp

theorem readSerialNumber_of_fields {s : State} {v : Nat → Nat} (hle : 15 + s.params.snChars ≤ s.rxLen.toNat)
    (h : ∀ j < s.params.snChars / 2, hexField s (15 + 2 * j) 2 = some (v j)) :
    readSerialNumber s = .ok { snByte := (List.range (s.params.snChars / 2)).map fun j => BitVec.ofNat 8 (v j) } := by
  rw [readSerialNumber, readBytes_of_hexField (by omega) h, ← toList_ofFn_range]
  rfl

/-- Settles O32: a field of SN_CHARS characters is SN_CHARS/2 bytes of two digits. -/
theorem decodeSerialNumberFields : Obligations.DecodeSerialNumberFields := by
  unfold Obligations.DecodeSerialNumberFields
  intro s v h hle hv
  show execDecodeSerialNumber s = _
  exact decodeGroup_of_read h (readSerialNumber_of_fields hle hv)

theorem firstFailure_serialNumber_of_short {s : State} (hp : s.params.Legal)
    (h : s.rxLen.toNat < 15 + s.params.snChars) : firstFailure s .serialNumber = some (overrun 15) := by
  have even : 2 * (s.params.snChars / 2) = s.params.snChars := by
    rcases hp.snChars_reading with hn | hn <;> rw [hn]
  simp [firstFailure, offsetTable, FieldRow.failure, even, h]

/-- Settles O33: the one row of SerialNumber is checked whole before any character. -/
theorem shortSerialNumberOverruns : Obligations.ShortSerialNumberOverruns := by
  unfold Obligations.ShortSerialNumberOverruns
  intro s h hp hs
  exact exec_decodeInstr_of_failure h (firstFailure_serialNumber_of_short hp hs)

/-! ### ManufacturerInfo -/

theorem readManufacturerInfo_of_fields {s : State} {ty ma : Nat → Nat} {major minor : Nat}
    (hty : ∀ j < 10, hexField s (13 + 2 * j) 2 = some (ty j)) (hmajor : hexField s 33 2 = some major)
    (hminor : hexField s 35 2 = some minor) (hma : ∀ j < 20, hexField s (37 + 2 * j) 2 = some (ma j)) :
    readManufacturerInfo s = .ok
      { miType := Vector.ofFn fun j => BitVec.ofNat 8 (ty j), miFwMajor := BitVec.ofNat 8 major,
        miFwMinor := BitVec.ofNat 8 minor, miManuf := Vector.ofFn fun j => BitVec.ofNat 8 (ma j) } := by
  have last : 75 + 2 ≤ s.rxLen.toNat := hexField_le (hma 19 (by decide))
  rw [readManufacturerInfo, readBytes_of_hexField (by omega) hty, readReg_of_hexField hmajor,
    readReg_of_hexField hminor, readBytes_of_hexField (by omega) hma]
  rfl

/-- Settles O34: each of the four fields reads as it is spelled. -/
theorem decodeManufacturerInfoFields : Obligations.DecodeManufacturerInfoFields := by
  unfold Obligations.DecodeManufacturerInfoFields
  intro s ty ma major minor h hty hmajor hminor hma
  show execDecodeManufacturerInfo s = _
  exact decodeGroup_of_read h (readManufacturerInfo_of_fields hty hmajor hminor hma)

/-! ### ProtocolVersion -/

theorem readProtocolVersion_of_fields {s : State} {major minor : Nat} (hmajor : hexField s 1 1 = some major)
    (hminor : hexField s 2 1 = some minor) :
    readProtocolVersion s = .ok { pvMajor := BitVec.ofNat 4 major, pvMinor := BitVec.ofNat 4 minor } := by
  rw [readProtocolVersion, readReg_of_hexField hmajor, readReg_of_hexField hminor]
  rfl

/-- The failure of a one-character hex row inside the frame. -/
theorem digitRow_failure {s : State} {off : Nat} (hle : off + 1 ≤ s.rxLen.toNat) :
    (FieldRow.hex off 1).failure s =
      if (hexdig (s.rxbuf.read off)).isNone then some ⟨.badHexDigit, BitVec.ofNat 16 off⟩ else none := by
  rw [hexRow_failure_of_le hle]
  cases hd : hexdig (s.rxbuf.read off) <;> simp [firstBadDigit, hd]

theorem firstFailure_protocolVersion {s : State} (h3 : 3 ≤ s.rxLen.toNat) :
    firstFailure s .protocolVersion =
      if (hexdig (s.rxbuf.read 1)).isNone then some ⟨.badHexDigit, 1⟩
      else if (hexdig (s.rxbuf.read 2)).isNone then some ⟨.badHexDigit, 2⟩ else none := by
  rw [firstFailure, offsetTable, findSome?_cons_or, findSome?_cons_or, digitRow_failure (by omega),
    digitRow_failure (by omega), List.findSome?_nil, Option.or_none]
  cases hexdig (s.rxbuf.read 1) <;> rfl

/-- Settles O35: the table's rows of ProtocolVersion are the two digits of VER. -/
theorem decodeProtocolVersionFields : Obligations.DecodeProtocolVersionFields := by
  unfold Obligations.DecodeProtocolVersionFields
  refine ⟨by decide, fun s h h3 => ⟨fun major minor hmajor hminor => ?_, fun bad => ?_, fun good bad => ?_⟩⟩
  · show execDecodeProtocolVersion s = _
    exact decodeGroup_of_read h
      (readProtocolVersion_of_fields (hexField_one (by omega) hmajor) (hexField_one (by omega) hminor))
  · exact exec_decodeInstr_of_failure h (by rw [firstFailure_protocolVersion h3, bad]; rfl)
  · obtain ⟨major, hmajor⟩ := Option.isSome_iff_exists.mp good
    exact exec_decodeInstr_of_failure h (by rw [firstFailure_protocolVersion h3, hmajor, bad]; rfl)

/-! ### SoftwareVersion -/

theorem readSoftwareVersion_of_fields {s : State} {a b c d e : Nat} (ha : hexField s 15 2 = some a)
    (hb : hexField s 17 2 = some b) (hc : hexField s 19 2 = some c) (hd : hexField s 21 2 = some d)
    (he : hexField s 23 2 = some e) :
    readSoftwareVersion s = .ok
      { swMfgA := BitVec.ofNat 8 a, swMfgB := BitVec.ofNat 8 b, swMlA := BitVec.ofNat 8 c,
        swMlB := BitVec.ofNat 8 d, swMlC := BitVec.ofNat 8 e } := by
  rw [readSoftwareVersion, readReg_of_hexField ha, readReg_of_hexField hb, readReg_of_hexField hc,
    readReg_of_hexField hd, readReg_of_hexField he]
  rfl

/-- Settles O36: each of the five fields reads as it is spelled. -/
theorem decodeSoftwareVersionFields : Obligations.DecodeSoftwareVersionFields := by
  unfold Obligations.DecodeSoftwareVersionFields
  intro s a b c d e h ha hb hc hd he
  show execDecodeSoftwareVersion s = _
  exact decodeGroup_of_read h (readSoftwareVersion_of_fields ha hb hc hd he)

/-! ### SystemParameters -/

theorem readSystemParameters_of_fields {s : State} {v : Nat → Nat}
    (h : ∀ i < 11, hexField s (15 + 4 * i) 4 = some (v i)) :
    readSystemParameters s = .ok { spRaw := Vector.ofFn fun i => BitVec.ofNat 16 (v i) } := by
  rw [readSystemParameters, readVec_of_ok fun i hi => readReg_of_hexField (h i hi)]
  rfl

/-- Settles O37: each of the eleven fields reads as it is spelled. -/
theorem decodeSystemParametersFields : Obligations.DecodeSystemParametersFields := by
  unfold Obligations.DecodeSystemParametersFields
  intro s v h hv
  show execDecodeSystemParameters s = _
  exact decodeGroup_of_read h (readSystemParameters_of_fields hv)

/-! ### AlarmInfo -/

theorem readAlarmInfo_of_fields {s : State} {c : Nat} {allZero : Bool} (h77 : 77 ≤ s.rxLen.toNat)
    (hc : hexField s 17 2 = some c) (hz : allZero = true ↔ AlarmRangesZero s) :
    readAlarmInfo s = .ok { alCellCount := BitVec.ofNat 8 c, alOk := allZero } := by
  have ranges : allZero = decide (AlarmRangesZero s) := by simp [← hz]
  rw [readAlarmInfo, readReg_of_hexField hc, zeroRun_of_le (by omega), zeroRun_of_le (by omega),
    zeroRun_of_le (by omega), zeroRun_of_le (by omega), ranges]
  simp only [Bool.decide_and, ← Bool.and_assoc]
  rfl

/-- Settles O39: AL_OK is the conjunction of the four zero runs. -/
theorem decodeAlarmInfoFields : Obligations.DecodeAlarmInfoFields := by
  unfold Obligations.DecodeAlarmInfoFields
  intro s c allZero h h77 hc hz
  show execDecodeAlarmInfo s = _
  exact decodeGroup_of_read h (readAlarmInfo_of_fields h77 hc hz)

/-! ### ChargeManagementInfo -/

theorem readChargeManagementInfo_of_fields {s : State} {v1 v2 ichg idis st : Nat} (h1 : hexField s 15 4 = some v1)
    (h2 : hexField s 19 4 = some v2) (hichg : hexField s 23 4 = some ichg) (hidis : hexField s 27 4 = some idis)
    (hst : hexField s 31 2 = some st) :
    readChargeManagementInfo s = .ok
      { cmVlim1 := BitVec.ofNat 16 v1, cmVlim2 := BitVec.ofNat 16 v2, cmIchg := BitVec.ofNat 16 ichg,
        cmIdis := BitVec.ofNat 16 idis, cmStatus := BitVec.ofNat 8 st } := by
  rw [readChargeManagementInfo, readReg_of_hexField h1, readReg_of_hexField h2, readReg_of_hexField hichg,
    readReg_of_hexField hidis, readReg_of_hexField hst]
  rfl

/-- Settles O40: each of the five fields reads as it is spelled. -/
theorem decodeChargeManagementInfoFields : Obligations.DecodeChargeManagementInfoFields := by
  unfold Obligations.DecodeChargeManagementInfoFields
  intro s v1 v2 ichg idis st h h1 h2 hichg hidis hst
  show execDecodeChargeManagementInfo s = _
  exact decodeGroup_of_read h (readChargeManagementInfo_of_fields h1 h2 hichg hidis hst)

/-! ### AnalogValue -/

/-- The AnalogValue group that the fields before the capacities and the two capacities spell (R227). -/
def analogGroup (c : Nat) (cell temp : Nat → Nat) (current packV udi : Nat) (caps : Word24 × Word24) :
    AnalogValueGroup where
  avCellCount := BitVec.ofNat 8 c
  avNCells := BitVec.ofNat 4 (min c 15)
  avCell := Vector.ofFn fun i => if i.val < min c 15 then BitVec.ofNat 16 (cell i) else 0
  avTemp := Vector.ofFn fun j => BitVec.ofNat 16 (temp j)
  avCurrent := BitVec.ofNat 16 current
  avPackV := BitVec.ofNat 16 packV
  avUdi := BitVec.ofNat 8 udi
  avRemCap := caps.1
  avTotCap := caps.2

theorem cellsDecoded_ofNat {c : Nat} (h : c < 256) : cellsDecoded (BitVec.ofNat 8 c) = min c 15 := by
  rw [cellsDecoded, BitVec.toNat_ofNat, Nat.mod_eq_of_lt h]

theorem readCell_of_fields {s : State} {n i : Nat} {cell : Nat → Nat}
    (h : ∀ i < n, hexField s (19 + 4 * i) 4 = some (cell i)) :
    readCell s n i = .ok (if i < n then BitVec.ofNat 16 (cell i) else 0) := by
  rw [readCell]
  split
  · exact readReg_of_hexField (h i ‹_›)
  · rfl

/-- Where its fields before the capacities are spelled, AnalogValue is decided by the capacities (R215, R227). -/
theorem readAnalogValue_of_fields {s : State} {c : Nat} {cell temp : Nat → Nat} {current packV udi : Nat}
    (h : AnalogFields s c cell temp current packV udi) :
    readAnalogValue s =
      (readCapacities s (BitVec.ofNat 8 udi)).map (analogGroup c cell temp current packV udi) := by
  obtain ⟨hc, hcell, htemp, hcurrent, hpackV, hudi⟩ := h
  have count := cellsDecoded_ofNat (hexField_lt hc)
  have cells : readVec 15 (readCell s (min c 15)) =
      .ok (Vector.ofFn fun i => if i.val < min c 15 then BitVec.ofNat 16 (cell i) else 0) :=
    readVec_of_ok (v := fun i => if i < min c 15 then BitVec.ofNat 16 (cell i) else 0)
      fun _ _ => readCell_of_fields hcell
  have temps := readVec_of_ok fun j hj => readReg_of_hexField (n := 16) (htemp j hj)
  simp only [readAnalogValue, bind, Except.bind, readReg_of_hexField hc, count, cells, temps,
    readReg_of_hexField hcurrent, readReg_of_hexField hpackV, readReg_of_hexField hudi]
  rfl

theorem readCapacities_of_capacities {s : State} {udi rem tot : Nat} (h : AnalogCapacities s udi rem tot) :
    readCapacities s (BitVec.ofNat 8 udi) = .ok (BitVec.ofNat 24 rem, BitVec.ofNat 24 tot) := by
  rcases h with ⟨rfl, hrem, htot⟩ | ⟨rfl, hrem, htot⟩
  · simp only [readCapacities, readReg_of_hexField hrem, readReg_of_hexField htot]
    rfl
  · simp only [readCapacities, readReg_of_hexField hrem, readReg_of_hexField htot]
    rfl

theorem readCapacities_of_other {s : State} {udi : Nat} (hlt : udi < 256) (h2 : udi ≠ 2) (h4 : udi ≠ 4) :
    readCapacities s (BitVec.ofNat 8 udi) = .error ⟨.unsupportedVariant, BitVec.ofNat 16 udi⟩ := by
  have ne2 : BitVec.ofNat 8 udi ≠ 2 := by bv_omega
  have ne4 : BitVec.ofNat 8 udi ≠ 4 := by bv_omega
  rw [readCapacities, if_neg ne2, if_neg ne4, BitVec.setWidth_ofNat_of_le_of_lt (by decide) hlt]

/-- Settles O41: the group is decided by the capacities, and discriminators 2 and 4 have them. -/
theorem decodeAnalogValueFields : Obligations.DecodeAnalogValueFields := by
  unfold Obligations.DecodeAnalogValueFields
  intro s c cell temp current packV udi rem tot h hf hcap
  show execDecodeAnalogValue s = _
  exact decodeGroup_of_read h ((readAnalogValue_of_fields hf).trans (by rw [readCapacities_of_capacities hcap]; rfl))

theorem statusWord_unsupportedVariant (aux : Word16) : statusWord .unsupportedVariant aux = aux ++ 0x0007#16 := by
  have code : 0#12 ++ codeBits .unsupportedVariant = 0x0007#16 := by decide
  rw [statusWord, code]

/-- Settles O42: the group is decided by the capacities, and no other discriminator has them. -/
theorem otherDiscriminatorIsUnsupported : Obligations.OtherDiscriminatorIsUnsupported := by
  unfold Obligations.OtherDiscriminatorIsUnsupported
  intro s c cell temp current packV udi h hf h2 h4
  have ⟨_, _, _, _, _, hudi⟩ := hf
  have failed : readAnalogValue s = .error ⟨.unsupportedVariant, BitVec.ofNat 16 udi⟩ := by
    rw [readAnalogValue_of_fields hf, readCapacities_of_other (hexField_lt hudi) h2 h4]
    rfl
  have run := exec_decodeInstr_of_failure h (failure_of_error (failureOf_readAnalogValue s) failed)
  rw [← statusWord_unsupportedVariant]
  exact run

end Sys2Proof.Machine
end

section
/-! The interpretation formulas (43_decode.md R240–R249, R263): each scaled back to the integer that its raw register gives. -/

namespace Sys2Proof.Machine

/-! ### One raw register -/

theorem volt_mul (raw : Word16) : volt raw * 1000 = raw.toNat := by
  rw [volt]; ring

theorem temperature_mul (raw : Word16) : temperature raw * 10 = (raw.toNat : Rat) - 2731 := by
  rw [temperature]; push_cast; ring

theorem spCurrent_mul (raw : Word16) : spCurrent raw * 10 = raw.toNat := by
  rw [spCurrent]; ring

theorem spDischargeCurrent_mul (raw : Word16) : spDischargeCurrent raw * 10 = 65535 - (raw.toNat : Rat) := by
  rw [spDischargeCurrent]; push_cast; ring

theorem cmChargeCurrent_mul (raw : Word16) : cmChargeCurrent raw * 10 = raw.toNat := by
  rw [cmChargeCurrent]; ring

theorem cmDischargeCurrent_mul (raw : Word16) : cmDischargeCurrent raw * 10 = 65536 - (raw.toNat : Rat) := by
  rw [cmDischargeCurrent]; push_cast; ring

theorem sext16_eq_toInt (raw : Word16) : sext16 raw = raw.toInt := by
  rw [sext16, BitVec.toInt_eq_msb_cond, BitVec.msb_eq_getLsbD_last]
  rfl

theorem packCurrent_eq (raw : Word16) : packCurrent raw = (raw.toInt : Rat) / 10 := by
  rw [packCurrent, sext16_eq_toInt]

theorem packCurrent_mul (raw : Word16) : packCurrent raw * 10 = (raw.toInt : Rat) := by
  rw [packCurrent_eq]; ring

theorem capacity_mul (raw : Word24) : capacity raw * 1000 = raw.toNat := by
  rw [capacity]; ring

/-- Settles O58: below 0x8000 the two's complement value is the raw, from there up it is 65536 less. -/
theorem packCurrentIsSigned : Obligations.PackCurrentIsSigned := by
  unfold Obligations.PackCurrentIsSigned
  refine fun raw => ⟨packCurrent_eq raw, fun hlt => ?_, fun hge => ?_⟩
  · have : raw.toInt = raw.toNat := BitVec.toInt_eq_toNat_of_lt (by omega)
    rw [packCurrent_mul, this, Int.cast_natCast]
  · have : raw.toInt = (raw.toNat : Int) - 65536 := by rw [BitVec.toInt_eq_toNat_cond, if_neg (by omega)]; rfl
    rw [packCurrent_mul, this]
    push_cast
    rfl

/-! ### Exactness -/

theorem den_eq_one_of_eq_intCast {q : Rat} {z : Int} (h : q = z) : q.den = 1 := by
  rw [h, Rat.den_intCast]

theorem spCurrent_thousandths (raw : Word16) : spCurrent raw * 1000 = ((raw.toNat * 100 : Int) : Rat) := by
  rw [spCurrent]; push_cast; ring

theorem spDischargeCurrent_thousandths (raw : Word16) :
    spDischargeCurrent raw * 1000 = (((65535 - raw.toNat) * 100 : Int) : Rat) := by
  rw [spDischargeCurrent]; push_cast; ring

/-! ### Groups -/

theorem length_cellVolts (g : AnalogValueGroup) : (cellVolts g).length = g.avNCells.toNat := by
  have : g.avNCells.toNat < 16 := g.avNCells.isLt
  simp [cellVolts]
  omega

theorem getElem?_cellVolts (g : AnalogValueGroup) {i : Fin 15} (h : i.val < g.avNCells.toNat) :
    (cellVolts g)[i.val]? = some ((g.avCell[i].toNat : Rat) / 1000) := by
  simp [cellVolts, h, volt]

theorem getElem?_temperatures (g : AnalogValueGroup) (j : Fin 5) :
    (temperatures g)[j.val]? = some (((g.avTemp[j].toNat : Rat) - 2731) / 10) := by
  simp [temperatures, temperature]

/-- Settles O59: each register has its formula, and the multiple is an integer. -/
theorem renderedDecimalsAreExact : Obligations.RenderedDecimalsAreExact := by
  unfold Obligations.RenderedDecimalsAreExact
  refine ⟨fun raw => ?_, capacity_mul, fun raw => ?_, fun raw => ?_, fun raw => ?_, fun g => ?_, fun g => ?_⟩
  · exact ⟨volt_mul raw, temperature_mul raw, spCurrent_mul raw, spDischargeCurrent_mul raw, cmChargeCurrent_mul raw,
      cmDischargeCurrent_mul raw, packCurrent_mul raw⟩
  · exact ⟨den_eq_one_of_eq_intCast (z := raw.toNat) (volt_mul raw),
      den_eq_one_of_eq_intCast (z := raw.toNat - 2731) (by push_cast; exact temperature_mul raw),
      den_eq_one_of_eq_intCast (spCurrent_thousandths raw), den_eq_one_of_eq_intCast (spDischargeCurrent_thousandths raw),
      den_eq_one_of_eq_intCast (z := raw.toNat) (cmChargeCurrent_mul raw),
      den_eq_one_of_eq_intCast (z := 65536 - raw.toNat) (by push_cast; exact cmDischargeCurrent_mul raw),
      den_eq_one_of_eq_intCast (packCurrent_mul raw)⟩
  · exact den_eq_one_of_eq_intCast (z := raw.toNat) (capacity_mul raw)
  · exact ⟨volt_mul raw, temperature_mul raw, spCurrent_mul raw, spDischargeCurrent_mul raw⟩
  · exact ⟨volt_mul _, volt_mul _, cmChargeCurrent_mul _, cmDischargeCurrent_mul _⟩
  · exact ⟨volt_mul _, packCurrent_mul _, capacity_mul _, capacity_mul _, length_cellVolts g,
      fun _ => getElem?_cellVolts g, getElem?_temperatures g⟩

/-- Settles O60: tenfold, the two limits are 65535 and 65536 less the raw, which is at most 65535. -/
theorem dischargeLimitsKeepTheirConstants : Obligations.DischargeLimitsKeepTheirConstants := by
  unfold Obligations.DischargeLimitsKeepTheirConstants
  intro raw
  have sp := spDischargeCurrent_mul raw
  have cm := cmDischargeCurrent_mul raw
  have low : (0 : Rat) ≤ raw.toNat := Nat.cast_nonneg _
  have high : (raw.toNat : Rat) ≤ 65535 := by exact_mod_cast Nat.le_of_lt_succ raw.isLt
  have zero : spDischargeCurrent raw = 0 ↔ raw = 0xFFFF#16 := by
    constructor
    · intro h
      have : (raw.toNat : Rat) = 65535 := by linarith
      exact BitVec.eq_of_toNat_eq (by exact_mod_cast this)
    · rintro rfl
      norm_num at sp
      exact sp
  exact ⟨by linarith, zero, by linarith, by linarith, by linarith⟩

end Sys2Proof.Machine
end

section
/-! Reception, command by command (44_receive.md R280, R281, R285, R286): each end is one equation of RX_BYTE or RX_TIMEOUT, and
a frozen accumulator is left by the two resets only. -/

namespace Sys2Proof.Machine

/-! ### RX_BYTE -/

/-- The row of RX_BYTE asks for the low byte 0x03 and leaves ARG free (R102). -/
theorem decodeWord_of_rxByte_row {w : Word16} (h : w &&& 0x00FF#16 = 0x0003#16) : decodeWord w = .rxByte (argField w) := by
  obtain ⟨arg, low, rfl⟩ : ∃ arg low : Byte, arg ++ low = w := ⟨_, _, bytes_of_word w⟩
  obtain ⟨-, hlow⟩ := (masked_append arg low 0x00#8 0xFF#8 0x00#8 0x03#8).mp h
  obtain rfl : low = 0x03#8 := BitVec.and_allOnes.symm.trans hlow
  rw [decodeWord_append, argField_append]
  simp

theorem statusWord_rxOverflow (aux : Word16) : statusWord .rxOverflow aux = aux ++ 0x0009#16 := rfl

/-- Settles O15: the row of RX_BYTE, and its four equations; an accepted byte is not 0x00, so it is read back from any buffer. -/
theorem rxByteAcceptsOneByte : Obligations.RxByteAcceptsOneByte := by
  unfold Obligations.RxByteAcceptsOneByte
  refine ⟨fun w hw => decodeWord_of_rxByte_row hw, fun b s => ⟨fun hf => ?_, fun hb => ?_, fun hf hb hfull => ?_,
    fun hf hb hroom => ?_⟩⟩
  · exact execRxByte_of_frozen hf
  · exact execRxByte_of_noise (Bool.eq_false_iff.mpr (mt inAlphabet_iff.mp hb))
  · rw [← statusWord_rxOverflow]
    exact execRxByte_of_full hf (inAlphabet_iff.mpr hb) hfull
  · have ha : inAlphabet b = true := inAlphabet_iff.mpr hb
    exact ⟨_, execRxByte_of_room hf ha hroom, rfl, Memory.read_write_nonzero _ _ (ne_zero_of_inAlphabet ha),
      fun i hi => Memory.read_write_other _ b hi⟩

/-! ### RX_RESET and RX_TIMEOUT -/

/-- Settles O14: the word evaluated; CODE NONE with AUX 0 is the STATUS word 0. -/
theorem rxResetEmptiesTheAccumulator : Obligations.RxResetEmptiesTheAccumulator := by
  unfold Obligations.RxResetEmptiesTheAccumulator
  exact ⟨by decide, fun _ => rfl⟩

/-- Settles O16: the word evaluated, and the two equations of RX_TIMEOUT. -/
theorem rxTimeoutEndsTheRead : Obligations.RxTimeoutEndsTheRead := by
  unfold Obligations.RxTimeoutEndsTheRead
  exact ⟨by decide, fun s => ⟨execRxTimeout_of_open, execRxTimeout_of_frozen⟩⟩

/-! ### The frozen accumulator -/

/-- RX_BYTE and RX_TIMEOUT write nothing while frozen (R286). -/
theorem exec_receive_of_frozen {i : Instr} {s t : State} (hf : s.frozen = true) (hi : (∃ b, i = .rxByte b) ∨ i = .rxTimeout)
    (h : exec i s = .next t) : t = s := by
  obtain ⟨b, rfl⟩ | rfl := hi
  · cases (execRxByte_of_frozen hf).symm.trans h; rfl
  · cases (execRxTimeout_of_frozen hf).symm.trans h; rfl

/-- Settles O17: the two commands that could write the accumulator write nothing, and the others leave its registers alone. -/
theorem frozenAccumulatorStays : Obligations.FrozenAccumulatorStays := by
  unfold Obligations.FrozenAccumulatorStays
  intro i s t hf h
  refine ⟨fun hi => exec_receive_of_frozen hf hi h, fun hr h0 => ?_⟩
  by_cases hi : (∃ b, i = .rxByte b) ∨ i = .rxTimeout
  · obtain rfl := exec_receive_of_frozen hf hi h
    exact ⟨hf, rfl, rfl, rfl⟩
  · obtain ⟨hb, ht⟩ := not_or.mp hi
    obtain ⟨hbuf, hrest⟩ := (buffersAreWrittenByTheirCommandsOnly i s t h).2 h0 (not_exists.mp hb)
    obtain ⟨hlen, hstat⟩ := hrest hr
    have frozen : t.frozen = s.frozen := by
      simp only [State.frozen, State.rxDone, State.rxTimedOut, State.rxOverflowed, hstat ht]
    exact ⟨frozen.trans hf, hstat ht, hlen, hbuf⟩

end Sys2Proof.Machine
end

section
/-! Control commands: SOFT_RESET and illegal words (45_control.md R300, R301). -/

namespace Sys2Proof.Machine

/-! ### SOFT_RESET -/

/-- SOFT_RESET keeps the parameters and the pending words; every other field has its reset value (R300). -/
theorem exec_softReset (s : State) : exec .softReset s = .next { State.resetWith s.params with cmdIn := s.cmdIn } := rfl

/-- Settles O43: the word evaluated, and the equation of SOFT_RESET. -/
theorem softResetClearsEverything : Obligations.SoftResetClearsEverything := by
  unfold Obligations.SoftResetClearsEverything
  exact ⟨by decide, exec_softReset⟩

/-! ### Illegal words -/

theorem statusWord_illegalCommand (aux : Word16) : statusWord .illegalCommand aux = aux ++ 0x000D#16 := rfl

/-- An illegal word, or a legal one under the term `illegal`, writes STATUS only (R301). -/
theorem exec_illegal (w : Word16) (s : State) : exec (.illegal w) s = .next { s with status := w ++ 0x000D#16 } := by
  rw [← statusWord_illegalCommand]
  exact raise_eq .illegalCommand w s

/-- Settles O44: an illegal instruction raises ILLEGAL_COMMAND, and a step decodes a word that R102 refuses to one. -/
theorem illegalWordOnlyWritesStatus : Obligations.IllegalWordOnlyWritesStatus := by
  unfold Obligations.IllegalWordOnlyWritesStatus
  refine ⟨exec_illegal, fun w ws s hpending hillegal => ?_⟩
  calc step s = exec (decodeWord w) { s with cmdIn := ws } := step_of_command hpending
    _ = exec (.illegal w) { s with cmdIn := ws } := by rw [decodeWord_of_not_legalWord hillegal]
    _ = .next { s with cmdIn := ws, status := w ++ 0x000D#16 } := exec_illegal w _

end Sys2Proof.Machine
end

section
/-! Completion (60_exceptions.md R310, R318): each command answers a next state, since the invariant leaves no element of
RXBUF missing (20_memory.md R80). -/

namespace Sys2Proof.Machine

theorem buildRequest_completes (k : Kind) (a : Byte) (s : State) : ∃ t, buildRequest k a s = .next t := by
  by_cases ha : Supported s a
  · exact ⟨_, buildRequest_eq_built ha⟩
  · exact ⟨_, buildRequest_of_not_supported ha⟩

theorem execRxByte_completes (b : Byte) {s : State} (hl : s.rxLen.toNat ≤ s.params.rxMax.toNat) :
    ∃ t, execRxByte b s = .next t := by
  cases hf : s.frozen with
  | true => exact ⟨_, execRxByte_of_frozen hf⟩
  | false =>
    cases hb : inAlphabet b with
    | false => exact ⟨_, execRxByte_of_noise hb⟩
    | true =>
      rcases Nat.eq_or_lt_of_le hl with hfull | hroom
      · exact ⟨_, execRxByte_of_full hf hb (BitVec.eq_of_toNat_eq hfull)⟩
      · exact ⟨_, execRxByte_of_room hf hb hroom⟩

theorem execRxTimeout_completes (s : State) : ∃ t, execRxTimeout s = .next t := by
  cases hf : s.frozen with
  | true => exact ⟨_, execRxTimeout_of_frozen hf⟩
  | false => exact ⟨_, execRxTimeout_of_open hf⟩

/-- The ends of VALIDATE in the order of its checks (R180). -/
theorem execValidate_completes (k : Kind) {s : State} (hl : s.rxLen.toNat ≤ s.params.rxMax.toNat) :
    ∃ t, execValidate k s = .next t := by
  cases ho : s.rxOverflowed with
  | true => exact ⟨_, execValidate_of_overflow ho⟩
  | false =>
    cases ht : s.rxTimedOut with
    | true => exact ⟨_, execValidate_of_timeout ho ht⟩
    | false =>
      by_cases hs : ResponseShape s
      · rcases Nat.lt_or_ge s.rxLen.toNat (s.params.minLen.get k).toNat with hshort | hm
        · exact ⟨_, execValidate_of_short ho ht hl hs hshort⟩
        rcases Nat.lt_or_ge s.rxLen.toNat 10 with h9 | h10
        · exact ⟨_, execValidate_of_noCode ho ht hl hs hm h9⟩
        have hcode : ReachesReturnCode k s := ⟨hl, ho, ht, hs, hm, h10⟩
        by_cases hn : s.rxbuf.read 7 = 0x30#8 ∧ s.rxbuf.read 8 = 0x30#8
        · exact ⟨_, execValidate_of_normal hcode hn.1 hn.2⟩
        · exact ⟨_, execValidate_of_other hcode hn⟩
      · exact ⟨_, execValidate_of_malformed ho ht hl hs⟩

/-- The ends of DECODE: unvalidated, with its table's first failure, or OK (R210, R215). -/
theorem exec_decodeInstr_completes (k : Kind) {s : State} (hl : s.rxLen.toNat ≤ s.params.rxMax.toNat) :
    ∃ t, exec (decodeInstr k) s = .next t := by
  by_cases hv : s.valOk = true ∧ s.valKind = k.number
  · have hready : DecodeReady k s := ⟨hv.1, hv.2, hl⟩
    cases hf : firstFailure s k with
    | some e => exact ⟨_, exec_decodeInstr_of_failure hready hf⟩
    | none =>
      obtain ⟨t, h, -⟩ := exec_decodeInstr_of_no_failure hready hf
      exact ⟨t, h⟩
  · exact ⟨_, exec_decodeInstr_of_unvalidated hv⟩

/-- Settles O49: RX_LEN ≤ RX_MAX is all that RX_BYTE, VALIDATE and DECODE need to complete; the other shapes need nothing. -/
theorem everyCommandCompletes : Obligations.EveryCommandCompletes := by
  unfold Obligations.EveryCommandCompletes
  intro i s hinv
  have hl : s.rxLen.toNat ≤ s.params.rxMax.toNat := hinv.rx.rxLen_le
  obtain ⟨k, a, rfl⟩ | ⟨k, a, rfl⟩ | ⟨k, rfl⟩ | ⟨k, rfl⟩ | rfl | ⟨b, rfl⟩ | rfl | rfl | ⟨w, rfl⟩ := Instr.shapes i
  · exact buildRequest_completes k a s
  · rw [exec_requestInstr]; exact buildRequest_completes k a s
  · exact exec_decodeInstr_completes k hl
  · exact execValidate_completes k hl
  · exact ⟨_, rfl⟩
  · exact execRxByte_completes b hl
  · exact execRxTimeout_completes s
  · exact ⟨_, exec_softReset s⟩
  · exact ⟨_, exec_illegal w s⟩

end Sys2Proof.Machine
end

section
/-! The exchange (60_exceptions.md R338): what its end is, given what reception left; then what reception leaves of a stream
that delivers a response (44_receive.md R283), times out, ends (92_eei_decisions.md D33) or overflows. -/

namespace Sys2Proof.Machine

/-! ### Steps 4 to 6 -/

@[simp] theorem clearResults_valOk (s : State) : (clearResults s).valOk = false := by
  simp [State.valOk]

/-- The host that ended the exchange itself writes no VALIDATE (D33). -/
theorem exchange_of_open {p : EofPolicy} {k : Kind} {a : Byte} {es : List StreamEvent} {s t : State} (ha : Supported s a)
    (hr : receive p es (s.awaiting k a) = .next t) (ht : receptionOver t = false) :
    exchange p k a es s = .next t := by
  rw [exchange_of_supported (addressSupported_iff.mpr ha), hr, andThen_next, ifReceived_of_open ht]

/-- Once the reception is over, steps 5 and 6 are left. -/
theorem exchange_of_over {p : EofPolicy} {k : Kind} {a : Byte} {es : List StreamEvent} {s t u : State} (ha : Supported s a)
    (hr : receive p es (s.awaiting k a) = .next t) (ht : receptionOver t = true) (hv : execValidate k t = .next u) :
    exchange p k a es s = ifOk (exec (decodeInstr k)) u := by
  rw [exchange_of_supported (addressSupported_iff.mpr ha), hr, andThen_next, ifReceived_of_over ht]
  change andThen (execValidate k t) _ = _
  rw [hv, andThen_next]

/-- A read that timed out ends the exchange READ_TIMEOUT (R186). -/
theorem exchange_of_timedOut {p : EofPolicy} {k : Kind} {a : Byte} {es : List StreamEvent} {s t : State} (ha : Supported s a)
    (hr : receive p es (s.awaiting k a) = .next t) (ht : t.rxstat = 0x02#8) :
    exchange p k a es s = .next { clearResults t with status := 0x00000006#32 } := by
  have hv : execValidate k t = .next { clearResults t with status := 0x00000006#32 } :=
    execValidate_of_timeout (by simp [State.rxOverflowed, ht]) (by simp [State.rxTimedOut, ht])
  rw [exchange_of_over ha hr (by simp [receptionOver, ht]) hv, ifOk_of_failed (by simp [State.code, codeBits])]

/-- A response that overflowed the accumulator ends the exchange RX_OVERFLOW (R186). -/
theorem exchange_of_overflowed {p : EofPolicy} {k : Kind} {a : Byte} {es : List StreamEvent} {s t : State}
    (ha : Supported s a) (hr : receive p es (s.awaiting k a) = .next t) (ht : t.rxstat = 0x04#8) :
    exchange p k a es s = .next { clearResults t with status := 0x00000009#32 } := by
  have hv : execValidate k t = .next { clearResults t with status := 0x00000009#32 } :=
    execValidate_of_overflow (by simp [State.rxOverflowed, ht])
  rw [exchange_of_over ha hr (by simp [receptionOver, ht]) hv, ifOk_of_failed (by simp [State.code, codeBits])]

/-! ### Reception -/

/-- The block once a stream whose accepted bytes fit has given them to the exchange of kind `k` for `a`. -/
def State.delivered (s : State) (k : Kind) (a : Byte) (bs : List Byte) : State :=
  (s.awaiting k a).accumulate bs

theorem receive_delivered (p : EofPolicy) (es : List StreamEvent) {k : Kind} {a : Byte} {bs : List Byte} {s : State}
    (h : (acceptedBytes bs).length ≤ s.params.rxMax.toNat) :
    receive p (bs.map .byte ++ es) (s.awaiting k a) = receive p es (s.delivered k a bs) :=
  receive_bytes p es rfl (by simpa [State.awaiting] using h)

theorem receive_delivered_nil (p : EofPolicy) {k : Kind} {a : Byte} {bs : List Byte} {s : State}
    (h : (acceptedBytes bs).length ≤ s.params.rxMax.toNat) :
    receive p (bs.map .byte) (s.awaiting k a) = receive p [] (s.delivered k a bs) := by
  simpa using receive_delivered p [] h

theorem delivered_rxFrame {k : Kind} {a : Byte} {bs : List Byte} {s : State}
    (h : (acceptedBytes bs).length ≤ s.params.rxMax.toNat) : (s.delivered k a bs).rxFrame = acceptedBytes bs :=
  rxFrame_accumulate rfl (Nat.lt_of_le_of_lt h s.params.rxMax.isLt)

theorem delivered_txFrame (s : State) (k : Kind) (a : Byte) (bs : List Byte) :
    (s.delivered k a bs).txFrame = requestFrame s.params.cidTable k a :=
  txFrame_written s.txbuf s.params.cidTable k a

/-- RX_RESET has dropped an earlier validation (R280). -/
theorem delivered_valOk (s : State) (k : Kind) (a : Byte) (bs : List Byte) : (s.delivered k a bs).valOk = false := by
  simp [State.delivered, State.accumulate, State.awaiting, State.valOk]

theorem delivered_rxstat_of_cr {k : Kind} {a : Byte} {bs : List Byte} {s : State} (h : cr ∈ bs) :
    (s.delivered k a bs).rxstat = 0x01#8 :=
  if_pos h

theorem delivered_rxstat_of_no_cr {k : Kind} {a : Byte} {bs : List Byte} {s : State} (h : cr ∉ bs) :
    (s.delivered k a bs).rxstat = 0x00#8 :=
  if_neg h

/-- The block after RX_TIMEOUT in an open reception (R285). -/
def State.timedOut (s : State) : State :=
  { s with rxstat := 0x02#8, status := statusWord .readTimeout 0 }

theorem exec_rxTimeout_of_open {s : State} (h : s.rxstat = 0) : exec .rxTimeout s = .next s.timedOut := by
  change execRxTimeout s = _
  rw [execRxTimeout_of_open (frozen_of_rxstat_zero h), h]
  rfl

theorem receptionOver_of_rxstat_zero {s : State} (h : s.rxstat = 0) : receptionOver s = false := by
  simp [receptionOver, h]

/-- A timeout that the stream reports ends an open reception. -/
theorem receive_timeout (p : EofPolicy) {s : State} (h : s.rxstat = 0) : receive p [.timeout] s = .next s.timedOut := by
  rw [receive_cons_of_open (receptionOver_of_rxstat_zero h), eventInstr, exec_rxTimeout_of_open h, andThen_next]
  exact receive_of_over rfl

/-- The stream's end does the same where the host maps it to RX_TIMEOUT (D33). -/
theorem receive_end_timeout {s : State} (h : s.rxstat = 0) : receive .timeout [] s = .next s.timedOut := by
  rw [receive_nil_of_open (receptionOver_of_rxstat_zero h)]
  exact exec_rxTimeout_of_open h

/-- It leaves the reception open where the host ends the exchange itself (D33). -/
theorem receive_end_endExchange {s : State} (h : s.rxstat = 0) : receive .endExchange [] s = .next s :=
  receive_nil_of_open (receptionOver_of_rxstat_zero h)

/-- A stream too long for the accumulator fills it with its first RX_MAX accepted bytes (R284). -/
theorem receive_overflow (p : EofPolicy) {k : Kind} {a : Byte} {bs : List Byte} {s : State}
    (h : s.params.rxMax.toNat < (acceptedBytes bs).length) :
    ∃ t, receive p (bs.map .byte) (s.awaiting k a) = .next t ∧ t.rxstat = 0x04#8 ∧
      t.rxFrame = (acceptedBytes bs).take s.params.rxMax.toNat := by
  obtain ⟨b, hr⟩ := receive_bytes_overflow p [] (bs := bs) (s := s.awaiting k a) rfl (Nat.zero_le _)
    (by simpa [State.awaiting] using h)
  rw [List.append_nil] at hr
  refine ⟨_, hr, rfl, ?_⟩
  have hread := Memory.readString_writeString s.rxbuf 0 (bs := (acceptedBytes bs).take s.params.rxMax.toNat)
    fun _ hb => ne_zero_of_mem_acceptedBytes (List.mem_of_mem_take hb)
  rwa [List.length_take_of_le (Nat.le_of_lt h)] at hread

/-- Settles O57: BUILD's failure, the three ends of a stream without CR, and the overflow. -/
theorem failedReceptionEndsTheExchange : Obligations.FailedReceptionEndsTheExchange := by
  unfold Obligations.FailedReceptionEndsTheExchange
  intro p k a bs s
  refine ⟨fun ha => ?_, fun ha hcr hfit => ?_, fun ha hlong => ?_⟩
  · rw [← addressSupported_iff, Bool.not_eq_true] at ha
    exact exchange_of_unsupported ha
  · have hopen : (s.delivered k a bs).rxstat = 0 := delivered_rxstat_of_no_cr hcr
    have hframe : (s.delivered k a bs).rxFrame = acceptedBytes bs := delivered_rxFrame hfit
    refine ⟨⟨_, exchange_of_timedOut ha ((receive_delivered p _ hfit).trans (receive_timeout p hopen)) rfl, rfl, rfl,
        hframe, clearResults_valOk _⟩,
      ⟨_, exchange_of_timedOut ha ((receive_delivered_nil _ hfit).trans (receive_end_timeout hopen)) rfl, rfl, rfl,
        hframe, clearResults_valOk _⟩,
      ⟨_, exchange_of_open ha ((receive_delivered_nil _ hfit).trans (receive_end_endExchange hopen))
        (receptionOver_of_rxstat_zero hopen), rfl, hopen, hframe, delivered_valOk s k a bs⟩⟩
  · obtain ⟨t, hr, hstat, hframe⟩ := receive_overflow p (k := k) (a := a) hlong
    exact ⟨_, exchange_of_overflowed ha hr hstat, rfl, hstat, hframe, clearResults_valOk t⟩

/-! ### A delivered response -/

theorem cr_mem_of_shapeOk {f : List Byte} (h : shapeOk f = true) : cr ∈ f := by
  simp only [shapeOk, Bool.and_eq_true, beq_iff_eq] at h
  obtain ⟨⟨-, hlast⟩, -⟩ := h
  have hmem : cr ∈ slice f (f.length - 1) 1 := by simp [hlast]
  exact List.mem_of_mem_drop (List.mem_of_mem_take hmem)

theorem cr_mem_acceptedBytes {bs : List Byte} : cr ∈ acceptedBytes bs ↔ cr ∈ bs := by
  have hdrop : cr ∉ (bs.filter inAlphabet).takeWhile (· != cr) := fun h => by
    simpa using List.mem_takeWhile_imp h
  simp [acceptedBytes, hdrop, show inAlphabet cr = true from rfl]

/-- A response received whole, well shaped and long enough, reaches VALIDATE's step 3 (R183). -/
theorem reachesReturnCode_of_rxFrame {k : Kind} {s : State} (hl : s.rxLen.toNat ≤ s.params.rxMax.toNat)
    (hstat : s.rxstat = 0x01#8) (hs : shapeOk s.rxFrame = true) (h10 : 10 ≤ s.rxFrame.length)
    (hm : (s.params.minLen.get k).toNat ≤ s.rxFrame.length) : ReachesReturnCode k s := by
  rw [length_rxFrame] at h10 hm
  exact ⟨hl, by simp [State.rxOverflowed, hstat], by simp [State.rxTimedOut, hstat], (shapeOk_rxFrame s).mp hs, hm, h10⟩

/-- The return code read as part of the frame is the one at indices 7 and 8 of RXBUF (R183). -/
theorem read_of_slice_rxFrame {s : State} {b c : Byte} (h10 : 10 ≤ s.rxLen.toNat) (h : slice s.rxFrame 7 2 = [b, c]) :
    s.rxbuf.read 7 = b ∧ s.rxbuf.read 8 = c := by
  have hcode : returnCode s.rxFrame = some ⟨b, c⟩ := by simp [returnCode, h, h10]
  rw [returnCode_rxFrame h10] at hcode
  simpa using hcode

/-- Settles O56: reception leaves the accepted bytes with DONE, which VALIDATE accepts (O22), so that DECODE is left. -/
theorem exchangeDecodesTheDeliveredResponse : Obligations.ExchangeDecodesTheDeliveredResponse := by
  unfold Obligations.ExchangeDecodesTheDeliveredResponse
  intro p k a bs s ha hs hcode h10 hm hfit
  have hdone : (s.delivered k a bs).rxstat = 0x01#8 := delivered_rxstat_of_cr (cr_mem_acceptedBytes.mp (cr_mem_of_shapeOk hs))
  have hover : receptionOver (s.delivered k a bs) = true := by simp [receptionOver, hdone]
  have hframe : (s.delivered k a bs).rxFrame = acceptedBytes bs := delivered_rxFrame hfit
  rw [← hframe] at hs hcode h10 hm
  have hlen : (s.delivered k a bs).rxLen.toNat ≤ s.params.rxMax.toNat := by rwa [← length_rxFrame, hframe]
  have hreach : ReachesReturnCode k (s.delivered k a bs) := reachesReturnCode_of_rxFrame hlen hdone hs h10 hm
  obtain ⟨h7, h8⟩ := read_of_slice_rxFrame (by rwa [← length_rxFrame]) hcode
  obtain ⟨t, hv, ht, hok, hkind, -⟩ := validateAcceptsNormalReturnCode k _ hreach h7 h8
  have hend : exchange p k a (bs.map .byte) s = exec (decodeInstr k) t := by
    rw [exchange_of_over ha ((receive_delivered_nil p hfit).trans (receive_of_over hover)) hover hv]
    exact ifOk_of_ok (by rw [ht]; rfl)
  refine ⟨t, hend, ?_, ?_, hok, hkind, ?_, ?_⟩
  · rw [ht]; exact hframe
  · rw [ht]; exact delivered_txFrame s k a bs
  · rw [ht]; simp [State.rxDone, hdone]
  · rw [ht]; rfl

end Sys2Proof.Machine
end

section
/-! The state after reset (70_reset_and_hazards.md R360, R363): power-on reset and SOFT_RESET leave the same block, up to the
command words still pending. -/

namespace Sys2Proof.Machine

/-! ### All zero -/

/-- Power-on reset leaves no command word pending, and SOFT_RESET those that were (R300, R360). -/
theorem eq_resetWith_of_reset {s : State} (h : (∃ p, s = State.resetWith p) ∨ ∃ u, exec .softReset u = .next s) :
    ∃ p ws, s = { State.resetWith p with cmdIn := ws } := by
  obtain ⟨p, rfl⟩ | ⟨u, hu⟩ := h
  · exact ⟨p, [], rfl⟩
  · cases (exec_softReset u).symm.trans hu
    exact ⟨u.params, u.cmdIn, rfl⟩

/-- Every SN_BYTE is 0 after reset, however many SN_CHARS asks for. -/
theorem resetWith_snByte_zero {p : Params} {b : Byte} (h : b ∈ (State.resetWith p).serialNumber.snByte) : b = 0 :=
  List.eq_of_mem_replicate h

@[simp] theorem resetWith_miType (p : Params) : (State.resetWith p).manufacturerInfo.miType = Vector.replicate 10 0 := rfl

@[simp] theorem resetWith_miManuf (p : Params) : (State.resetWith p).manufacturerInfo.miManuf = Vector.replicate 20 0 := rfl

@[simp] theorem resetWith_spRaw (p : Params) : (State.resetWith p).systemParameters.spRaw = Vector.replicate 11 0 := rfl

@[simp] theorem resetWith_avCell (p : Params) : (State.resetWith p).analogValue.avCell = Vector.replicate 15 0 := rfl

@[simp] theorem resetWith_avTemp (p : Params) : (State.resetWith p).analogValue.avTemp = Vector.replicate 5 0 := rfl

/-- Settles O45: both resets leave `State.resetWith`, whose empty buffers read 0, whose arrays repeat 0, and whose other
registers are written 0. -/
theorem resetStateIsAllZero : Obligations.ResetStateIsAllZero := by
  unfold Obligations.ResetStateIsAllZero
  intro s hs
  obtain ⟨p, ws, rfl⟩ := eq_resetWith_of_reset hs
  have txbuf (i : Nat) : (State.resetWith p).txbuf.read i = 0 := Memory.read_nil i
  have rxbuf (i : Nat) : (State.resetWith p).rxbuf.read i = 0 := Memory.read_nil i
  have miType (i : Fin 10) : (State.resetWith p).manufacturerInfo.miType[i] = 0 := by simp
  have miManuf (i : Fin 20) : (State.resetWith p).manufacturerInfo.miManuf[i] = 0 := by simp
  have spRaw (i : Fin 11) : (State.resetWith p).systemParameters.spRaw[i] = 0 := by simp
  have avCell (i : Fin 15) : (State.resetWith p).analogValue.avCell[i] = 0 := by simp
  have avTemp (i : Fin 5) : (State.resetWith p).analogValue.avTemp[i] = 0 := by simp
  exact ⟨txbuf, rxbuf, rfl, rfl, rfl, rfl, rfl, rfl, rfl, rfl, rfl, fun _ => resetWith_snByte_zero, miType, rfl, rfl, miManuf,
    rfl, rfl, spRaw, rfl, rfl, rfl, rfl, avCell, avTemp, rfl, rfl, rfl, rfl, rfl⟩

/-! ### The invariant at reset -/

/-- The default parameters satisfy R363's conditions. -/
theorem paramsDefault_legal : paramsDefault.Legal where
  addrMin_pos := by decide
  addrMin_le_addrMax := by decide
  addrMax_le := by decide
  rxMax_pos := by decide
  normal_not_known := by decide
  slave_known := by decide
  cid_serialNumber := rfl
  cid_alarmInfo := rfl
  snChars_reading := .inl rfl
  tempBase_fits := by decide

/-- Settles O47: the invariant of a reset block with no command word pending, then at the default parameters. -/
theorem resetMeetsTheInvariant : Obligations.ResetMeetsTheInvariant := by
  unfold Obligations.ResetMeetsTheInvariant
  have reset (p : Params) (hp : p.Legal) : (State.resetWith p).Inv := resetWith_inv hp []
  exact ⟨reset, reset paramsDefault paramsDefault_legal⟩

end Sys2Proof.Machine
end
